-- ==== Sys2Proof/Word.lean ====
section
/-! DEFINITION. The data words of the machine (`00_scope.md` R7): a Byte is 0..255, a Word is 0..65535, a Bit is a `Bool`.
Register arithmetic is `BitVec` arithmetic, which wraps exactly where the spec writes `mod 256` or `mod 65536`. -/

namespace Sys2Proof

/-- A Byte, 8 bits (`Cfg.DATA_WIDTH`, R6). -/
abbrev Byte := BitVec 8

/-- A Word, 16 bits (`Cfg.ADDR_WIDTH`, R6): an address of the CPU address space. -/
abbrev Word := BitVec 16

end Sys2Proof
end

