-- ==== Sys2Proof/Config.lean ====
section
/-! DEFINITION. The configuration (`00_scope.md` R6, `92_eei_decisions.md` "Open parameters"): the fixed numbers of the
machine, the record `Cfg` of the parameters the spec leaves open, the cartridge as the host hands it over (R440), and the
free values (launch memory contents R471, a mixing formula other than the reference one R420). -/

namespace Sys2Proof

/-- What a sparse memory of the machine stores. `cpu` is the storage behind the CPU address space (internal RAM,
cartridge RAM, PRG, each byte listed at its lowest CPU address); the others are the video unit's own memories
(R36, R37, R38). `chrRom` is pattern memory filled by a cartridge, `chrRam` pattern memory of a cartridge without CHR. -/
inductive Space where
  | cpu | oam | nameTable | palette | chrRom | chrRam | frame
deriving DecidableEq, Repr

/-- Name-table arrangement, fixed at construction (R42, R333). -/
inductive Mirroring where
  | horizontal | vertical
deriving DecidableEq, Repr

/-- The two PRG sizes the mapper accepts (R440): one or two 16 KB banks. -/
inductive PrgSize where
  | k16 | k32
deriving DecidableEq, Repr

/-- Which body `Cfg.Mix` has (R420): the reference body, or any other function that is 0 on all-zero inputs. -/
inductive Mixer where
  | reference | other
deriving DecidableEq, Repr

/-- The open parameters of the spec (`92_eei_decisions.md`, "Open parameters, in one place"). They are data of the
machine so that a statement over every state quantifies over them; no step changes them.
`sampleDiv` is SAMPLE_DIV (D33), `mixer` is Mix (D32), `sampleCap` is SAMPLE_CAP (D33, `none` is unbounded),
`vblDot` is VBL_DOT (D21), `intMaskable` is INT_MASKABLE (C1), `prgRam` says PRG_RAM_SIZE is 8192 and not 0 (D18),
`oamDmaCharged` says OAM_DMA_CYCLES is 513 plus parity and not 0 (D19). -/
structure Cfg where
  sampleDiv     : Nat
  mixer         : Mixer
  sampleCap     : Option Nat
  vblDot        : Nat
  intMaskable   : Bool
  prgRam        : Bool
  oamDmaCharged : Bool
deriving DecidableEq, Repr

/-- The defaults of `92_eei_decisions.md`. SAMPLE_DIV has no default there; 1 is the value of the test vectors'
conventions (`95_test_vectors.md`): DESIGN CHOICE, notes/assumptions/3.md. -/
def Cfg.default : Cfg :=
  { sampleDiv := 1, mixer := .reference, sampleCap := none, vblDot := 0, intMaskable := true, prgRam := false,
    oamDmaCharged := true }

/-- The mirroring mode a cartridge header declares; only the first two are accepted (R263, R440). -/
inductive HeaderMirroring where
  | horizontal | vertical | fourScreen
deriving DecidableEq, Repr

/-- The already-parsed cartridge the host hands to construction (R309, R440). -/
structure Cartridge where
  mapperId  : Nat
  prg       : List Byte
  chr       : List Byte
  mirroring : HeaderMirroring
deriving DecidableEq, Repr

/-- The launch parameters (R471, R309): the power-on contents of each memory from its first byte on, as far as the
caller fixes them; a byte past the end of a list keeps its free value. -/
structure Launch where
  ram0    : List Byte
  prgRam0 : List Byte
  oam0    : List Byte
  nt0     : List Byte
  pal0    : List Byte
  chr0    : List Byte
deriving DecidableEq, Repr

namespace Config

/-- RAM_SIZE (R6, R30). -/
def ramSize : Nat := 2048
/-- STACK_PAGE (R6, R22). -/
def stackPage : Word := 0x0100
/-- INT_VECTOR (R6, D9). -/
def intVector : Word := 0xFFFA
/-- RESET_VECTOR (R6, D12). -/
def resetVector : Word := 0xFFFC
/-- BRK_VECTOR (R6, D9). -/
def brkVector : Word := 0xFFFE
/-- INT_CYCLES (R6, D9). -/
def intCycles : Nat := 7
/-- PPU_PER_CPU (R6). -/
def ppuPerCpu : Nat := 3
/-- APU_PER_CPU (R6). -/
def apuPerCpu : Nat := 1
/-- DOTS_PER_LINE (R6, D20). -/
def dotsPerLine : Nat := 341
/-- LINES_PER_FRAME (R6, D20). -/
def linesPerFrame : Nat := 262
/-- POST_LINE (R6): the first scanline after the visible ones. -/
def postLine : Nat := 240
/-- The first scanline of vertical blank, VBL_LINES (R6). -/
def vblLine : Nat := 241
/-- PRE_LINE (R6). -/
def preLine : Nat := 261

/-- FREE VALUE (R471, U5): the power-on contents of a memory cell that nothing has written. No body: a proof can use
no value of it, so what is proved holds for every launch memory (notes/assumptions/1.md). -/
opaque launch : Space → Nat → Byte

/-- FREE VALUE (R420, U6): the mixing formula when it is not the reference body. No body
(notes/assumptions/4.md). -/
opaque mixFree : Nat → Nat → Nat → Nat → Nat → Rat

end Config

end Sys2Proof
end

