-- ==== Sys2Proof/WellFormed.lean ====
section
/-! DEFINITION. Well-formedness: of an instruction (R101, R261), of the open parameters (`92_eei_decisions.md`), and of a
cartridge (R440), whose failures are the `MapperConfigError` of R263. -/

namespace Sys2Proof

/-- Every term of `Instr` is well formed: an instruction has no field but its operand bytes, every value of them is
legal (R101), and "Every instruction in the opcode table is legal in every state" (R261). The types of the constructors'
arguments already are the check. -/
def Instr.wf : Instr → Bool := fun _ => true

/-- The ranges of the open parameters: SAMPLE_DIV is at least 1 (D33), VBL_DOT is 0 or 1 (D21). The others are finite
types. -/
def Cfg.wf (c : Cfg) : Bool := decide (1 ≤ c.sampleDiv) && decide (c.vblDot ≤ 1)

/-- Why construction refuses a cartridge (R263). -/
inductive MapperConfigError where
  | mapperId   -- the identifier is not 0
  | prgSize    -- PRG is neither 16384 nor 32768 bytes
  | chrSize    -- CHR is neither 8192 bytes nor empty
  | mirroring  -- neither horizontal nor vertical
deriving DecidableEq, Repr

/-- The mapper's acceptance test (R440): `none` where the cartridge is accepted, else the first reason that holds.
The order of the tests is the order of R440's list. -/
def Cartridge.check (c : Cartridge) : Option MapperConfigError :=
  if c.mapperId ≠ 0 then some .mapperId
  else if c.prg.length ≠ 16384 ∧ c.prg.length ≠ 32768 then some .prgSize
  else if c.chr.length ≠ 8192 ∧ c.chr.length ≠ 0 then some .chrSize
  else if c.mirroring = .fourScreen then some .mirroring
  else none

/-- The cartridge is one R440 accepts. -/
def Cartridge.wf (c : Cartridge) : Bool := c.check == none

end Sys2Proof
end

