-- ==== Sys2Proof/Decode.lean ====
section
/-! DEFINITION. Encoding (`30_encoding.md`): the opcode matrix of R111 and the decoder over it, total on any bytes and
refusing by name (R112), then the encoder written from the per-instruction encodings of files 40 to 45, and the operand
form, length and mnemonic of each instruction. The byte-order helpers stand first (R76: little-endian). -/

namespace Sys2Proof

/-- `(hi << 8) | lo` (R7). -/
def mkWord (hi lo : Byte) : Word := hi ++ lo

/-- Bits 15..8 of a Word (R7). -/
def hiByte (w : Word) : Byte := w.extractLsb' 8 8

/-- Bits 7..0 of a Word (R7). -/
def loByte (w : Word) : Byte := w.extractLsb' 0 8

/-- `zext_16` (R7). -/
def zext16 (b : Byte) : Word := b.setWidth 16

/-- `sext_16` (R7). -/
def sext16 (b : Byte) : Word := b.signExtend 16

/-! ## The opcode matrix -/

/-- What an opcode byte says: the instruction and how many operand bytes it takes (R101: formats F1, F2, F3). -/
inductive Shape where
  | f1 (i : Instr)
  | f2 (f : Byte → Instr)
  | f3 (f : Word → Instr)

/-- The length `n` in bytes (R101). -/
def Shape.length : Shape → Nat
  | .f1 _ => 1
  | .f2 _ => 2
  | .f3 _ => 3

/-- Row 0x of R111; `none` is a byte of R112's list. -/
def opcodeRow0 : List (Option Shape) :=
  [some (.f1 .brk), some (.f2 .oraIzx), none, none,
   none, some (.f2 .oraZp), some (.f2 .aslZp), none,
   some (.f1 .php), some (.f2 .oraImm), some (.f1 .aslAcc), none,
   none, some (.f3 .oraAbs), some (.f3 .aslAbs), none]

/-- Row 1x of R111; `none` is a byte of R112's list. -/
def opcodeRow1 : List (Option Shape) :=
  [some (.f2 .bpl), some (.f2 .oraIzy), none, none,
   none, some (.f2 .oraZpx), some (.f2 .aslZpx), none,
   some (.f1 .clc), some (.f3 .oraAby), none, none,
   none, some (.f3 .oraAbx), some (.f3 .aslAbx), none]

/-- Row 2x of R111; `none` is a byte of R112's list. -/
def opcodeRow2 : List (Option Shape) :=
  [some (.f3 .jsr), some (.f2 .andIzx), none, none,
   some (.f2 .bitZp), some (.f2 .andZp), some (.f2 .rolZp), none,
   some (.f1 .plp), some (.f2 .andImm), some (.f1 .rolAcc), none,
   some (.f3 .bitAbs), some (.f3 .andAbs), some (.f3 .rolAbs), none]

/-- Row 3x of R111; `none` is a byte of R112's list. -/
def opcodeRow3 : List (Option Shape) :=
  [some (.f2 .bmi), some (.f2 .andIzy), none, none,
   none, some (.f2 .andZpx), some (.f2 .rolZpx), none,
   some (.f1 .sec), some (.f3 .andAby), none, none,
   none, some (.f3 .andAbx), some (.f3 .rolAbx), none]

/-- Row 4x of R111; `none` is a byte of R112's list. -/
def opcodeRow4 : List (Option Shape) :=
  [some (.f1 .rti), some (.f2 .eorIzx), none, none,
   none, some (.f2 .eorZp), some (.f2 .lsrZp), none,
   some (.f1 .pha), some (.f2 .eorImm), some (.f1 .lsrAcc), none,
   some (.f3 .jmpAbs), some (.f3 .eorAbs), some (.f3 .lsrAbs), none]

/-- Row 5x of R111; `none` is a byte of R112's list. -/
def opcodeRow5 : List (Option Shape) :=
  [some (.f2 .bvc), some (.f2 .eorIzy), none, none,
   none, some (.f2 .eorZpx), some (.f2 .lsrZpx), none,
   some (.f1 .cli), some (.f3 .eorAby), none, none,
   none, some (.f3 .eorAbx), some (.f3 .lsrAbx), none]

/-- Row 6x of R111; `none` is a byte of R112's list. -/
def opcodeRow6 : List (Option Shape) :=
  [some (.f1 .rts), some (.f2 .adcIzx), none, none,
   none, some (.f2 .adcZp), some (.f2 .rorZp), none,
   some (.f1 .pla), some (.f2 .adcImm), some (.f1 .rorAcc), none,
   some (.f3 .jmpInd), some (.f3 .adcAbs), some (.f3 .rorAbs), none]

/-- Row 7x of R111; `none` is a byte of R112's list. -/
def opcodeRow7 : List (Option Shape) :=
  [some (.f2 .bvs), some (.f2 .adcIzy), none, none,
   none, some (.f2 .adcZpx), some (.f2 .rorZpx), none,
   some (.f1 .sei), some (.f3 .adcAby), none, none,
   none, some (.f3 .adcAbx), some (.f3 .rorAbx), none]

/-- Row 8x of R111; `none` is a byte of R112's list. -/
def opcodeRow8 : List (Option Shape) :=
  [none, some (.f2 .staIzx), none, none,
   some (.f2 .styZp), some (.f2 .staZp), some (.f2 .stxZp), none,
   some (.f1 .dey), none, some (.f1 .txa), none,
   some (.f3 .styAbs), some (.f3 .staAbs), some (.f3 .stxAbs), none]

/-- Row 9x of R111; `none` is a byte of R112's list. -/
def opcodeRow9 : List (Option Shape) :=
  [some (.f2 .bcc), some (.f2 .staIzy), none, none,
   some (.f2 .styZpx), some (.f2 .staZpx), some (.f2 .stxZpy), none,
   some (.f1 .tya), some (.f3 .staAby), some (.f1 .txs), none,
   none, some (.f3 .staAbx), none, none]

/-- Row Ax of R111; `none` is a byte of R112's list. -/
def opcodeRowA : List (Option Shape) :=
  [some (.f2 .ldyImm), some (.f2 .ldaIzx), some (.f2 .ldxImm), none,
   some (.f2 .ldyZp), some (.f2 .ldaZp), some (.f2 .ldxZp), none,
   some (.f1 .tay), some (.f2 .ldaImm), some (.f1 .tax), none,
   some (.f3 .ldyAbs), some (.f3 .ldaAbs), some (.f3 .ldxAbs), none]

/-- Row Bx of R111; `none` is a byte of R112's list. -/
def opcodeRowB : List (Option Shape) :=
  [some (.f2 .bcs), some (.f2 .ldaIzy), none, none,
   some (.f2 .ldyZpx), some (.f2 .ldaZpx), some (.f2 .ldxZpy), none,
   some (.f1 .clv), some (.f3 .ldaAby), some (.f1 .tsx), none,
   some (.f3 .ldyAbx), some (.f3 .ldaAbx), some (.f3 .ldxAby), none]

/-- Row Cx of R111; `none` is a byte of R112's list. -/
def opcodeRowC : List (Option Shape) :=
  [some (.f2 .cpyImm), some (.f2 .cmpIzx), none, none,
   some (.f2 .cpyZp), some (.f2 .cmpZp), some (.f2 .decZp), none,
   some (.f1 .iny), some (.f2 .cmpImm), some (.f1 .dex), none,
   some (.f3 .cpyAbs), some (.f3 .cmpAbs), some (.f3 .decAbs), none]

/-- Row Dx of R111; `none` is a byte of R112's list. -/
def opcodeRowD : List (Option Shape) :=
  [some (.f2 .bne), some (.f2 .cmpIzy), none, none,
   none, some (.f2 .cmpZpx), some (.f2 .decZpx), none,
   some (.f1 .cld), some (.f3 .cmpAby), none, none,
   none, some (.f3 .cmpAbx), some (.f3 .decAbx), none]

/-- Row Ex of R111; `none` is a byte of R112's list. -/
def opcodeRowE : List (Option Shape) :=
  [some (.f2 .cpxImm), some (.f2 .sbcIzx), none, none,
   some (.f2 .cpxZp), some (.f2 .sbcZp), some (.f2 .incZp), none,
   some (.f1 .inx), some (.f2 .sbcImm), some (.f1 .nop), none,
   some (.f3 .cpxAbs), some (.f3 .sbcAbs), some (.f3 .incAbs), none]

/-- Row Fx of R111; `none` is a byte of R112's list. -/
def opcodeRowF : List (Option Shape) :=
  [some (.f2 .beq), some (.f2 .sbcIzy), none, none,
   none, some (.f2 .sbcZpx), some (.f2 .incZpx), none,
   some (.f1 .sed), some (.f3 .sbcAby), none, none,
   none, some (.f3 .sbcAbx), some (.f3 .incAbx), none]

/-- The sixteen rows, high nibble 0 to F (R111). -/
def opcodeMatrix : List (List (Option Shape)) :=
  [opcodeRow0, opcodeRow1, opcodeRow2, opcodeRow3, opcodeRow4, opcodeRow5, opcodeRow6, opcodeRow7] ++
  [opcodeRow8, opcodeRow9, opcodeRowA, opcodeRowB, opcodeRowC, opcodeRowD, opcodeRowE, opcodeRowF]

/-- The entry of an opcode byte: row by high nibble, column by low nibble; `none` for the 105 illegal bytes (R112). -/
def opcodeShape (op : Byte) : Option Shape :=
  (opcodeMatrix.getD (op.toNat / 16) []).getD (op.toNat % 16) none

/-! ## The decoder -/

/-- Why bytes are not an instruction followed by a rest. -/
inductive Reject where
  | noBytes                       -- there is no opcode byte
  | illegalOpcode (op : Byte)     -- one of the 105 bytes of R112
  | missingOperand (op : Byte)    -- fewer operand bytes than the opcode's length asks for (R101)
deriving DecidableEq, Repr

/-- What the decoder answers: an instruction and the bytes after it, or a refusal by name. -/
inductive Decoded where
  | ok (i : Instr) (rest : List Byte)
  | reject (r : Reject)
deriving DecidableEq, Repr

/-- Decode one instruction from the front of a byte sequence. The opcode byte alone fixes mnemonic, mode and length
(R101, R115); byte 1 is bits 7..0 and byte 2 bits 15..8 of a 16-bit operand (R101). -/
def decode : List Byte → Decoded
  | [] => .reject .noBytes
  | op :: rest =>
    match opcodeShape op with
    | none => .reject (.illegalOpcode op)
    | some (.f1 i) => .ok i rest
    | some (.f2 f) =>
      match rest with
      | b1 :: rest' => .ok (f b1) rest'
      | [] => .reject (.missingOperand op)
    | some (.f3 f) =>
      match rest with
      | b1 :: b2 :: rest' => .ok (f (mkWord b2 b1)) rest'
      | _ => .reject (.missingOperand op)

/-- The first `n` bytes of a number whose bit 0 is the least significant bit of the first byte. -/
def bytesOfNat (n w : Nat) : List Byte :=
  (List.range n).map fun k => BitVec.ofNat 8 (w / 256 ^ k)

/-- The longest instruction, in bytes (R101). -/
def maxLength : Nat := 3

/-- The bytes of a table word: `nbits` bits of `w`, every bit above them 0, up to the longest instruction. -/
def tableBytes (nbits w : Nat) : List Byte := bytesOfNat maxLength (w % 2 ^ nbits)

/-- The instruction the decoder reads from an instruction whose bits are `w`, numbered as `spec/opcode_table.json`
numbers them. -/
def decodeTableWord (nbits w : Nat) : Option Instr :=
  match decode (tableBytes nbits w) with
  | .ok i _ => some i
  | .reject _ => none

/-! ## The encoder -/

/-- The opcode byte of each instruction, from its own rule's list of encodings (files 40 to 45). -/
def Instr.opcode : Instr → Byte
  | .ldaImm _ => 0xA9
  | .ldaZp _ => 0xA5
  | .ldaZpx _ => 0xB5
  | .ldaAbs _ => 0xAD
  | .ldaAbx _ => 0xBD
  | .ldaAby _ => 0xB9
  | .ldaIzx _ => 0xA1
  | .ldaIzy _ => 0xB1
  | .ldxImm _ => 0xA2
  | .ldxZp _ => 0xA6
  | .ldxZpy _ => 0xB6
  | .ldxAbs _ => 0xAE
  | .ldxAby _ => 0xBE
  | .ldyImm _ => 0xA0
  | .ldyZp _ => 0xA4
  | .ldyZpx _ => 0xB4
  | .ldyAbs _ => 0xAC
  | .ldyAbx _ => 0xBC
  | .staZp _ => 0x85
  | .staZpx _ => 0x95
  | .staAbs _ => 0x8D
  | .staAbx _ => 0x9D
  | .staAby _ => 0x99
  | .staIzx _ => 0x81
  | .staIzy _ => 0x91
  | .stxZp _ => 0x86
  | .stxZpy _ => 0x96
  | .stxAbs _ => 0x8E
  | .styZp _ => 0x84
  | .styZpx _ => 0x94
  | .styAbs _ => 0x8C
  | .tax => 0xAA
  | .tay => 0xA8
  | .txa => 0x8A
  | .tya => 0x98
  | .tsx => 0xBA
  | .txs => 0x9A
  | .pha => 0x48
  | .php => 0x08
  | .pla => 0x68
  | .plp => 0x28
  | .andImm _ => 0x29
  | .andZp _ => 0x25
  | .andZpx _ => 0x35
  | .andAbs _ => 0x2D
  | .andAbx _ => 0x3D
  | .andAby _ => 0x39
  | .andIzx _ => 0x21
  | .andIzy _ => 0x31
  | .oraImm _ => 0x09
  | .oraZp _ => 0x05
  | .oraZpx _ => 0x15
  | .oraAbs _ => 0x0D
  | .oraAbx _ => 0x1D
  | .oraAby _ => 0x19
  | .oraIzx _ => 0x01
  | .oraIzy _ => 0x11
  | .eorImm _ => 0x49
  | .eorZp _ => 0x45
  | .eorZpx _ => 0x55
  | .eorAbs _ => 0x4D
  | .eorAbx _ => 0x5D
  | .eorAby _ => 0x59
  | .eorIzx _ => 0x41
  | .eorIzy _ => 0x51
  | .bitZp _ => 0x24
  | .bitAbs _ => 0x2C
  | .adcImm _ => 0x69
  | .adcZp _ => 0x65
  | .adcZpx _ => 0x75
  | .adcAbs _ => 0x6D
  | .adcAbx _ => 0x7D
  | .adcAby _ => 0x79
  | .adcIzx _ => 0x61
  | .adcIzy _ => 0x71
  | .sbcImm _ => 0xE9
  | .sbcZp _ => 0xE5
  | .sbcZpx _ => 0xF5
  | .sbcAbs _ => 0xED
  | .sbcAbx _ => 0xFD
  | .sbcAby _ => 0xF9
  | .sbcIzx _ => 0xE1
  | .sbcIzy _ => 0xF1
  | .cmpImm _ => 0xC9
  | .cmpZp _ => 0xC5
  | .cmpZpx _ => 0xD5
  | .cmpAbs _ => 0xCD
  | .cmpAbx _ => 0xDD
  | .cmpAby _ => 0xD9
  | .cmpIzx _ => 0xC1
  | .cmpIzy _ => 0xD1
  | .cpxImm _ => 0xE0
  | .cpxZp _ => 0xE4
  | .cpxAbs _ => 0xEC
  | .cpyImm _ => 0xC0
  | .cpyZp _ => 0xC4
  | .cpyAbs _ => 0xCC
  | .incZp _ => 0xE6
  | .incZpx _ => 0xF6
  | .incAbs _ => 0xEE
  | .incAbx _ => 0xFE
  | .inx => 0xE8
  | .iny => 0xC8
  | .decZp _ => 0xC6
  | .decZpx _ => 0xD6
  | .decAbs _ => 0xCE
  | .decAbx _ => 0xDE
  | .dex => 0xCA
  | .dey => 0x88
  | .aslZp _ => 0x06
  | .aslZpx _ => 0x16
  | .aslAbs _ => 0x0E
  | .aslAbx _ => 0x1E
  | .aslAcc => 0x0A
  | .lsrZp _ => 0x46
  | .lsrZpx _ => 0x56
  | .lsrAbs _ => 0x4E
  | .lsrAbx _ => 0x5E
  | .lsrAcc => 0x4A
  | .rolZp _ => 0x26
  | .rolZpx _ => 0x36
  | .rolAbs _ => 0x2E
  | .rolAbx _ => 0x3E
  | .rolAcc => 0x2A
  | .rorZp _ => 0x66
  | .rorZpx _ => 0x76
  | .rorAbs _ => 0x6E
  | .rorAbx _ => 0x7E
  | .rorAcc => 0x6A
  | .jmpAbs _ => 0x4C
  | .jmpInd _ => 0x6C
  | .jsr _ => 0x20
  | .rts => 0x60
  | .bpl _ => 0x10
  | .bmi _ => 0x30
  | .bvc _ => 0x50
  | .bvs _ => 0x70
  | .bcc _ => 0x90
  | .bcs _ => 0xB0
  | .bne _ => 0xD0
  | .beq _ => 0xF0
  | .clc => 0x18
  | .sec => 0x38
  | .cli => 0x58
  | .sei => 0x78
  | .clv => 0xB8
  | .cld => 0xD8
  | .sed => 0xF8
  | .nop => 0xEA
  | .brk => 0x00
  | .rti => 0x40

/-- The operand form of each instruction (R102 to R109), from the mode its own rule gives the encoding. -/
def Instr.operand : Instr → Operand
  | .ldaImm b => .imm b
  | .ldaZp b => .mem (.zp b)
  | .ldaZpx b => .mem (.zpx b)
  | .ldaAbs w => .mem (.abs w)
  | .ldaAbx w => .mem (.abx w)
  | .ldaAby w => .mem (.aby w)
  | .ldaIzx b => .mem (.izx b)
  | .ldaIzy b => .mem (.izy b)
  | .ldxImm b => .imm b
  | .ldxZp b => .mem (.zp b)
  | .ldxZpy b => .mem (.zpy b)
  | .ldxAbs w => .mem (.abs w)
  | .ldxAby w => .mem (.aby w)
  | .ldyImm b => .imm b
  | .ldyZp b => .mem (.zp b)
  | .ldyZpx b => .mem (.zpx b)
  | .ldyAbs w => .mem (.abs w)
  | .ldyAbx w => .mem (.abx w)
  | .staZp b => .mem (.zp b)
  | .staZpx b => .mem (.zpx b)
  | .staAbs w => .mem (.abs w)
  | .staAbx w => .mem (.abx w)
  | .staAby w => .mem (.aby w)
  | .staIzx b => .mem (.izx b)
  | .staIzy b => .mem (.izy b)
  | .stxZp b => .mem (.zp b)
  | .stxZpy b => .mem (.zpy b)
  | .stxAbs w => .mem (.abs w)
  | .styZp b => .mem (.zp b)
  | .styZpx b => .mem (.zpx b)
  | .styAbs w => .mem (.abs w)
  | .tax => .imp
  | .tay => .imp
  | .txa => .imp
  | .tya => .imp
  | .tsx => .imp
  | .txs => .imp
  | .pha => .imp
  | .php => .imp
  | .pla => .imp
  | .plp => .imp
  | .andImm b => .imm b
  | .andZp b => .mem (.zp b)
  | .andZpx b => .mem (.zpx b)
  | .andAbs w => .mem (.abs w)
  | .andAbx w => .mem (.abx w)
  | .andAby w => .mem (.aby w)
  | .andIzx b => .mem (.izx b)
  | .andIzy b => .mem (.izy b)
  | .oraImm b => .imm b
  | .oraZp b => .mem (.zp b)
  | .oraZpx b => .mem (.zpx b)
  | .oraAbs w => .mem (.abs w)
  | .oraAbx w => .mem (.abx w)
  | .oraAby w => .mem (.aby w)
  | .oraIzx b => .mem (.izx b)
  | .oraIzy b => .mem (.izy b)
  | .eorImm b => .imm b
  | .eorZp b => .mem (.zp b)
  | .eorZpx b => .mem (.zpx b)
  | .eorAbs w => .mem (.abs w)
  | .eorAbx w => .mem (.abx w)
  | .eorAby w => .mem (.aby w)
  | .eorIzx b => .mem (.izx b)
  | .eorIzy b => .mem (.izy b)
  | .bitZp b => .mem (.zp b)
  | .bitAbs w => .mem (.abs w)
  | .adcImm b => .imm b
  | .adcZp b => .mem (.zp b)
  | .adcZpx b => .mem (.zpx b)
  | .adcAbs w => .mem (.abs w)
  | .adcAbx w => .mem (.abx w)
  | .adcAby w => .mem (.aby w)
  | .adcIzx b => .mem (.izx b)
  | .adcIzy b => .mem (.izy b)
  | .sbcImm b => .imm b
  | .sbcZp b => .mem (.zp b)
  | .sbcZpx b => .mem (.zpx b)
  | .sbcAbs w => .mem (.abs w)
  | .sbcAbx w => .mem (.abx w)
  | .sbcAby w => .mem (.aby w)
  | .sbcIzx b => .mem (.izx b)
  | .sbcIzy b => .mem (.izy b)
  | .cmpImm b => .imm b
  | .cmpZp b => .mem (.zp b)
  | .cmpZpx b => .mem (.zpx b)
  | .cmpAbs w => .mem (.abs w)
  | .cmpAbx w => .mem (.abx w)
  | .cmpAby w => .mem (.aby w)
  | .cmpIzx b => .mem (.izx b)
  | .cmpIzy b => .mem (.izy b)
  | .cpxImm b => .imm b
  | .cpxZp b => .mem (.zp b)
  | .cpxAbs w => .mem (.abs w)
  | .cpyImm b => .imm b
  | .cpyZp b => .mem (.zp b)
  | .cpyAbs w => .mem (.abs w)
  | .incZp b => .mem (.zp b)
  | .incZpx b => .mem (.zpx b)
  | .incAbs w => .mem (.abs w)
  | .incAbx w => .mem (.abx w)
  | .inx => .imp
  | .iny => .imp
  | .decZp b => .mem (.zp b)
  | .decZpx b => .mem (.zpx b)
  | .decAbs w => .mem (.abs w)
  | .decAbx w => .mem (.abx w)
  | .dex => .imp
  | .dey => .imp
  | .aslZp b => .mem (.zp b)
  | .aslZpx b => .mem (.zpx b)
  | .aslAbs w => .mem (.abs w)
  | .aslAbx w => .mem (.abx w)
  | .aslAcc => .acc
  | .lsrZp b => .mem (.zp b)
  | .lsrZpx b => .mem (.zpx b)
  | .lsrAbs w => .mem (.abs w)
  | .lsrAbx w => .mem (.abx w)
  | .lsrAcc => .acc
  | .rolZp b => .mem (.zp b)
  | .rolZpx b => .mem (.zpx b)
  | .rolAbs w => .mem (.abs w)
  | .rolAbx w => .mem (.abx w)
  | .rolAcc => .acc
  | .rorZp b => .mem (.zp b)
  | .rorZpx b => .mem (.zpx b)
  | .rorAbs w => .mem (.abs w)
  | .rorAbx w => .mem (.abx w)
  | .rorAcc => .acc
  | .jmpAbs w => .mem (.abs w)
  | .jmpInd w => .ind w
  | .jsr w => .mem (.abs w)
  | .rts => .imp
  | .bpl b => .rel b
  | .bmi b => .rel b
  | .bvc b => .rel b
  | .bvs b => .rel b
  | .bcc b => .rel b
  | .bcs b => .rel b
  | .bne b => .rel b
  | .beq b => .rel b
  | .clc => .imp
  | .sec => .imp
  | .cli => .imp
  | .sei => .imp
  | .clv => .imp
  | .cld => .imp
  | .sed => .imp
  | .nop => .imp
  | .brk => .imp
  | .rti => .imp

/-- The mnemonic of each instruction. -/
def Instr.mnemonic : Instr → Mnemonic
  | .ldaImm _ => .lda
  | .ldaZp _ => .lda
  | .ldaZpx _ => .lda
  | .ldaAbs _ => .lda
  | .ldaAbx _ => .lda
  | .ldaAby _ => .lda
  | .ldaIzx _ => .lda
  | .ldaIzy _ => .lda
  | .ldxImm _ => .ldx
  | .ldxZp _ => .ldx
  | .ldxZpy _ => .ldx
  | .ldxAbs _ => .ldx
  | .ldxAby _ => .ldx
  | .ldyImm _ => .ldy
  | .ldyZp _ => .ldy
  | .ldyZpx _ => .ldy
  | .ldyAbs _ => .ldy
  | .ldyAbx _ => .ldy
  | .staZp _ => .sta
  | .staZpx _ => .sta
  | .staAbs _ => .sta
  | .staAbx _ => .sta
  | .staAby _ => .sta
  | .staIzx _ => .sta
  | .staIzy _ => .sta
  | .stxZp _ => .stx
  | .stxZpy _ => .stx
  | .stxAbs _ => .stx
  | .styZp _ => .sty
  | .styZpx _ => .sty
  | .styAbs _ => .sty
  | .tax => .tax
  | .tay => .tay
  | .txa => .txa
  | .tya => .tya
  | .tsx => .tsx
  | .txs => .txs
  | .pha => .pha
  | .php => .php
  | .pla => .pla
  | .plp => .plp
  | .andImm _ => .and
  | .andZp _ => .and
  | .andZpx _ => .and
  | .andAbs _ => .and
  | .andAbx _ => .and
  | .andAby _ => .and
  | .andIzx _ => .and
  | .andIzy _ => .and
  | .oraImm _ => .ora
  | .oraZp _ => .ora
  | .oraZpx _ => .ora
  | .oraAbs _ => .ora
  | .oraAbx _ => .ora
  | .oraAby _ => .ora
  | .oraIzx _ => .ora
  | .oraIzy _ => .ora
  | .eorImm _ => .eor
  | .eorZp _ => .eor
  | .eorZpx _ => .eor
  | .eorAbs _ => .eor
  | .eorAbx _ => .eor
  | .eorAby _ => .eor
  | .eorIzx _ => .eor
  | .eorIzy _ => .eor
  | .bitZp _ => .bit
  | .bitAbs _ => .bit
  | .adcImm _ => .adc
  | .adcZp _ => .adc
  | .adcZpx _ => .adc
  | .adcAbs _ => .adc
  | .adcAbx _ => .adc
  | .adcAby _ => .adc
  | .adcIzx _ => .adc
  | .adcIzy _ => .adc
  | .sbcImm _ => .sbc
  | .sbcZp _ => .sbc
  | .sbcZpx _ => .sbc
  | .sbcAbs _ => .sbc
  | .sbcAbx _ => .sbc
  | .sbcAby _ => .sbc
  | .sbcIzx _ => .sbc
  | .sbcIzy _ => .sbc
  | .cmpImm _ => .cmp
  | .cmpZp _ => .cmp
  | .cmpZpx _ => .cmp
  | .cmpAbs _ => .cmp
  | .cmpAbx _ => .cmp
  | .cmpAby _ => .cmp
  | .cmpIzx _ => .cmp
  | .cmpIzy _ => .cmp
  | .cpxImm _ => .cpx
  | .cpxZp _ => .cpx
  | .cpxAbs _ => .cpx
  | .cpyImm _ => .cpy
  | .cpyZp _ => .cpy
  | .cpyAbs _ => .cpy
  | .incZp _ => .inc
  | .incZpx _ => .inc
  | .incAbs _ => .inc
  | .incAbx _ => .inc
  | .inx => .inx
  | .iny => .iny
  | .decZp _ => .dec
  | .decZpx _ => .dec
  | .decAbs _ => .dec
  | .decAbx _ => .dec
  | .dex => .dex
  | .dey => .dey
  | .aslZp _ => .asl
  | .aslZpx _ => .asl
  | .aslAbs _ => .asl
  | .aslAbx _ => .asl
  | .aslAcc => .asl
  | .lsrZp _ => .lsr
  | .lsrZpx _ => .lsr
  | .lsrAbs _ => .lsr
  | .lsrAbx _ => .lsr
  | .lsrAcc => .lsr
  | .rolZp _ => .rol
  | .rolZpx _ => .rol
  | .rolAbs _ => .rol
  | .rolAbx _ => .rol
  | .rolAcc => .rol
  | .rorZp _ => .ror
  | .rorZpx _ => .ror
  | .rorAbs _ => .ror
  | .rorAbx _ => .ror
  | .rorAcc => .ror
  | .jmpAbs _ => .jmp
  | .jmpInd _ => .jmp
  | .jsr _ => .jsr
  | .rts => .rts
  | .bpl _ => .bpl
  | .bmi _ => .bmi
  | .bvc _ => .bvc
  | .bvs _ => .bvs
  | .bcc _ => .bcc
  | .bcs _ => .bcs
  | .bne _ => .bne
  | .beq _ => .beq
  | .clc => .clc
  | .sec => .sec
  | .cli => .cli
  | .sei => .sei
  | .clv => .clv
  | .cld => .cld
  | .sed => .sed
  | .nop => .nop
  | .brk => .brk
  | .rti => .rti

/-- The operand bytes of a memory mode, in increasing address order (R101, R76). -/
def MemMode.bytes : MemMode → List Byte
  | .zp b => [b]
  | .zpx b => [b]
  | .zpy b => [b]
  | .abs w => [loByte w, hiByte w]
  | .abx w => [loByte w, hiByte w]
  | .aby w => [loByte w, hiByte w]
  | .izx b => [b]
  | .izy b => [b]

/-- The operand bytes of an operand form, in increasing address order (R101, R76). -/
def Operand.bytes : Operand → List Byte
  | .imp => []
  | .acc => []
  | .imm b => [b]
  | .mem m => m.bytes
  | .ind w => [loByte w, hiByte w]
  | .rel b => [b]

/-- The length `n` of an instruction with a memory operand (R113). -/
def MemMode.length : MemMode → Nat
  | .zp _ => 2
  | .zpx _ => 2
  | .zpy _ => 2
  | .abs _ => 3
  | .abx _ => 3
  | .aby _ => 3
  | .izx _ => 2
  | .izy _ => 2

/-- The length `n` of an instruction in bytes, by operand form (R113). -/
def Operand.length : Operand → Nat
  | .imp => 1
  | .acc => 1
  | .imm _ => 2
  | .mem m => m.length
  | .ind _ => 3
  | .rel _ => 2

/-- The length `n` of an instruction in bytes (R101, R113). -/
def Instr.length (i : Instr) : Nat := i.operand.length

/-- The bytes of an instruction: the opcode, then the operand bytes (R101). -/
def encode (i : Instr) : List Byte := i.opcode :: i.operand.bytes

end Sys2Proof
end

