-- ==== Sys2Proof/Machine/Memory.lean ====
section
/-! DEFINITION. Sparse memories as plain data: lists of (address, byte) pairs in one canonical form, what an unlisted
address reads as, and the read and the write. The machine stores CPU storage, the video unit's memories and each row of
the frame buffer this way (`10_state.md` R30, R36 to R38, R42). -/

namespace Sys2Proof.Machine

/-- A sparse memory: addresses strictly rising, no entry equal to what an unlisted address reads as. -/
abbrev Memory := List Host.Cell

/-- The value listed at an address. -/
def lookupCell {α : Type} : List (Nat × α) → Nat → Option α
  | [], _ => none
  | (k, v) :: rest, a => if k = a then some v else lookupCell rest a

/-- List a value at an address, at its place in the rising order. -/
def insertCell {α : Type} : List (Nat × α) → Nat → α → List (Nat × α)
  | [], a, v => [(a, v)]
  | (k, w) :: rest, a, v =>
    if k = a then (a, v) :: rest
    else if a < k then (a, v) :: (k, w) :: rest
    else (k, w) :: insertCell rest a v

/-- Take an address off the list. -/
def eraseCell {α : Type} (m : List (Nat × α)) (a : Nat) : List (Nat × α) :=
  m.filter fun c => c.1 != a

/-- Strictly rising addresses. -/
def rising {α : Type} : List (Nat × α) → Bool
  | [] => true
  | [_] => true
  | c :: d :: rest => decide (c.1 < d.1) && rising (d :: rest)

/-- WHAT AN UNLISTED ADDRESS READS AS, for each memory. `none` is "no fixed value": the power-on contents of RAM,
cartridge RAM, the sprite table, the name tables, the palette and pattern RAM are launch parameters (R471), so such a
cell reads as a free value (`launchByte`). A cartridge's PRG and CHR are listed where they are not 0: an unlisted
cartridge byte is 0 (`95_test_vectors.md` part P: "Unlisted PRG bytes are 0x00"; notes/assumptions/2.md). The frame
buffer powers on as 0 (R38). -/
def unlisted : Space → Nat → Option Byte
  | .cpu, a => if 0x8000 ≤ a then some 0 else none
  | .oam, _ => none
  | .nameTable, _ => none
  | .palette, _ => none
  | .chrRom, _ => some 0
  | .chrRam, _ => none
  | .frame, _ => some 0

/-- The launch contents of a cell (R471); a palette entry keeps six bits (R470: "each entry & 0x3F"). -/
def launchByte : Space → Nat → Byte
  | .cpu, a => Config.launch .cpu a
  | .oam, a => Config.launch .oam a
  | .nameTable, a => Config.launch .nameTable a
  | .palette, a => Config.launch .palette a &&& 0x3F
  | .chrRom, a => Config.launch .chrRom a
  | .chrRam, a => Config.launch .chrRam a
  | .frame, a => Config.launch .frame a

/-- Read one cell. -/
def readCell (sp : Space) (m : Memory) (a : Nat) : Byte :=
  match lookupCell m a with
  | some v => v
  | none => (unlisted sp a).getD (launchByte sp a)

/-- Write one cell; a cell that comes to hold what an unlisted one reads as is taken off the list. -/
def writeCell (sp : Space) (m : Memory) (a : Nat) (v : Byte) : Memory :=
  if unlisted sp a = some v then eraseCell m a else insertCell m a v

/-- The addresses a memory has. -/
def spaceHolds : Space → Nat → Bool
  | .cpu, a => decide (a < 2048) || (decide (0x6000 ≤ a) && decide (a ≤ 0xFFFF))
  | .oam, a => decide (a < 256)
  | .nameTable, a => decide (a < 2048)
  | .palette, a => decide (a < 32)
  | .chrRom, a => decide (a < 8192)
  | .chrRam, a => decide (a < 8192)
  | .frame, a => decide (a < 256)

/-- The canonical form: strictly rising addresses of the memory, no entry equal to what an unlisted address reads as. -/
def Memory.wf (sp : Space) (m : Memory) : Bool :=
  rising m && m.all fun c => spaceHolds sp c.1 && decide (unlisted sp c.1 ≠ some c.2)

/-- A sparse memory that lists the given bytes from an address on (those that differ from an unlisted cell). -/
def cellsFrom (sp : Space) (base : Nat) (bytes : List Byte) : Memory :=
  (bytes.zipIdx base).filterMap fun c => if unlisted sp c.2 = some c.1 then none else some (c.2, c.1)

/-! ## The frame buffer: 240 rows of 256 colour indices (R38) -/

/-- A frame, row by row: the rows that are not all 0, rising, each the sparse memory of its pixels. -/
abbrev Frame := List (Nat × Memory)

/-- One row of a frame. -/
def frameRow (f : Frame) (y : Nat) : Memory := (lookupCell f y).getD []

/-- Pixel `y * 256 + x` (R38). -/
def readPixel (f : Frame) (x y : Nat) : Byte := readCell .frame (frameRow f y) x

/-- Store a pixel; a row that comes to be all 0 is taken off the list. -/
def writePixel (f : Frame) (x y : Nat) (c : Byte) : Frame :=
  match writeCell .frame (frameRow f y) x c with
  | [] => eraseCell f y
  | p :: row => insertCell f y (p :: row)

/-- The canonical form of a frame: rows 0..239 strictly rising, none empty, each in canonical form, every pixel a
colour index 0..63 (R38). -/
def Frame.wf (f : Frame) : Bool :=
  rising f && f.all fun r =>
    decide (r.1 < 240) && !r.2.isEmpty && Memory.wf .frame r.2 && r.2.all fun c => decide (c.2 < 64)

/-! ## Where a CPU address is stored -/

/-- The number of PRG bytes (R440). -/
def prgLength : PrgSize → Nat
  | .k16 => 16384
  | .k32 => 32768

/-- The cell of a PRG address: offset `(a - 0x8000) mod length(prg)` (R441), listed from 0x8000 on. -/
def prgCell (n : PrgSize) (a : Word) : Nat := 0x8000 + (a - 0x8000).toNat % prgLength n

/-- The cell of an internal RAM address: `a mod 2048` (R64). -/
def ramCell (a : Word) : Nat := a.toNat % Config.ramSize

end Sys2Proof.Machine
end

