-- ==== Sys2Proof/Machine/State.lean ====
section
/-! DEFINITION. The state of the machine as plain data (`10_state.md` R20 to R45), the reasons a step can stop, and the
state right after power-on (R45, R470). -/

namespace Sys2Proof.Machine

/-! ## CPU (R20 to R27) -/

/-- The six status flags, one Bit each (R24); there is no stored status byte (R25). -/
structure Flags where
  c : Bool
  z : Bool
  i : Bool
  d : Bool
  v : Bool
  n : Bool
deriving DecidableEq, Repr

/-- The fault record's contents: the illegal byte and the address it was read at (R27, R261). -/
structure DecodeErrorRecord where
  opcode  : Byte
  address : Word
deriving DecidableEq, Repr

/-- The CPU's state (R20): `pc` R23, `sp` R22, `a` `x` `y` R21, `flags` R24, `cyc` R26, `fault` R27. -/
structure Cpu where
  pc    : Word
  sp    : Byte
  a     : Byte
  x     : Byte
  y     : Byte
  flags : Flags
  cyc   : Nat
  fault : Option DecodeErrorRecord
deriving DecidableEq, Repr

/-! ## Bus (R28, R29) -/

/-- The bus's own state: the interrupt line (R28) and the open-bus latch (R29). -/
structure Bus where
  intLine : Bool
  latch   : Byte
deriving DecidableEq, Repr

/-! ## Video unit (R31 to R38) -/

/-- The video unit's state: position counters R31, `ctrl` and `mask` R32, status flags R33, scroll latches R34, the
video-memory port R35, the sprite table and its index R36, name-table, palette and pattern memory R37, the frame buffer
and the completed frame R38. -/
structure Video where
  scanline   : Nat
  dot        : Nat
  frameCount : Nat
  ctrl       : Byte
  mask       : Byte
  vbl        : Bool
  s0         : Bool
  ovf        : Bool
  w          : Bool
  scrollX    : Byte
  scrollY    : Byte
  v          : BitVec 14
  tAddr      : BitVec 14
  rbuf       : Byte
  oamAddr    : Byte
  oam        : Memory
  nt         : Memory
  pal        : Memory
  chr        : Memory
  fb         : Frame
  frameOut   : Option Frame
deriving DecidableEq, Repr

/-! ## Audio unit (R39, R40) -/

/-- A pulse channel (R39). `constVol` is the table's `const`. -/
structure Pulse where
  duty     : BitVec 2
  halt     : Bool
  constVol : Bool
  vol      : BitVec 4
  period   : BitVec 11
  timer    : BitVec 11
  pos      : BitVec 3
  length   : Byte
  enabled  : Bool
  start    : Bool
  div      : BitVec 4
  decay    : BitVec 4
  sweepReg : Byte
deriving DecidableEq, Repr

/-- The triangle channel (R39). -/
structure Triangle where
  period  : BitVec 11
  timer   : BitVec 11
  pos     : BitVec 5
  length  : Byte
  halt    : Bool
  enabled : Bool
  linReg  : BitVec 7
deriving DecidableEq, Repr

/-- The noise channel (R39). -/
structure Noise where
  mode     : Bool
  idx      : BitVec 4
  timer    : BitVec 12
  lfsr     : BitVec 15
  length   : Byte
  halt     : Bool
  constVol : Bool
  vol      : BitVec 4
  enabled  : Bool
  start    : Bool
  div      : BitVec 4
  decay    : BitVec 4
deriving DecidableEq, Repr

/-- The sample channel (R39): `regs[0..3]` stored only, and the level. -/
structure SampleChannel where
  level : BitVec 7
  reg0  : Byte
  reg1  : Byte
  reg2  : Byte
  reg3  : Byte
deriving DecidableEq, Repr

/-- The audio unit's state (R39, R40). `samplesRev` is the sequence `samples` with its newest value first. -/
structure Audio where
  pulse0     : Pulse
  pulse1     : Pulse
  tri        : Triangle
  noise      : Noise
  sample     : SampleChannel
  fsMode     : Bool
  fsInhibit  : Bool
  fsCount    : Nat
  apuCycle   : Nat
  samplesRev : List Rat
deriving DecidableEq, Repr

/-! ## Input and cartridge (R41, R42) -/

/-- The controller ports (R41). -/
structure Input where
  pad0   : Byte
  pad1   : Byte
  shift0 : Byte
  shift1 : Byte
  strobe : Bool
deriving DecidableEq, Repr

/-- What of the cartridge is fixed at construction (R42); its bytes are in `State.mem` and `Video.chr`. -/
structure Cart where
  prgSize     : PrgSize
  mirroring   : Mirroring
  chrWritable : Bool
deriving DecidableEq, Repr

/-- A controller port (R305). -/
inductive Port where
  | p0 | p1
deriving DecidableEq, Repr

/-- What the host can do between two steps that changes the machine: set the buttons of a port (R305), or take the
oldest `n` samples (R307). -/
inductive HostCall where
  | setButtons (port : Port) (buttons : Byte)
  | takeSamples (n : Nat)
deriving DecidableEq, Repr

/-! ## The machine -/

/-- The whole state. `mem` is the storage behind the CPU address space: internal RAM (R30) at 0..0x7FF, cartridge RAM at
0x6000..0x7FFF and PRG from 0x8000 (R42). `cfg` are the open parameters, constant (R6, R43). `hostCalls` is the host's
input sequence: one list of calls per step boundary, the next boundary first (R305: "The host may call it between any two
`advance()` calls, any number of times"; "a model takes the host's calls as an input sequence"). -/
structure State where
  cfg       : Cfg
  cart      : Cart
  cpu       : Cpu
  bus       : Bus
  mem       : Memory
  video     : Video
  audio     : Audio
  input     : Input
  hostCalls : List (List HostCall)
deriving DecidableEq, Repr

/-- Why the machine stops. -/
inductive Fault where
  /-- `DecodeError` (R261, R262): raised by the step that fetches one of the 105 illegal bytes as an opcode, and again by
  every step tried after it. `opcode` is the byte, `address` the `PC` it was read at, `after` the state the fault leaves
  (`bus_latch` and `fault` written, nothing else; on a machine already faulted, that state unchanged). Safe: the spec
  says the run ends here. -/
  | decodeError (opcode : Byte) (address : Word) (after : State)
deriving DecidableEq, Repr

/-- Why the model gives no meaning. -/
inductive Refusal where
  /-- Raised by `exec` for an instruction without a meaning, by its mnemonic. Safe: nothing can be proved of the step. -/
  | notModelled (mnemonic : String)
deriving DecidableEq, Repr

/-! ## Power-on -/

/-- The flags at power-on (R24). -/
def Flags.reset : Flags := { c := false, z := false, i := true, d := false, v := false, n := false }

/-- A pulse channel at power-on (R39). -/
def Pulse.reset : Pulse :=
  { duty := 0, halt := false, constVol := false, vol := 0, period := 0, timer := 0, pos := 0, length := 0,
    enabled := false, start := false, div := 0, decay := 0, sweepReg := 0 }

/-- The triangle channel at power-on (R39). -/
def Triangle.reset : Triangle :=
  { period := 0, timer := 0, pos := 0, length := 0, halt := false, enabled := false, linReg := 0 }

/-- The noise channel at power-on: every field 0 but `lfsr = 1` (R39). -/
def Noise.reset : Noise :=
  { mode := false, idx := 0, timer := 0, lfsr := 1, length := 0, halt := false, constVol := false, vol := 0,
    enabled := false, start := false, div := 0, decay := 0 }

/-- The audio unit at power-on (R39, R40). -/
def Audio.reset : Audio :=
  { pulse0 := Pulse.reset, pulse1 := Pulse.reset, tri := Triangle.reset, noise := Noise.reset,
    sample := { level := 0, reg0 := 0, reg1 := 0, reg2 := 0, reg3 := 0 },
    fsMode := false, fsInhibit := false, fsCount := 0, apuCycle := 0, samplesRev := [] }

/-- The video unit at power-on over given memories (R31 to R38). -/
def Video.reset (oam nt pal chr : Memory) : Video :=
  { scanline := 0, dot := 0, frameCount := 0, ctrl := 0, mask := 0, vbl := false, s0 := false, ovf := false, w := false,
    scrollX := 0, scrollY := 0, v := 0, tAddr := 0, rbuf := 0, oamAddr := 0, oam := oam, nt := nt, pal := pal,
    chr := chr, fb := [], frameOut := none }

/-- `PowerOn` (R470, R45): every field at its power-on value, then the program counter taken from the PRG bytes at
0xFFFC and 0xFFFD; that load is not a bus read and costs nothing. -/
def powerOn (cfg : Cfg) (cart : Cart) (mem oam nt pal chr : Memory) : State :=
  { cfg := cfg, cart := cart,
    cpu := { pc := mkWord (readCell .cpu mem (prgCell cart.prgSize (Config.resetVector + 1)))
                     (readCell .cpu mem (prgCell cart.prgSize Config.resetVector)),
             sp := 0xFD, a := 0, x := 0, y := 0, flags := Flags.reset, cyc := 0, fault := none },
    bus := { intLine := false, latch := 0 }, mem := mem, video := Video.reset oam nt pal chr, audio := Audio.reset,
    input := { pad0 := 0, pad1 := 0, shift0 := 0, shift1 := 0, strobe := false }, hostCalls := [] }

/-- The cartridge of `State.reset`: 32 KB of PRG, no CHR (so pattern memory is RAM), horizontal mirroring, the
conventions of `95_test_vectors.md`. DESIGN CHOICE, notes/assumptions/2.md. -/
def Cart.blank : Cart := { prgSize := .k32, mirroring := .horizontal, chrWritable := true }

/-- The machine right after power-on (R470) with the default parameters, a blank cartridge (every PRG byte 0, so the
reset vector is 0x0000) and free launch memories (R471); the host has made no call. -/
def State.reset : State := powerOn Cfg.default Cart.blank [] [] [] [] []

end Sys2Proof.Machine
end

