-- ==== Sys2Proof/Machine/Update.lean ====
section
/-! DEFINITION. Named writes of one register or one part of the state (`10_state.md` R21 to R29); everything else is left
as it is. The laws of these are in Sys2Proof/Laws/State.lean. -/

namespace Sys2Proof.Machine

/-- `PC <- v` (R8, R23). -/
def State.setPc (s : State) (v : Word) : State := { s with cpu := { s.cpu with pc := v } }
/-- `SP <- v` (R8, R22). -/
def State.setSp (s : State) (v : Byte) : State := { s with cpu := { s.cpu with sp := v } }
/-- `A <- v` (R8, R21). -/
def State.setA (s : State) (v : Byte) : State := { s with cpu := { s.cpu with a := v } }
/-- `X <- v` (R8, R21). -/
def State.setX (s : State) (v : Byte) : State := { s with cpu := { s.cpu with x := v } }
/-- `Y <- v` (R8, R21). -/
def State.setY (s : State) (v : Byte) : State := { s with cpu := { s.cpu with y := v } }
/-- All six flags (R24). -/
def State.setFlags (s : State) (f : Flags) : State := { s with cpu := { s.cpu with flags := f } }
/-- `cyc <- cyc + n` (R26, R100). -/
def State.addCycles (s : State) (n : Nat) : State := { s with cpu := { s.cpu with cyc := s.cpu.cyc + n } }
/-- The fault record (R27, R261). -/
def State.setFault (s : State) (f : Option DecodeErrorRecord) : State := { s with cpu := { s.cpu with fault := f } }
/-- `bus_latch <- v` (R29, R72). -/
def State.setLatch (s : State) (v : Byte) : State := { s with bus := { s.bus with latch := v } }
/-- `int_line <- b` (R28, R264). -/
def State.setIntLine (s : State) (b : Bool) : State := { s with bus := { s.bus with intLine := b } }
/-- The storage behind the CPU address space (R30, R42). -/
def State.setMem (s : State) (m : Memory) : State := { s with mem := m }
/-- The video unit's state (R31 to R38). -/
def State.setVideo (s : State) (u : Video) : State := { s with video := u }
/-- The audio unit's state (R39, R40). -/
def State.setAudio (s : State) (a : Audio) : State := { s with audio := a }
/-- The controller ports (R41). -/
def State.setInput (s : State) (p : Input) : State := { s with input := p }

end Sys2Proof.Machine
end

