-- ==== Sys2Proof/Machine/Audio.lean ====
section
/-! DEFINITION. The audio unit (`63_audio_unit.md`): its tables, the effect of its registers, the channel timers, the frame
sequencer, the outputs, the mixer and the sample stream. -/

namespace Sys2Proof.Machine

/-! ## Tables (R384, R391 to R393) -/

/-- `LengthTable` (R384). -/
def lengthTable : List Byte :=
  [10, 254, 20, 2, 40, 4, 80, 6, 160, 8, 60, 10, 14, 12, 26, 14] ++
  [12, 16, 24, 18, 48, 20, 96, 22, 192, 24, 72, 26, 16, 28, 32, 30]

/-- `LengthTable[val >> 3]` (R385 to R387). -/
def lengthOf (val : Byte) : Byte := lengthTable.getD (val.toNat / 8) 0

/-- `Duty` (R391). -/
def dutyTable : List (List Bool) :=
  [[false, true, false, false, false, false, false, false],
   [false, true, true, false, false, false, false, false],
   [false, true, true, true, true, false, false, false],
   [true, false, false, true, true, true, true, true]]

/-- `Duty[duty][pos] = 1` (R391). -/
def dutyHigh (duty : BitVec 2) (pos : BitVec 3) : Bool := (dutyTable.getD duty.toNat []).getD pos.toNat false

/-- `NoisePeriod` (R392). -/
def noisePeriodTable : List Nat :=
  [4, 8, 16, 32, 64, 96, 128, 160, 202, 254, 380, 508, 762, 1016, 2034, 4068]

/-- `NoisePeriod[idx]` (R392). -/
def noisePeriod (idx : BitVec 4) : Nat := noisePeriodTable.getD idx.toNat 0

/-- `TriSeq` (R393). -/
def triSeqTable : List Nat :=
  [15, 14, 13, 12, 11, 10, 9, 8, 7, 6, 5, 4, 3, 2, 1, 0] ++
  [0, 1, 2, 3, 4, 5, 6, 7, 8, 9, 10, 11, 12, 13, 14, 15]

/-- `TriSeq[pos]` (R393). -/
def triSeq (pos : BitVec 5) : Nat := triSeqTable.getD pos.toNat 0

/-! ## Frame sequencer clocks (R405, R406) -/

/-- The part of a channel an envelope clock changes. -/
structure Envelope where
  start : Bool
  div   : BitVec 4
  decay : BitVec 4
deriving DecidableEq, Repr

/-- `EnvelopeClock` (R405). -/
def envelopeClock (e : Envelope) (vol : BitVec 4) (halt : Bool) : Envelope :=
  if e.start then { start := false, decay := 15, div := vol }
  else if e.div = 0 then
    { e with div := vol, decay := if e.decay = 0 then (if halt then 15 else e.decay) else e.decay - 1 }
  else { e with div := e.div - 1 }

/-- The envelope clock of a pulse channel (R405). -/
def Pulse.envelope (p : Pulse) : Pulse :=
  let e := envelopeClock { start := p.start, div := p.div, decay := p.decay } p.vol p.halt
  { p with start := e.start, div := e.div, decay := e.decay }

/-- The envelope clock of the noise channel (R405). -/
def Noise.envelope (n : Noise) : Noise :=
  let e := envelopeClock { start := n.start, div := n.div, decay := n.decay } n.vol n.halt
  { n with start := e.start, div := e.div, decay := e.decay }

/-- `QuarterFrame` (R405). -/
def quarterFrame (a : Audio) : Audio :=
  { a with pulse0 := a.pulse0.envelope, pulse1 := a.pulse1.envelope, noise := a.noise.envelope }

/-- One length clock: down by one while not halted and above 0 (R406). -/
def lengthClock (halt : Bool) (length : Byte) : Byte := if halt || length == 0 then length else length - 1

/-- `HalfFrame` (R406). -/
def halfFrame (a : Audio) : Audio :=
  { a with
    pulse0 := { a.pulse0 with length := lengthClock a.pulse0.halt a.pulse0.length }
    pulse1 := { a.pulse1 with length := lengthClock a.pulse1.halt a.pulse1.length }
    tri := { a.tri with length := lengthClock a.tri.halt a.tri.length }
    noise := { a.noise with length := lengthClock a.noise.halt a.noise.length } }

/-! ## Registers (R385 to R390, R416) -/

/-- Bits 10..8 of a period from a written byte, bits 7..0 kept (R385, R386). -/
def periodHigh (p : BitVec 11) (val : Byte) : BitVec 11 := val.extractLsb' 0 3 ++ p.extractLsb' 0 8

/-- Bits 7..0 of a period from a written byte, bits 10..8 kept (R385, R386). -/
def periodLow (p : BitVec 11) (val : Byte) : BitVec 11 := p.extractLsb' 8 3 ++ val

/-- The length after a write of a channel's fourth register: loaded only while enabled (R385 to R387). -/
def loadLength (enabled : Bool) (length val : Byte) : Byte := if enabled then lengthOf val else length

/-- A pulse channel's four registers, `r = a mod 4` (R385). -/
def Pulse.write (p : Pulse) (r : Nat) (val : Byte) : Pulse :=
  match r with
  | 0 => { p with duty := val.extractLsb' 6 2, halt := val.getLsbD 5, constVol := val.getLsbD 4,
                  vol := val.extractLsb' 0 4 }
  | 1 => { p with sweepReg := val }
  | 2 => { p with period := periodLow p.period val }
  | 3 => { p with period := periodHigh p.period val, length := loadLength p.enabled p.length val, pos := 0,
                  start := true }
  | _ => p

/-- The triangle's four registers (R386). -/
def Triangle.write (t : Triangle) (r : Nat) (val : Byte) : Triangle :=
  match r with
  | 0 => { t with halt := val.getLsbD 7, linReg := val.extractLsb' 0 7 }
  | 2 => { t with period := periodLow t.period val }
  | 3 => { t with period := periodHigh t.period val, length := loadLength t.enabled t.length val }
  | _ => t

/-- The noise channel's four registers (R387). -/
def Noise.write (n : Noise) (r : Nat) (val : Byte) : Noise :=
  match r with
  | 0 => { n with halt := val.getLsbD 5, constVol := val.getLsbD 4, vol := val.extractLsb' 0 4 }
  | 2 => { n with mode := val.getLsbD 7, idx := val.extractLsb' 0 4 }
  | 3 => { n with length := loadLength n.enabled n.length val, start := true }
  | _ => n

/-- The sample channel's four registers (R416). -/
def SampleChannel.write (c : SampleChannel) (r : Nat) (val : Byte) : SampleChannel :=
  match r with
  | 0 => { c with reg0 := val }
  | 1 => { c with reg1 := val, level := val.extractLsb' 0 7 }
  | 2 => { c with reg2 := val }
  | 3 => { c with reg3 := val }
  | _ => c

/-- ASTATUS write: the four enables; a disabled channel's length becomes 0 at once (R388). -/
def audioEnable (a : Audio) (val : Byte) : Audio :=
  { a with
    pulse0 := { a.pulse0 with enabled := val.getLsbD 0, length := if val.getLsbD 0 then a.pulse0.length else 0 }
    pulse1 := { a.pulse1 with enabled := val.getLsbD 1, length := if val.getLsbD 1 then a.pulse1.length else 0 }
    tri := { a.tri with enabled := val.getLsbD 2, length := if val.getLsbD 2 then a.tri.length else 0 }
    noise := { a.noise with enabled := val.getLsbD 3, length := if val.getLsbD 3 then a.noise.length else 0 } }

/-- ASTATUS read: which length counters are not 0, and bit 5 of the latch (R389). -/
def audioStatus (a : Audio) (latch : Byte) : Byte :=
  0#2 ++ BitVec.ofBool (latch.getLsbD 5) ++ 0#1 ++ BitVec.ofBool (a.noise.length != 0) ++
    BitVec.ofBool (a.tri.length != 0) ++ BitVec.ofBool (a.pulse1.length != 0) ++
    BitVec.ofBool (a.pulse0.length != 0)

/-- A write of 0x4017: the mode, the stored inhibit bit, the restart, and in 5-step mode both clocks at once (R390). -/
def sequencerWrite (a : Audio) (val : Byte) : Audio :=
  let a' := { a with fsMode := val.getLsbD 7, fsInhibit := val.getLsbD 6, fsCount := 0 }
  if val.getLsbD 7 then halfFrame (quarterFrame a') else a'

/-- A write to the audio register at 0x4000 + `k` (R382). -/
def audioWrite (a : Audio) (k : Nat) (val : Byte) : Audio :=
  if k < 4 then { a with pulse0 := a.pulse0.write k val }
  else if k < 8 then { a with pulse1 := a.pulse1.write (k - 4) val }
  else if k < 12 then { a with tri := a.tri.write (k - 8) val }
  else if k < 16 then { a with noise := a.noise.write (k - 12) val }
  else if k < 20 then { a with sample := a.sample.write (k - 16) val }
  else if k = 21 then audioEnable a val
  else if k = 23 then sequencerWrite a val
  else a

/-! ## Timers (R401 to R404) -/

/-- `TriangleTimer` (R401). -/
def Triangle.clock (t : Triangle) : Triangle :=
  if t.timer = 0 then { t with timer := t.period, pos := if t.length = 0 then t.pos else t.pos + 1 }
  else { t with timer := t.timer - 1 }

/-- The shift register moved once (R402). -/
def lfsrNext (lfsr : BitVec 15) (mode : Bool) : BitVec 15 :=
  BitVec.ofBool (lfsr.getLsbD 0 ^^ (if mode then lfsr.getLsbD 6 else lfsr.getLsbD 1)) ++ lfsr.extractLsb' 1 14

/-- `NoiseTimer` (R402). -/
def Noise.clock (n : Noise) : Noise :=
  if n.timer = 0 then { n with timer := BitVec.ofNat 12 (noisePeriod n.idx - 1), lfsr := lfsrNext n.lfsr n.mode }
  else { n with timer := n.timer - 1 }

/-- `PulseTimer` (R403). -/
def Pulse.clock (p : Pulse) : Pulse :=
  if p.timer = 0 then { p with timer := p.period, pos := p.pos + 1 } else { p with timer := p.timer - 1 }

/-- Whether the sequencer's count calls for `QuarterFrame` (R404). -/
def quarterAt (fsMode : Bool) (n : Nat) : Bool :=
  n == 7457 || n == 14913 || n == 22371 || (!fsMode && n == 29829) || (fsMode && n == 37281)

/-- Whether the sequencer's count calls for `HalfFrame` (R404). -/
def halfAt (fsMode : Bool) (n : Nat) : Bool :=
  n == 14913 || (!fsMode && n == 29829) || (fsMode && n == 37281)

/-- Whether the sequencer's count wraps (R404). -/
def wrapAt (fsMode : Bool) (n : Nat) : Bool := (!fsMode && n == 29830) || (fsMode && n == 37282)

/-- `FrameSequencer` (R404). -/
def frameSequencer (a : Audio) : Audio :=
  let n := a.fsCount + 1
  let q := if quarterAt a.fsMode n then quarterFrame a else a
  let h := if halfAt a.fsMode n then halfFrame q else q
  { h with fsCount := if wrapAt a.fsMode n then 0 else n }

/-! ## Outputs and samples (R410, R420, R421) -/

/-- `EnvOut` (R410). -/
def envOut (constVol : Bool) (vol decay : BitVec 4) : Nat := if constVol then vol.toNat else decay.toNat

/-- A pulse channel's output (R410). -/
def Pulse.out (p : Pulse) : Nat :=
  if p.length ≠ 0 ∧ dutyHigh p.duty p.pos = true then envOut p.constVol p.vol p.decay else 0

/-- The triangle's output (R410). -/
def Triangle.out (t : Triangle) : Nat := triSeq t.pos

/-- The noise channel's output (R410). -/
def Noise.out (n : Noise) : Nat :=
  if n.length ≠ 0 ∧ n.lfsr.getLsbD 0 = false then envOut n.constVol n.vol n.decay else 0

/-- The reference body of `Mix` (R420). -/
def mixReference (p0 p1 t n d : Nat) : Rat :=
  let pulseOut : Rat := if p0 + p1 = 0 then 0 else (9588 / 100) / (8128 / ((p0 + p1 : Nat) : Rat) + 100)
  let s : Rat := (t : Rat) / 8227 + (n : Rat) / 12241 + (d : Rat) / 22638
  let tndOut : Rat := if t + n + d = 0 then 0 else (15979 / 100) / (1 / s + 100)
  pulseOut + tndOut

/-- `Cfg.Mix` (R420): the reference body, or a free function; both are 0 on all-zero inputs. -/
def mix (m : Mixer) (p0 p1 t n d : Nat) : Rat :=
  match m with
  | .reference => mixReference p0 p1 t n d
  | .other => if p0 + p1 + t + n + d = 0 then 0 else Config.mixFree p0 p1 t n d

/-- The sample value of the channels as they stand (R421). -/
def sampleValue (m : Mixer) (a : Audio) : Rat :=
  mix m a.pulse0.out a.pulse1.out a.tri.out a.noise.out a.sample.level.toNat

/-- The stream after one more value; a bounded stream that is full drops it (R307, R421). -/
def appendSample (cap : Option Nat) (samplesRev : List Rat) (v : Rat) : List Rat :=
  match cap with
  | none => v :: samplesRev
  | some n => if samplesRev.length < n then v :: samplesRev else samplesRev

/-! ## The tick (R400) -/

/-- The channels and the sequencer, before the cycle counter moves (R400). -/
def channelTick (a : Audio) : Audio :=
  let odd := a.apuCycle % 2 = 1
  frameSequencer { a with
    tri := a.tri.clock
    noise := a.noise.clock
    pulse0 := if odd then a.pulse0.clock else a.pulse0
    pulse1 := if odd then a.pulse1.clock else a.pulse1 }

/-- `AudioTick` (R400). -/
def audioTick (cfg : Cfg) (a : Audio) : Audio :=
  let b := channelTick a
  { b with
    apuCycle := b.apuCycle + 1
    samplesRev :=
      if (b.apuCycle + 1) % cfg.sampleDiv = 0 then
        appendSample cfg.sampleCap b.samplesRev (sampleValue cfg.mixer b)
      else b.samplesRev }

/-- `n` audio ticks (R300). -/
def audioTicks (cfg : Cfg) : Nat → Audio → Audio
  | 0, a => a
  | n + 1, a => audioTicks cfg n (audioTick cfg a)

end Sys2Proof.Machine
end

