-- ==== Sys2Proof/Machine/Flags.lean ====
section
/-! DEFINITION. Every flag computation (`10_state.md` R24, R25; `42_logic_arith.md` R174; `43_incdec_shift.md`) and the
8-bit results they come with. -/

namespace Sys2Proof.Machine

/-- `SetNZ(v)` on the flags (R8). -/
def Flags.setNZ (f : Flags) (v : Byte) : Flags := { f with z := v == 0, n := v.msb }

/-- `SetNZ(v)` (R8). -/
def State.setNZ (s : State) (v : Byte) : State := s.setFlags (s.cpu.flags.setNZ v)

/-- `PackP(b)`: bits 7..0 are N V 1 b D I Z C (R8, R25). -/
def packP (f : Flags) (b : Bool) : Byte :=
  BitVec.ofBool f.n ++ BitVec.ofBool f.v ++ 1#1 ++ BitVec.ofBool b ++ BitVec.ofBool f.d ++ BitVec.ofBool f.i ++
    BitVec.ofBool f.z ++ BitVec.ofBool f.c

/-- `UnpackP(v)`: bits 7, 6, 3, 2, 1, 0; bits 5 and 4 are dropped (R8, R25). -/
def unpackP (v : Byte) : Flags :=
  { c := v.getLsbD 0, z := v.getLsbD 1, i := v.getLsbD 2, d := v.getLsbD 3, v := v.getLsbD 6, n := v.getLsbD 7 }

/-- `A + M + C` as a natural number, 0..511 (R169). -/
def addSum (a m : Byte) (c : Bool) : Nat := a.toNat + m.toNat + c.toNat

/-- The 8-bit result `s mod 256` (R169). -/
def addValue (a m : Byte) (c : Bool) : Byte := BitVec.ofNat 8 (addSum a m c)

/-- The flags after ADC: `C` from `s > 255`, `V` from `(A ^ r) & (M ^ r) & 0x80`, `Z` and `N` from `r` (R169, R174). -/
def addFlags (f : Flags) (a m : Byte) : Flags :=
  let r := addValue a m f.c
  { (f.setNZ r) with
    c := decide (addSum a m f.c > 255)
    v := ((a ^^^ r) &&& (m ^^^ r) &&& 0x80) != 0 }

/-- The flags after a compare of register `r` with `m`: `C` is `r >= m` unsigned, `Z` and `N` from `(r - m) mod 256`
(R171, R174). -/
def compareFlags (f : Flags) (r m : Byte) : Flags :=
  { (f.setNZ (r - m)) with c := decide (m.toNat ≤ r.toNat) }

/-- The flags after BIT: `Z` from `A & M`, `N` and `V` from bits 7 and 6 of `M` (R168). -/
def bitFlags (f : Flags) (a m : Byte) : Flags :=
  { f with z := (a &&& m) == 0, n := m.getLsbD 7, v := m.getLsbD 6 }

/-- A one-byte result with the flags it leaves. -/
structure Result where
  value : Byte
  flags : Flags
deriving DecidableEq, Repr

/-- INC, INX, INY: `(v + 1) mod 256`, `Z` and `N` (R181 to R183). -/
def incr (v : Byte) (f : Flags) : Result := { value := v + 1, flags := f.setNZ (v + 1) }

/-- DEC, DEX, DEY: `(v - 1) mod 256`, `Z` and `N` (R184 to R186). -/
def decr (v : Byte) (f : Flags) : Result := { value := v - 1, flags := f.setNZ (v - 1) }

/-- ASL: bit 7 to `C`, 0 into bit 0 (R187). -/
def shiftLeft (v : Byte) (f : Flags) : Result :=
  let r := v <<< 1
  { value := r, flags := { (f.setNZ r) with c := v.getLsbD 7 } }

/-- LSR: bit 0 to `C`, 0 into bit 7 (R188). -/
def shiftRight (v : Byte) (f : Flags) : Result :=
  let r := v >>> 1
  { value := r, flags := { (f.setNZ r) with c := v.getLsbD 0 } }

/-- ROL: bit 7 to `C`, the old `C` into bit 0 (R189). -/
def rotateLeft (v : Byte) (f : Flags) : Result :=
  let r : Byte := v.extractLsb' 0 7 ++ BitVec.ofBool f.c
  { value := r, flags := { (f.setNZ r) with c := v.getLsbD 7 } }

/-- ROR: bit 0 to `C`, the old `C` into bit 7 (R190). -/
def rotateRight (v : Byte) (f : Flags) : Result :=
  let r : Byte := BitVec.ofBool f.c ++ v.extractLsb' 1 7
  { value := r, flags := { (f.setNZ r) with c := v.getLsbD 0 } }

end Sys2Proof.Machine
end

