-- ==== Sys2Proof/Machine/Video.lean ====
section
/-! DEFINITION. The video unit (`62_video_unit.md`): its memory map, the effect of its eight registers on its own state,
the renderer, and the tick of the (scanline, dot) state machine. -/

namespace Sys2Proof.Machine

/-! ## Video memory (R332 to R334) -/

/-- Pattern memory is a cartridge's CHR or RAM (R37, R42). -/
def chrSpace (cart : Cart) : Space := if cart.chrWritable then .chrRam else .chrRom

/-- `chr[a]` (R332, R349). -/
def chrByte (cart : Cart) (u : Video) (a : Nat) : Byte := readCell (chrSpace cart) u.chr a

/-- `oam[k]` (R36). -/
def oamByte (u : Video) (k : Nat) : Byte := readCell .oam u.oam k

/-- `pal[k]` (R37). -/
def palByte (u : Video) (k : Nat) : Byte := readCell .palette u.pal k

/-- `NtIndex(a)` (R333). -/
def ntIndex (m : Mirroring) (a : Nat) : Nat :=
  let o := a % 4096
  let table := o / 1024
  let phys := match m with
    | .horizontal => table / 2
    | .vertical => table % 2
  phys * 1024 + o % 1024

/-- `PalIndex(a)`: the backdrop entries of the sprite palettes are those of the background palettes (R334). -/
def palIndex (a : Nat) : Nat :=
  let i := a % 32
  if i = 0x10 ∨ i = 0x14 ∨ i = 0x18 ∨ i = 0x1C then i - 0x10 else i

/-- `VideoMemRead(a)`, the address reduced mod 16384 (R332). -/
def videoMemRead (cart : Cart) (u : Video) (addr : Nat) : Byte :=
  let a := addr % 16384
  if a < 0x2000 then chrByte cart u a
  else if a < 0x3F00 then readCell .nameTable u.nt (ntIndex cart.mirroring a)
  else palByte u (palIndex a)

/-- `VideoMemWrite(a, val)`, the address reduced mod 16384 (R332). -/
def videoMemWrite (cart : Cart) (u : Video) (addr : Nat) (val : Byte) : Video :=
  let a := addr % 16384
  if a < 0x2000 then
    if cart.chrWritable then { u with chr := writeCell (chrSpace cart) u.chr a val } else u
  else if a < 0x3F00 then { u with nt := writeCell .nameTable u.nt (ntIndex cart.mirroring a) val }
  else { u with pal := writeCell .palette u.pal (palIndex a) (val &&& 0x3F) }

/-! ## The registers' own effects (R322 to R331) -/

/-- The value of VSTATUS: `vbl`, `s0`, `ovf`, and bits 4..0 of the latch (R327). -/
def vstatus (u : Video) (latch : Byte) : Byte :=
  BitVec.ofBool u.vbl ++ BitVec.ofBool u.s0 ++ BitVec.ofBool u.ovf ++ latch.extractLsb' 0 5

/-- What a read of VSTATUS does to the unit (R327). -/
def statusRead (u : Video) : Video := { u with vbl := false, w := false }

/-- `OamStore(val)` (R326). -/
def oamStore (u : Video) (val : Byte) : Video :=
  { u with
    oam := writeCell .oam u.oam u.oamAddr.toNat (if u.oamAddr.toNat % 4 = 2 then val &&& 0xE3 else val)
    oamAddr := u.oamAddr + 1 }

/-- VSCROLL, two writes (R328). -/
def scrollWrite (u : Video) (val : Byte) : Video :=
  if u.w then { u with scrollY := val, w := false } else { u with scrollX := val, w := true }

/-- VADDR, two writes: the high six bits, then the low eight, which load `v` (R329). -/
def addrWrite (u : Video) (val : Byte) : Video :=
  if u.w then
    let t : BitVec 14 := u.tAddr.extractLsb' 8 6 ++ val
    { u with tAddr := t, v := t, w := false }
  else { u with tAddr := val.extractLsb' 0 6 ++ u.tAddr.extractLsb' 0 8, w := true }

/-- The step of `v` after an access through VDATA: 32 when `ctrl[2] = 1`, else 1, modulo 16384 (R330, R331). -/
def advanceV (u : Video) : Video := { u with v := u.v + (if u.ctrl.getLsbD 2 then 32 else 1) }

/-- The value a read of VDATA returns (R330). -/
def dataReadValue (u : Video) (latch : Byte) : Byte :=
  if u.v.toNat < 0x3F00 then u.rbuf else (latch &&& 0xC0) ||| palByte u (palIndex u.v.toNat)

/-- What a read of VDATA does to the unit (R330). -/
def dataRead (cart : Cart) (u : Video) : Video :=
  advanceV { u with
    rbuf := videoMemRead cart u (if u.v.toNat < 0x3F00 then u.v.toNat else (u.v - 0x1000).toNat) }

/-- A write of VDATA (R331). -/
def dataWrite (cart : Cart) (u : Video) (val : Byte) : Video := advanceV (videoMemWrite cart u u.v.toNat val)

/-- `VideoRegWrite(r, val)` on the unit (R321); register 2 is read-only (R324). -/
def videoRegWrite (cart : Cart) (u : Video) (r : Nat) (val : Byte) : Video :=
  match r with
  | 0 => { u with ctrl := val }
  | 1 => { u with mask := val }
  | 3 => { u with oamAddr := val }
  | 4 => oamStore u val
  | 5 => scrollWrite u val
  | 6 => addrWrite u val
  | 7 => dataWrite cart u val
  | _ => u

/-! ## The pixel (R346 to R357) -/

/-- A bit of a register as 0 or 1. -/
def bitOf (b : Byte) (k : Nat) : Nat := (b.getLsbD k).toNat

/-- `rendering`: background or sprites shown (R323). -/
def rendering (u : Video) : Bool := u.mask.getLsbD 3 || u.mask.getLsbD 4

/-- `PatternBit(base, fx)` (R349). -/
def patternBit (cart : Cart) (u : Video) (base fx : Nat) : Nat :=
  2 * bitOf (chrByte cart u (base + 8)) (7 - fx) + bitOf (chrByte cart u base) (7 - fx)

/-- A background pixel: its value 0..3 (0 is transparent) and its palette. -/
structure BgPixel where
  value   : Nat
  palette : Nat
deriving DecidableEq, Repr

/-- `BgPixel(x, y)` (R347, R348). -/
def bgPixel (cart : Cart) (u : Video) (x y : Nat) : BgPixel :=
  if !u.mask.getLsbD 3 || (decide (x < 8) && !u.mask.getLsbD 1) then { value := 0, palette := 0 }
  else
    let px := (256 * bitOf u.ctrl 0 + u.scrollX.toNat + x) % 512
    let py := (240 * bitOf u.ctrl 1 + u.scrollY.toNat + y) % 480
    let n := px / 256 + 2 * (py / 240)
    let col := px % 256 / 8
    let row := py % 240 / 8
    let tile := videoMemRead cart u (0x2000 + 1024 * n + 32 * row + col)
    let attr := videoMemRead cart u (0x23C0 + 1024 * n + 8 * (row / 4) + col / 4)
    let shift := 4 * (row / 2 % 2) + 2 * (col / 2 % 2)
    { value := patternBit cart u (4096 * bitOf u.ctrl 4 + 16 * tile.toNat + py % 8) (px % 8)
      palette := attr.toNat / 2 ^ shift % 4 }

/-- The sprite height `h` (R350). -/
def spriteHeight (u : Video) : Nat := if u.ctrl.getLsbD 5 then 16 else 8

/-- `SpritesOnLine(y)`: the entries in range of a scanline, in increasing index (R351). -/
def spritesOnLine (u : Video) (y : Nat) : List Nat :=
  (List.range 64).filter fun i =>
    decide ((oamByte u (4 * i)).toNat + 1 ≤ y) && decide (y < (oamByte u (4 * i)).toNat + 1 + spriteHeight u)

/-- `SpritePixel(i, x, y)`: 0 where the sprite does not cover the pixel or is transparent (R352). -/
def spritePixel (cart : Cart) (u : Video) (i x y : Nat) : Nat :=
  let h := spriteHeight u
  let top := (oamByte u (4 * i)).toNat + 1
  let left := (oamByte u (4 * i + 3)).toNat
  let attr := oamByte u (4 * i + 2)
  let t := (oamByte u (4 * i + 1)).toNat
  if top ≤ y ∧ y < top + h ∧ left ≤ x ∧ x < left + 8 then
    let row := if attr.getLsbD 7 then h - 1 - (y - top) else y - top
    let col := if attr.getLsbD 6 then 7 - (x - left) else x - left
    let base :=
      if h = 8 then 4096 * bitOf u.ctrl 3 + 16 * t + row
      else 4096 * (t % 2) + 16 * (t / 2 * 2 + (if 8 ≤ row then 1 else 0)) + row % 8
    patternBit cart u base col
  else 0

/-- The sprites drawn at a pixel: the first eight of the line, where sprites are shown (R346). -/
def drawnSprites (u : Video) (x y : Nat) : List Nat :=
  if u.mask.getLsbD 4 && !(decide (x < 8) && !u.mask.getLsbD 2) then (spritesOnLine u y).take 8 else []

/-- Sprite-zero hit at a pixel (R346, R356). -/
def spriteZeroHit (cart : Cart) (u : Video) (x y : Nat) : Bool :=
  (drawnSprites u x y).any fun i =>
    i == 0 && spritePixel cart u i x y != 0 && (bgPixel cart u x y).value != 0 && x != 255

/-- The sprite that supplies the pixel: the first drawn one whose pixel is not transparent (R353). -/
def winningSprite (cart : Cart) (u : Video) (x y : Nat) : Option Nat :=
  (drawnSprites u x y).find? fun i => spritePixel cart u i x y != 0

/-- The colour index of a pixel before the grey mask (R346, R354). -/
def pixelColour (cart : Cart) (u : Video) (x y : Nat) : Byte :=
  let bg := bgPixel cart u x y
  match winningSprite cart u x y with
  | none => if bg.value = 0 then palByte u 0 else palByte u (4 * bg.palette + bg.value)
  | some i =>
    let attr := oamByte u (4 * i + 2)
    if bg.value = 0 ∨ attr.getLsbD 5 = false then
      palByte u (0x10 + 4 * (attr.toNat % 4) + spritePixel cart u i x y)
    else palByte u (4 * bg.palette + bg.value)

/-- `RenderPixel(x, y)` (R346, R355). -/
def renderPixel (cart : Cart) (u : Video) (x y : Nat) : Video :=
  let c := pixelColour cart u x y
  { u with
    s0 := u.s0 || spriteZeroHit cart u x y
    fb := writePixel u.fb x y (if u.mask.getLsbD 0 then c &&& 0x30 else c) }

/-- `SpriteOverflowCheck(y)` (R357). -/
def spriteOverflowCheck (u : Video) (y : Nat) : Video :=
  { u with ovf := u.ovf || decide (8 < (spritesOnLine u y).length) }

/-! ## The tick (R340 to R344) -/

/-- `phase(scanline)`: the four states of R31 and R341. -/
inductive Phase where
  | visible | postRender | verticalBlank | preRender
deriving DecidableEq, Repr

/-- `phase(scanline)` (R31). -/
def phase (scanline : Nat) : Phase :=
  if scanline < Config.postLine then .visible
  else if scanline = Config.postLine then .postRender
  else if scanline < Config.preLine then .verticalBlank
  else .preRender

/-- The unit and the interrupt line, which is all a tick can change. -/
structure TickState where
  unit : Video
  line : Bool
deriving DecidableEq, Repr

/-- What the tick does at the current position, before the position moves (R340, R342 to R344, R357). -/
def tickEvent (cfg : Cfg) (cart : Cart) (t : TickState) : TickState :=
  let u := t.unit
  let s := u.scanline
  let d := u.dot
  if s < Config.postLine then
    if 1 ≤ d ∧ d ≤ 256 then { t with unit := renderPixel cart u (d - 1) s }
    else if d = 257 ∧ rendering u = true then { t with unit := spriteOverflowCheck u s }
    else t
  else if s = Config.postLine then
    if d = 0 then { t with unit := { u with frameOut := some u.fb, frameCount := u.frameCount + 1 } } else t
  else if s = Config.vblLine ∧ d = cfg.vblDot then
    { unit := { u with vbl := true }, line := t.line || u.ctrl.getLsbD 7 }
  else if s = Config.preLine ∧ d = cfg.vblDot then
    { t with unit := { u with vbl := false, s0 := false, ovf := false } }
  else t

/-- The position moves on by one dot (R340). -/
def advanceDot (u : Video) : Video :=
  if u.dot + 1 = Config.dotsPerLine then
    { u with dot := 0, scanline := if u.scanline + 1 = Config.linesPerFrame then 0 else u.scanline + 1 }
  else { u with dot := u.dot + 1 }

/-- `VideoTick` (R340). -/
def videoTick (cfg : Cfg) (cart : Cart) (t : TickState) : TickState :=
  let t' := tickEvent cfg cart t
  { t' with unit := advanceDot t'.unit }

/-- `n` video ticks (R300). -/
def videoTicks (cfg : Cfg) (cart : Cart) : Nat → TickState → TickState
  | 0, t => t
  | n + 1, t => videoTicks cfg cart n (videoTick cfg cart t)

end Sys2Proof.Machine
end

