-- ==== Sys2Proof/Machine/Ops.lean ====
section
/-! DEFINITION. The operations every rule is written over: the bus (`20_memory.md`), the mapper, the sprite-table transfer
and the controller ports (`64_mapper_io.md`), the stack, taking an exception and returning from one
(`60_exceptions.md` R271, R273; `45_flags_system.md` R225, R226), the fetch (`30_encoding.md` R100), the units' ticks and
the host's calls (`61_scheduler.md`), and construction (R309). -/

namespace Sys2Proof.Machine

/-- What a bus read gives: the byte and the state it leaves. -/
structure Access where
  value : Byte
  state : State
deriving DecidableEq, Repr

/-! ## Regions and storage (R61, R64, R68) -/

/-- The five regions of the CPU address space (R61). -/
inductive Region where
  | ram | video | io | unmapped | cartridge
deriving DecidableEq, Repr

/-- The region of an address: every address is in exactly one (R61). -/
def region (a : Word) : Region :=
  if a.toNat ≤ 0x1FFF then .ram
  else if a.toNat ≤ 0x3FFF then .video
  else if a.toNat ≤ 0x4017 then .io
  else if a.toNat ≤ 0x401F then .unmapped
  else .cartridge

/-- The cell of `State.mem` behind a cartridge-space address, `none` where nothing is mapped (R442). -/
def cartCell (s : State) (a : Word) : Option Nat :=
  if 0x8000 ≤ a.toNat then some (prgCell s.cart.prgSize a)
  else if 0x6000 ≤ a.toNat ∧ s.cfg.prgRam = true then some a.toNat
  else none

/-- The cell of `State.mem` behind a CPU address, `none` for registers and open bus (R61, R64, R442). -/
def storageCell (s : State) (a : Word) : Option Nat :=
  match region a with
  | .ram => some (ramCell a)
  | .cartridge => cartCell s a
  | .video => none
  | .io => none
  | .unmapped => none

/-- The byte stored at a CPU address, without a bus access; `none` where the address has no storage. -/
def storedByte (s : State) (a : Word) : Option Byte :=
  match storageCell s a with
  | some k => some (readCell .cpu s.mem k)
  | none => none

/-! ## Unit registers on the bus -/

/-- `VideoRegRead(r)` (R321). -/
def videoRegRead (r : Nat) (s : State) : Access :=
  match r with
  | 2 => { value := vstatus s.video s.bus.latch, state := (s.setVideo (statusRead s.video)).setIntLine false }
  | 4 => { value := oamByte s.video s.video.oamAddr.toNat, state := s }
  | 7 => { value := dataReadValue s.video s.bus.latch, state := s.setVideo (dataRead s.cart s.video) }
  | _ => { value := s.bus.latch, state := s }

/-- One bit out of a controller port: live while the strobe is 1, else shifted out (R451). -/
def padRead (strobe : Bool) (pad shift : Byte) : Byte × Byte :=
  if strobe then (pad &&& 1, shift) else (shift &&& 1, 1#1 ++ shift.extractLsb' 1 7)

/-- `IoRead(a)` (R66, R389, R451). -/
def ioRead (a : Word) (s : State) : Access :=
  let p := s.input
  if a = 0x4015 then { value := audioStatus s.audio s.bus.latch, state := s }
  else if a = 0x4016 then
    let r := padRead p.strobe p.pad0 p.shift0
    { value := (s.bus.latch &&& 0xE0) ||| r.1, state := s.setInput { p with shift0 := r.2 } }
  else if a = 0x4017 then
    let r := padRead p.strobe p.pad1 p.shift1
    { value := (s.bus.latch &&& 0xE0) ||| r.1, state := s.setInput { p with shift1 := r.2 } }
  else { value := s.bus.latch, state := s }

/-- `MapperCpuRead(a)` (R442). -/
def mapperRead (a : Word) (s : State) : Access :=
  match cartCell s a with
  | some k => { value := readCell .cpu s.mem k, state := s }
  | none => { value := s.bus.latch, state := s }

/-- The region's part of a bus read, before the latch takes the value (R62). -/
def regionRead (a : Word) (s : State) : Access :=
  match region a with
  | .ram => { value := readCell .cpu s.mem (ramCell a), state := s }
  | .video => videoRegRead (a.toNat % 8) s
  | .io => ioRead a s
  | .unmapped => { value := s.bus.latch, state := s }
  | .cartridge => mapperRead a s

/-- `BusRead(a)` (R62, R72): the latch takes the value returned. -/
def busRead (a : Word) (s : State) : Access :=
  let r := regionRead a s
  { value := r.value, state := r.state.setLatch r.value }

/-- The transfer's loop: `n` bytes from an address on, each read on the bus and stored by `OamStore` (R446). -/
def oamCopy : Nat → Word → State → State
  | 0, _, s => s
  | n + 1, a, s =>
    let r := busRead a s
    oamCopy n (a + 1) (r.state.setVideo (oamStore r.state.video r.value))

/-- The sprite-table transfer of a page (R446); its cost is `dmaCycles`. -/
def oamDma (page : Byte) (s : State) : State := oamCopy 256 (mkWord page 0) s

/-- A write of the strobe (R450). -/
def strobeWrite (p : Input) (val : Byte) : Input :=
  if val.getLsbD 0 then { p with strobe := true, shift0 := p.pad0, shift1 := p.pad1 } else { p with strobe := false }

/-- `IoWrite(a, val)` (R66). -/
def ioWrite (a : Word) (val : Byte) (s : State) : State :=
  if a = 0x4014 then oamDma val s
  else if a = 0x4016 then s.setInput (strobeWrite s.input val)
  else s.setAudio (audioWrite s.audio (a - 0x4000).toNat val)

/-- `MapperCpuWrite(a, val)`: only cartridge RAM takes it (R443). -/
def mapperWrite (a : Word) (val : Byte) (s : State) : State :=
  if 0x8000 ≤ a.toNat then s
  else if 0x6000 ≤ a.toNat ∧ s.cfg.prgRam = true then s.setMem (writeCell .cpu s.mem a.toNat val)
  else s

/-- The region's part of a bus write (R63). -/
def regionWrite (a : Word) (val : Byte) (s : State) : State :=
  match region a with
  | .ram => s.setMem (writeCell .cpu s.mem (ramCell a) val)
  | .video => s.setVideo (videoRegWrite s.cart s.video (a.toNat % 8) val)
  | .io => ioWrite a val s
  | .unmapped => s
  | .cartridge => mapperWrite a val s

/-- `BusWrite(a, val)`: the latch takes the value before the region acts (R63, R72). -/
def busWrite (a : Word) (val : Byte) (s : State) : State := regionWrite a val (s.setLatch val)

/-- The cycles a write adds to its instruction's own `base`: 513 plus parity for the transfer register, else 0
(R447; `cyc` is the value at the start of the step). -/
def dmaCycles (a : Word) (base : Nat) (s : State) : Nat :=
  if a = 0x4014 ∧ s.cfg.oamDmaCharged = true then 513 + (s.cpu.cyc + base) % 2 else 0

/-! ## Words and the stack (R8, R22) -/

/-- A little-endian Word from two addresses, low byte first (R8, R76). -/
structure WordAccess where
  value : Word
  state : State
deriving DecidableEq, Repr

/-- Read the low byte at one address and then the high byte at another. -/
def readPair (lo hi : Word) (s : State) : WordAccess :=
  let l := busRead lo s
  let h := busRead hi l.state
  { value := mkWord h.value l.value, state := h.state }

/-- `Read16(a)` (R8). -/
def read16 (a : Word) (s : State) : WordAccess := readPair a (a + 1) s

/-- `Read16zp(z)`: both bytes from the zero page (R8, R107). -/
def read16zp (z : Byte) (s : State) : WordAccess := readPair (zext16 z) (zext16 (z + 1)) s

/-- The address of the stack cell `SP` names (R22). -/
def stackAddr (sp : Byte) : Word := Config.stackPage + zext16 sp

/-- `Push(v)` (R8, R150). -/
def push (v : Byte) (s : State) : State :=
  (busWrite (stackAddr s.cpu.sp) v s).setSp (s.cpu.sp - 1)

/-- Push a Word, high byte first (R76, R209). -/
def pushWord (w : Word) (s : State) : State := push (loByte w) (push (hiByte w) s)

/-- `Pull()` (R8, R150). -/
def pull (s : State) : Access :=
  busRead (stackAddr (s.cpu.sp + 1)) (s.setSp (s.cpu.sp + 1))

/-- Pull a Word, low byte first (R209). -/
def pullWord (s : State) : WordAccess :=
  let l := pull s
  let h := pull l.state
  { value := mkWord h.value l.value, state := h.state }

/-! ## Exceptions (R225, R226, R271, R273, R274) -/

/-- TAKING AN EXCEPTION, the sequence interrupt entry (R271) and BRK (R225) share: the return address is pushed high byte
first, then the packed flags with bit 4 = `brk`; `I` becomes 1, the interrupt line is cleared if the entry
acknowledges it, and `PC` is read from the vector. -/
def takeException (vector ret : Word) (brk ack : Bool) (s : State) : State :=
  let s1 := pushWord ret s
  let s2 := push (packP s1.cpu.flags brk) s1
  let s3 := s2.setFlags { s2.cpu.flags with i := true }
  let s4 := if ack then s3.setIntLine false else s3
  let r := read16 vector s4
  r.state.setPc r.value

/-- `InterruptEntry` (R271). -/
def interruptEntry (s : State) : State :=
  (takeException Config.intVector s.cpu.pc false true s).addCycles Config.intCycles

/-- RETURNING FROM AN EXCEPTION: the flags, then the return address low byte first (R226, R274). -/
def returnFromException (s : State) : State :=
  let p := pull s
  let r := pullWord (p.state.setFlags (unpackP p.value))
  r.state.setPc r.value

/-- The interrupt test of the CPU step (R270): `int_line and (I = 0 or not Cfg.INT_MASKABLE)`. -/
def interruptTaken (s : State) : Bool := (!s.cpu.flags.i || !s.cfg.intMaskable) && s.bus.intLine

/-! ## The fetch (R100) -/

/-- `n` bytes read on the bus at rising addresses. -/
structure BytesAccess where
  bytes : List Byte
  state : State
deriving DecidableEq, Repr

/-- Read `n` bytes on the bus from an address on; the address wraps modulo 65536 (R23). -/
def readBytes : Nat → Word → State → BytesAccess
  | 0, _, s => { bytes := [], state := s }
  | n + 1, a, s =>
    let r := busRead a s
    let t := readBytes n (a + 1) r.state
    { bytes := r.value :: t.bytes, state := t.state }

/-- What the fetch gives: an instruction, or an illegal opcode byte, with the state the reads leave. -/
inductive Fetched where
  | instr (i : Instr) (s : State)
  | illegal (op : Byte) (s : State)
deriving DecidableEq, Repr

/-- The fetch (R100): the opcode byte at `PC`; where it is an opcode, its operand bytes at the addresses after it. An
illegal opcode reads no operand byte (R261). `PC` does not move here. -/
def fetch (s : State) : Fetched :=
  let op := busRead s.cpu.pc s
  match opcodeShape op.value with
  | none => .illegal op.value op.state
  | some sh =>
    let r := readBytes (sh.length - 1) (s.cpu.pc + 1) op.state
    match decode (op.value :: r.bytes) with
    | .ok i _ => .instr i r.state
    | .reject _ => .illegal op.value r.state

/-- `raise DecodeError(op, pc0)`: the fault record is written, `PC` still holds `pc0` (R261). -/
def raiseDecodeError (op : Byte) (s : State) : State := s.setFault (some { opcode := op, address := s.cpu.pc })

/-! ## The units' ticks and the host (R300, R305, R307) -/

/-- What follows a CPU step of `c` cycles: `3c` video ticks, then `c` audio ticks (R300). -/
def tickUnits (c : Nat) (s : State) : State :=
  let t := videoTicks s.cfg s.cart (Config.ppuPerCpu * c) { unit := s.video, line := s.bus.intLine }
  ((s.setVideo t.unit).setIntLine t.line).setAudio (audioTicks s.cfg (Config.apuPerCpu * c) s.audio)

/-- `set_buttons(port, state)` (R305). -/
def setButtons (port : Port) (buttons : Byte) (s : State) : State :=
  match port with
  | .p0 => s.setInput { s.input with pad0 := buttons }
  | .p1 => s.setInput { s.input with pad1 := buttons }

/-- The host takes the oldest `n` samples (R307). -/
def takeSamples (n : Nat) (s : State) : State :=
  s.setAudio { s.audio with samplesRev := s.audio.samplesRev.take (s.audio.samplesRev.length - n) }

/-- One host call (R305, R307). -/
def hostCall (c : HostCall) (s : State) : State :=
  match c with
  | .setButtons port buttons => setButtons port buttons s
  | .takeSamples n => takeSamples n s

/-- The host's calls of one step boundary, in order (R305). -/
def hostCallsOf : List HostCall → State → State
  | [], s => s
  | c :: rest, s => hostCallsOf rest (hostCall c s)

/-- The host's calls at this step boundary, taken off the input sequence (R305); with no sequence left the host calls
nothing. -/
def takeHostCalls (s : State) : State :=
  match s.hostCalls with
  | [] => s
  | calls :: rest => hostCallsOf calls { s with hostCalls := rest }

/-! ## Construction (R309, R470) -/

/-- What construction gives (R309). -/
inductive Constructed where
  | machine (s : State)
  | error (e : MapperConfigError)
deriving DecidableEq, Repr

/-- The mirroring of an accepted cartridge (R440). -/
def mirroringOf : HeaderMirroring → Mirroring
  | .horizontal => .horizontal
  | .vertical => .vertical
  | .fourScreen => .horizontal

/-- `construct(cart, launch)`: the mapper's test, then power-on with the cartridge's bytes and the launch contents
(R309, R263, R440, R470). -/
def construct (cfg : Cfg) (cart : Cartridge) (launch : Launch) : Constructed :=
  match cart.check with
  | some e => .error e
  | none =>
    let writable := decide (cart.chr.length = 0)
    let fixed : Cart :=
      { prgSize := if cart.prg.length = 16384 then .k16 else .k32, mirroring := mirroringOf cart.mirroring,
        chrWritable := writable }
    .machine (powerOn cfg fixed
      (cellsFrom .cpu 0 (launch.ram0.take Config.ramSize) ++
        cellsFrom .cpu 0x6000 (if cfg.prgRam then launch.prgRam0.take 8192 else []) ++ cellsFrom .cpu 0x8000 cart.prg)
      (cellsFrom .oam 0 (launch.oam0.take 256))
      (cellsFrom .nameTable 0 (launch.nt0.take 2048))
      (cellsFrom .palette 0 ((launch.pal0.take 32).map fun c => c &&& 0x3F))
      (cellsFrom (chrSpace fixed) 0 (if writable then launch.chr0.take 8192 else cart.chr)))

/-! ## Placing an instruction for a test (no rule of the spec) -/

/-- Store a byte in the storage behind an address, cartridge storage too, without a bus access: what loading a
program from outside does. -/
def placeByte (a : Word) (b : Byte) (s : State) : State :=
  match storageCell s a with
  | some k => s.setMem (writeCell .cpu s.mem k b)
  | none => s

/-- Store bytes from an address on. -/
def placeBytes : List Byte → Word → State → State
  | [], _, s => s
  | b :: rest, a, s => placeBytes rest (a + 1) (placeByte a b s)

/-- The longest instruction fits in storage at an address. -/
def fetchable (s : State) (a : Word) : Bool :=
  (storageCell s a).isSome && (storageCell s (a + 1)).isSome && (storageCell s (a + 2)).isSome

/-- The machine made ready to fetch an instruction from storage in its next step: not faulted, no interrupt entry due,
`PC` in storage (where it is not, 0x0000 in RAM). -/
def readyToFetch (s : State) : State :=
  let s1 := if interruptTaken s then s.setIntLine false else s
  (s1.setFault none).setPc (if fetchable s s.cpu.pc then s.cpu.pc else 0)

end Sys2Proof.Machine
end

