-- ==== Sys2Proof/Machine/Operands.lean ====
section
/-! DEFINITION. Every operand form (`30_encoding.md` R102 to R109), the cycle table (R110, R113), and the shapes the
instruction rules share: a read instruction, a store, a read-modify-write on memory, a one-byte instruction, a branch. In all of them
the state handed in has `PC` at the instruction's opcode byte, after its bytes have been fetched (R100). -/

namespace Sys2Proof.Machine

/-- `PC <- (pc0 + n) mod 65536` (R100). -/
def movePc (n : Nat) (s : State) : State := s.setPc (s.cpu.pc + BitVec.ofNat 16 n)

/-! ## Effective addresses (R103 to R108) -/

/-- An effective address, whether indexing left the base's page, and the state the pointer reads leave. -/
structure Resolved where
  ea      : Word
  crossed : Bool
  state   : State
deriving DecidableEq, Repr

/-- Bits 15..8 differ: "another page" (R105, R200). -/
def pageDiffers (a b : Word) : Bool := hiByte a != hiByte b

/-- An indexed address and its `crossed` flag (R105, R108). -/
def indexed (base : Word) (index : Byte) (s : State) : Resolved :=
  let ea := base + zext16 index
  { ea := ea, crossed := pageDiffers ea base, state := s }

/-- Resolve a memory mode (R103 to R108). -/
def resolve (m : MemMode) (s : State) : Resolved :=
  match m with
  | .zp b => { ea := zext16 b, crossed := false, state := s }
  | .zpx b => { ea := zext16 (b + s.cpu.x), crossed := false, state := s }
  | .zpy b => { ea := zext16 (b + s.cpu.y), crossed := false, state := s }
  | .abs w => { ea := w, crossed := false, state := s }
  | .abx w => indexed w s.cpu.x s
  | .aby w => indexed w s.cpu.y s
  | .izx b =>
    let p := read16zp (b + s.cpu.x) s
    { ea := p.value, crossed := false, state := p.state }
  | .izy b =>
    let p := read16zp b s
    indexed p.value s.cpu.y p.state

/-- The pointer of `JMP (ind)`: the high byte comes from the same page (R106). -/
def resolveIndirect (ptr : Word) (s : State) : WordAccess :=
  readPair ptr (mkWord (hiByte ptr) (loByte ptr + 1)) s

/-- The operand byte of a read instruction, its `crossed` flag, and the state the accesses leave (R103, R164). -/
structure Fetch where
  value   : Byte
  crossed : Bool
  state   : State
deriving DecidableEq, Repr

/-- `M <- (b1 if imm else BusRead(ea))` (R141, R164). -/
def readSource (src : Source) (s : State) : Fetch :=
  match src with
  | .imm b => { value := b, crossed := false, state := s }
  | .mem m =>
    let r := resolve m s
    let d := busRead r.ea r.state
    { value := d.value, crossed := r.crossed, state := d.state }

/-! ## Lengths and base costs (R113) -/

/-- The length of a read instruction (R113). -/
def Source.bytes (src : Source) : Nat :=
  match src with
  | .imm _ => 2
  | .mem m => m.length

/-- The base cost of the read class (R113). -/
def readCycles (src : Source) : Nat :=
  match src with
  | .imm _ => 2
  | .mem (.zp _) => 3
  | .mem (.zpx _) => 4
  | .mem (.zpy _) => 4
  | .mem (.abs _) => 4
  | .mem (.abx _) => 4
  | .mem (.aby _) => 4
  | .mem (.izx _) => 6
  | .mem (.izy _) => 5

/-- The base cost of the store class (R113). -/
def storeCycles (m : MemMode) : Nat :=
  match m with
  | .zp _ => 3
  | .zpx _ => 4
  | .zpy _ => 4
  | .abs _ => 4
  | .abx _ => 5
  | .aby _ => 5
  | .izx _ => 6
  | .izy _ => 6

/-- The base cost of the read-modify-write class (R113). R113 has no such instruction in the last four modes; no
instruction uses those entries. -/
def rmwCycles (m : MemMode) : Nat :=
  match m with
  | .zp _ => 5
  | .zpx _ => 6
  | .abs _ => 6
  | .abx _ => 7
  | .zpy _ => 0
  | .aby _ => 0
  | .izx _ => 0
  | .izy _ => 0

/-! ## Shapes of instructions -/

/-- A read instruction: fetch the operand, apply `op` to it, charge the base cost and the page-cross penalty (R100, R110). -/
def readInstr (src : Source) (op : Byte → State → State) (s : State) : State :=
  let m := readSource src (movePc (Source.bytes src) s)
  (op m.value m.state).addCycles (readCycles src + m.crossed.toNat)

/-- A store: resolve, write once, charge the fixed cost and what a transfer adds (R100, R140, R447). -/
def storeInstr (m : MemMode) (val : Byte) (s : State) : State :=
  let r := resolve m (movePc m.length s)
  (busWrite r.ea val r.state).addCycles (storeCycles m + dmaCycles r.ea (storeCycles m) s)

/-- A read-modify-write on memory: one read and one write of the same cell (R180, R447). -/
def rmwInstr (m : MemMode) (op : Byte → Flags → Result) (s : State) : State :=
  let r := resolve m (movePc m.length s)
  let d := busRead r.ea r.state
  let v := op d.value d.state.cpu.flags
  ((busWrite r.ea v.value d.state).setFlags v.flags).addCycles
    (rmwCycles m + dmaCycles r.ea (rmwCycles m) s)

/-- A one-byte instruction: `PC` past it, its operation, its cost (R100, R102). -/
def impliedInstr (cycles : Nat) (op : State → State) (s : State) : State :=
  (op (movePc 1 s)).addCycles cycles

/-- The target of a branch: `next + signed8(b1)`, modulo 65536 (R109, R200). -/
def branchTarget (next : Word) (offset : Byte) : Word := next + sext16 offset

/-- The common rule of the eight branches (R200). -/
def branchInstr (taken : Bool) (offset : Byte) (s : State) : State :=
  let next := s.cpu.pc + 2
  let target := branchTarget next offset
  (s.setPc (if taken then target else next)).addCycles
    (2 + if taken then 1 + (pageDiffers target next).toNat else 0)

end Sys2Proof.Machine
end

