-- ==== Sys2Proof/Machine/Control.lean ====
section
/-! DEFINITION. The meanings of jumps, the subroutine call and return, and the branches (R196 to R209) of `44_control.md`, one definition per opcode over the shared
operations; `PC` is at the opcode byte when a meaning starts. -/

namespace Sys2Proof.Machine

/-- JMP to an address that needs no pointer (R197). -/
def jumpTo (w : Word) (s : State) : State := (s.setPc w).addCycles 3

/-- JMP through a pointer (R197, R106). -/
def jumpThrough (ptr : Word) (s : State) : State :=
  let p := resolveIndirect ptr (movePc 3 s)
  (p.state.setPc p.value).addCycles 5

/-- JSR: the address of its own last byte is pushed (R198). -/
def callSubroutine (w : Word) (s : State) : State :=
  ((pushWord (s.cpu.pc + 2) (movePc 3 s)).setPc w).addCycles 6

/-- RTS: the pulled address plus 1 (R199). -/
def returnFromSubroutine (s : State) : State :=
  let r := pullWord s
  r.state.setPc (r.value + 1)

/-- JMP abs, opcode 0x4C (R197). -/
def execJmpAbs (w : Word) (s : State) : Host.Outcome State Fault Refusal :=
  .next (jumpTo w s)

/-- JMP (abs), opcode 0x6C (R197). -/
def execJmpInd (w : Word) (s : State) : Host.Outcome State Fault Refusal :=
  .next (jumpThrough w s)

/-- JSR abs, opcode 0x20 (R198). -/
def execJsr (w : Word) (s : State) : Host.Outcome State Fault Refusal :=
  .next (callSubroutine w s)

/-- RTS, opcode 0x60 (R199). -/
def execRts (s : State) : Host.Outcome State Fault Refusal :=
  .next (impliedInstr 6 returnFromSubroutine s)

/-- BPL rel, opcode 0x10 (R201). -/
def execBpl (b : Byte) (s : State) : Host.Outcome State Fault Refusal :=
  .next (branchInstr (!s.cpu.flags.n) b s)

/-- BMI rel, opcode 0x30 (R202). -/
def execBmi (b : Byte) (s : State) : Host.Outcome State Fault Refusal :=
  .next (branchInstr s.cpu.flags.n b s)

/-- BVC rel, opcode 0x50 (R203). -/
def execBvc (b : Byte) (s : State) : Host.Outcome State Fault Refusal :=
  .next (branchInstr (!s.cpu.flags.v) b s)

/-- BVS rel, opcode 0x70 (R204). -/
def execBvs (b : Byte) (s : State) : Host.Outcome State Fault Refusal :=
  .next (branchInstr s.cpu.flags.v b s)

/-- BCC rel, opcode 0x90 (R205). -/
def execBcc (b : Byte) (s : State) : Host.Outcome State Fault Refusal :=
  .next (branchInstr (!s.cpu.flags.c) b s)

/-- BCS rel, opcode 0xB0 (R206). -/
def execBcs (b : Byte) (s : State) : Host.Outcome State Fault Refusal :=
  .next (branchInstr s.cpu.flags.c b s)

/-- BNE rel, opcode 0xD0 (R207). -/
def execBne (b : Byte) (s : State) : Host.Outcome State Fault Refusal :=
  .next (branchInstr (!s.cpu.flags.z) b s)

/-- BEQ rel, opcode 0xF0 (R208). -/
def execBeq (b : Byte) (s : State) : Host.Outcome State Fault Refusal :=
  .next (branchInstr s.cpu.flags.z b s)

end Sys2Proof.Machine
end

