-- ==== Sys2Proof/Machine/FlagsSystem.lean ====
section
/-! DEFINITION. The meanings of the flag instructions, NOP, BRK and RTI (R216 to R227) of `45_flags_system.md`, one definition per opcode over the shared
operations; `PC` is at the opcode byte when a meaning starts. -/

namespace Sys2Proof.Machine

/-- BRK: the exception sequence with the break mark, the return address `pc0 + 2` and the BRK vector; the interrupt line is
left alone (R225, R273). -/
def breakException (s : State) : State :=
  (takeException Config.brkVector (s.cpu.pc + 2) true false (movePc 1 s)).addCycles 7

/-- A change of one flag (R216). -/
def changeFlags (f : Flags → Flags) (s : State) : State := s.setFlags (f s.cpu.flags)

/-- CLC, opcode 0x18 (R217). -/
def execClc (s : State) : Host.Outcome State Fault Refusal :=
  .next (impliedInstr 2 (changeFlags fun f => { f with c := false }) s)

/-- SEC, opcode 0x38 (R218). -/
def execSec (s : State) : Host.Outcome State Fault Refusal :=
  .next (impliedInstr 2 (changeFlags fun f => { f with c := true }) s)

/-- CLI, opcode 0x58 (R219). -/
def execCli (s : State) : Host.Outcome State Fault Refusal :=
  .next (impliedInstr 2 (changeFlags fun f => { f with i := false }) s)

/-- SEI, opcode 0x78 (R220). -/
def execSei (s : State) : Host.Outcome State Fault Refusal :=
  .next (impliedInstr 2 (changeFlags fun f => { f with i := true }) s)

/-- CLV, opcode 0xB8 (R221). -/
def execClv (s : State) : Host.Outcome State Fault Refusal :=
  .next (impliedInstr 2 (changeFlags fun f => { f with v := false }) s)

/-- CLD, opcode 0xD8 (R222). -/
def execCld (s : State) : Host.Outcome State Fault Refusal :=
  .next (impliedInstr 2 (changeFlags fun f => { f with d := false }) s)

/-- SED, opcode 0xF8 (R223). -/
def execSed (s : State) : Host.Outcome State Fault Refusal :=
  .next (impliedInstr 2 (changeFlags fun f => { f with d := true }) s)

/-- NOP, opcode 0xEA (R224). -/
def execNop (s : State) : Host.Outcome State Fault Refusal :=
  .next (impliedInstr 2 (fun t => t) s)

/-- BRK, opcode 0x00 (R225). -/
def execBrk (s : State) : Host.Outcome State Fault Refusal :=
  .next (breakException s)

/-- RTI, opcode 0x40 (R226). -/
def execRti (s : State) : Host.Outcome State Fault Refusal :=
  .next (impliedInstr 6 returnFromException s)

end Sys2Proof.Machine
end

