-- ==== Sys2Proof/Machine/IncDecShift.lean ====
section
/-! DEFINITION. The meanings of increment, decrement, shift and rotate (R180 to R190) of `43_incdec_shift.md`, one definition per opcode over the shared
operations; `PC` is at the opcode byte when a meaning starts. -/

namespace Sys2Proof.Machine

/-- A one-byte operation on a register, with the flags it leaves (R180). -/
def onRegister (set : State → Byte → State) (v : Byte) (op : Byte → Flags → Result) (s : State) : State :=
  (set s (op v s.cpu.flags).value).setFlags (op v s.cpu.flags).flags

/-- INC zp, opcode 0xE6 (R181). -/
def execIncZp (b : Byte) (s : State) : Host.Outcome State Fault Refusal :=
  .next (rmwInstr (.zp b) incr s)

/-- INC zp,X, opcode 0xF6 (R181). -/
def execIncZpx (b : Byte) (s : State) : Host.Outcome State Fault Refusal :=
  .next (rmwInstr (.zpx b) incr s)

/-- INC abs, opcode 0xEE (R181). -/
def execIncAbs (w : Word) (s : State) : Host.Outcome State Fault Refusal :=
  .next (rmwInstr (.abs w) incr s)

/-- INC abs,X, opcode 0xFE (R181). -/
def execIncAbx (w : Word) (s : State) : Host.Outcome State Fault Refusal :=
  .next (rmwInstr (.abx w) incr s)

/-- INX, opcode 0xE8 (R182). -/
def execInx (s : State) : Host.Outcome State Fault Refusal :=
  .next (impliedInstr 2 (onRegister State.setX s.cpu.x incr) s)

/-- INY, opcode 0xC8 (R183). -/
def execIny (s : State) : Host.Outcome State Fault Refusal :=
  .next (impliedInstr 2 (onRegister State.setY s.cpu.y incr) s)

/-- DEC zp, opcode 0xC6 (R184). -/
def execDecZp (b : Byte) (s : State) : Host.Outcome State Fault Refusal :=
  .next (rmwInstr (.zp b) decr s)

/-- DEC zp,X, opcode 0xD6 (R184). -/
def execDecZpx (b : Byte) (s : State) : Host.Outcome State Fault Refusal :=
  .next (rmwInstr (.zpx b) decr s)

/-- DEC abs, opcode 0xCE (R184). -/
def execDecAbs (w : Word) (s : State) : Host.Outcome State Fault Refusal :=
  .next (rmwInstr (.abs w) decr s)

/-- DEC abs,X, opcode 0xDE (R184). -/
def execDecAbx (w : Word) (s : State) : Host.Outcome State Fault Refusal :=
  .next (rmwInstr (.abx w) decr s)

/-- DEX, opcode 0xCA (R185). -/
def execDex (s : State) : Host.Outcome State Fault Refusal :=
  .next (impliedInstr 2 (onRegister State.setX s.cpu.x decr) s)

/-- DEY, opcode 0x88 (R186). -/
def execDey (s : State) : Host.Outcome State Fault Refusal :=
  .next (impliedInstr 2 (onRegister State.setY s.cpu.y decr) s)

/-- ASL zp, opcode 0x06 (R187). -/
def execAslZp (b : Byte) (s : State) : Host.Outcome State Fault Refusal :=
  .next (rmwInstr (.zp b) shiftLeft s)

/-- ASL zp,X, opcode 0x16 (R187). -/
def execAslZpx (b : Byte) (s : State) : Host.Outcome State Fault Refusal :=
  .next (rmwInstr (.zpx b) shiftLeft s)

/-- ASL abs, opcode 0x0E (R187). -/
def execAslAbs (w : Word) (s : State) : Host.Outcome State Fault Refusal :=
  .next (rmwInstr (.abs w) shiftLeft s)

/-- ASL abs,X, opcode 0x1E (R187). -/
def execAslAbx (w : Word) (s : State) : Host.Outcome State Fault Refusal :=
  .next (rmwInstr (.abx w) shiftLeft s)

/-- ASL A, opcode 0x0A (R187). -/
def execAslAcc (s : State) : Host.Outcome State Fault Refusal :=
  .next (impliedInstr 2 (onRegister State.setA s.cpu.a shiftLeft) s)

/-- LSR zp, opcode 0x46 (R188). -/
def execLsrZp (b : Byte) (s : State) : Host.Outcome State Fault Refusal :=
  .next (rmwInstr (.zp b) shiftRight s)

/-- LSR zp,X, opcode 0x56 (R188). -/
def execLsrZpx (b : Byte) (s : State) : Host.Outcome State Fault Refusal :=
  .next (rmwInstr (.zpx b) shiftRight s)

/-- LSR abs, opcode 0x4E (R188). -/
def execLsrAbs (w : Word) (s : State) : Host.Outcome State Fault Refusal :=
  .next (rmwInstr (.abs w) shiftRight s)

/-- LSR abs,X, opcode 0x5E (R188). -/
def execLsrAbx (w : Word) (s : State) : Host.Outcome State Fault Refusal :=
  .next (rmwInstr (.abx w) shiftRight s)

/-- LSR A, opcode 0x4A (R188). -/
def execLsrAcc (s : State) : Host.Outcome State Fault Refusal :=
  .next (impliedInstr 2 (onRegister State.setA s.cpu.a shiftRight) s)

/-- ROL zp, opcode 0x26 (R189). -/
def execRolZp (b : Byte) (s : State) : Host.Outcome State Fault Refusal :=
  .next (rmwInstr (.zp b) rotateLeft s)

/-- ROL zp,X, opcode 0x36 (R189). -/
def execRolZpx (b : Byte) (s : State) : Host.Outcome State Fault Refusal :=
  .next (rmwInstr (.zpx b) rotateLeft s)

/-- ROL abs, opcode 0x2E (R189). -/
def execRolAbs (w : Word) (s : State) : Host.Outcome State Fault Refusal :=
  .next (rmwInstr (.abs w) rotateLeft s)

/-- ROL abs,X, opcode 0x3E (R189). -/
def execRolAbx (w : Word) (s : State) : Host.Outcome State Fault Refusal :=
  .next (rmwInstr (.abx w) rotateLeft s)

/-- ROL A, opcode 0x2A (R189). -/
def execRolAcc (s : State) : Host.Outcome State Fault Refusal :=
  .next (impliedInstr 2 (onRegister State.setA s.cpu.a rotateLeft) s)

/-- ROR zp, opcode 0x66 (R190). -/
def execRorZp (b : Byte) (s : State) : Host.Outcome State Fault Refusal :=
  .next (rmwInstr (.zp b) rotateRight s)

/-- ROR zp,X, opcode 0x76 (R190). -/
def execRorZpx (b : Byte) (s : State) : Host.Outcome State Fault Refusal :=
  .next (rmwInstr (.zpx b) rotateRight s)

/-- ROR abs, opcode 0x6E (R190). -/
def execRorAbs (w : Word) (s : State) : Host.Outcome State Fault Refusal :=
  .next (rmwInstr (.abs w) rotateRight s)

/-- ROR abs,X, opcode 0x7E (R190). -/
def execRorAbx (w : Word) (s : State) : Host.Outcome State Fault Refusal :=
  .next (rmwInstr (.abx w) rotateRight s)

/-- ROR A, opcode 0x6A (R190). -/
def execRorAcc (s : State) : Host.Outcome State Fault Refusal :=
  .next (impliedInstr 2 (onRegister State.setA s.cpu.a rotateRight) s)

end Sys2Proof.Machine
end

