-- ==== Sys2Proof/Machine/LoadStore.lean ====
section
/-! DEFINITION. The meanings of the load and store instructions (R140 to R146) of `40_load_store.md`, one definition per opcode over the shared
operations; `PC` is at the opcode byte when a meaning starts. -/

namespace Sys2Proof.Machine

/-- A load into a register: the byte, and `Z` and `N` from it (R140). -/
def loadInto (set : State → Byte → State) (v : Byte) (s : State) : State := (set s v).setNZ v

/-- LDA #, opcode 0xA9 (R141). -/
def execLdaImm (b : Byte) (s : State) : Host.Outcome State Fault Refusal :=
  .next (readInstr (.imm b) (loadInto State.setA) s)

/-- LDA zp, opcode 0xA5 (R141). -/
def execLdaZp (b : Byte) (s : State) : Host.Outcome State Fault Refusal :=
  .next (readInstr (.mem (.zp b)) (loadInto State.setA) s)

/-- LDA zp,X, opcode 0xB5 (R141). -/
def execLdaZpx (b : Byte) (s : State) : Host.Outcome State Fault Refusal :=
  .next (readInstr (.mem (.zpx b)) (loadInto State.setA) s)

/-- LDA abs, opcode 0xAD (R141). -/
def execLdaAbs (w : Word) (s : State) : Host.Outcome State Fault Refusal :=
  .next (readInstr (.mem (.abs w)) (loadInto State.setA) s)

/-- LDA abs,X, opcode 0xBD (R141). -/
def execLdaAbx (w : Word) (s : State) : Host.Outcome State Fault Refusal :=
  .next (readInstr (.mem (.abx w)) (loadInto State.setA) s)

/-- LDA abs,Y, opcode 0xB9 (R141). -/
def execLdaAby (w : Word) (s : State) : Host.Outcome State Fault Refusal :=
  .next (readInstr (.mem (.aby w)) (loadInto State.setA) s)

/-- LDA (zp,X), opcode 0xA1 (R141). -/
def execLdaIzx (b : Byte) (s : State) : Host.Outcome State Fault Refusal :=
  .next (readInstr (.mem (.izx b)) (loadInto State.setA) s)

/-- LDA (zp),Y, opcode 0xB1 (R141). -/
def execLdaIzy (b : Byte) (s : State) : Host.Outcome State Fault Refusal :=
  .next (readInstr (.mem (.izy b)) (loadInto State.setA) s)

/-- LDX #, opcode 0xA2 (R142). -/
def execLdxImm (b : Byte) (s : State) : Host.Outcome State Fault Refusal :=
  .next (readInstr (.imm b) (loadInto State.setX) s)

/-- LDX zp, opcode 0xA6 (R142). -/
def execLdxZp (b : Byte) (s : State) : Host.Outcome State Fault Refusal :=
  .next (readInstr (.mem (.zp b)) (loadInto State.setX) s)

/-- LDX zp,Y, opcode 0xB6 (R142). -/
def execLdxZpy (b : Byte) (s : State) : Host.Outcome State Fault Refusal :=
  .next (readInstr (.mem (.zpy b)) (loadInto State.setX) s)

/-- LDX abs, opcode 0xAE (R142). -/
def execLdxAbs (w : Word) (s : State) : Host.Outcome State Fault Refusal :=
  .next (readInstr (.mem (.abs w)) (loadInto State.setX) s)

/-- LDX abs,Y, opcode 0xBE (R142). -/
def execLdxAby (w : Word) (s : State) : Host.Outcome State Fault Refusal :=
  .next (readInstr (.mem (.aby w)) (loadInto State.setX) s)

/-- LDY #, opcode 0xA0 (R143). -/
def execLdyImm (b : Byte) (s : State) : Host.Outcome State Fault Refusal :=
  .next (readInstr (.imm b) (loadInto State.setY) s)

/-- LDY zp, opcode 0xA4 (R143). -/
def execLdyZp (b : Byte) (s : State) : Host.Outcome State Fault Refusal :=
  .next (readInstr (.mem (.zp b)) (loadInto State.setY) s)

/-- LDY zp,X, opcode 0xB4 (R143). -/
def execLdyZpx (b : Byte) (s : State) : Host.Outcome State Fault Refusal :=
  .next (readInstr (.mem (.zpx b)) (loadInto State.setY) s)

/-- LDY abs, opcode 0xAC (R143). -/
def execLdyAbs (w : Word) (s : State) : Host.Outcome State Fault Refusal :=
  .next (readInstr (.mem (.abs w)) (loadInto State.setY) s)

/-- LDY abs,X, opcode 0xBC (R143). -/
def execLdyAbx (w : Word) (s : State) : Host.Outcome State Fault Refusal :=
  .next (readInstr (.mem (.abx w)) (loadInto State.setY) s)

/-- STA zp, opcode 0x85 (R144). -/
def execStaZp (b : Byte) (s : State) : Host.Outcome State Fault Refusal :=
  .next (storeInstr (.zp b) s.cpu.a s)

/-- STA zp,X, opcode 0x95 (R144). -/
def execStaZpx (b : Byte) (s : State) : Host.Outcome State Fault Refusal :=
  .next (storeInstr (.zpx b) s.cpu.a s)

/-- STA abs, opcode 0x8D (R144). -/
def execStaAbs (w : Word) (s : State) : Host.Outcome State Fault Refusal :=
  .next (storeInstr (.abs w) s.cpu.a s)

/-- STA abs,X, opcode 0x9D (R144). -/
def execStaAbx (w : Word) (s : State) : Host.Outcome State Fault Refusal :=
  .next (storeInstr (.abx w) s.cpu.a s)

/-- STA abs,Y, opcode 0x99 (R144). -/
def execStaAby (w : Word) (s : State) : Host.Outcome State Fault Refusal :=
  .next (storeInstr (.aby w) s.cpu.a s)

/-- STA (zp,X), opcode 0x81 (R144). -/
def execStaIzx (b : Byte) (s : State) : Host.Outcome State Fault Refusal :=
  .next (storeInstr (.izx b) s.cpu.a s)

/-- STA (zp),Y, opcode 0x91 (R144). -/
def execStaIzy (b : Byte) (s : State) : Host.Outcome State Fault Refusal :=
  .next (storeInstr (.izy b) s.cpu.a s)

/-- STX zp, opcode 0x86 (R145). -/
def execStxZp (b : Byte) (s : State) : Host.Outcome State Fault Refusal :=
  .next (storeInstr (.zp b) s.cpu.x s)

/-- STX zp,Y, opcode 0x96 (R145). -/
def execStxZpy (b : Byte) (s : State) : Host.Outcome State Fault Refusal :=
  .next (storeInstr (.zpy b) s.cpu.x s)

/-- STX abs, opcode 0x8E (R145). -/
def execStxAbs (w : Word) (s : State) : Host.Outcome State Fault Refusal :=
  .next (storeInstr (.abs w) s.cpu.x s)

/-- STY zp, opcode 0x84 (R146). -/
def execStyZp (b : Byte) (s : State) : Host.Outcome State Fault Refusal :=
  .next (storeInstr (.zp b) s.cpu.y s)

/-- STY zp,X, opcode 0x94 (R146). -/
def execStyZpx (b : Byte) (s : State) : Host.Outcome State Fault Refusal :=
  .next (storeInstr (.zpx b) s.cpu.y s)

/-- STY abs, opcode 0x8C (R146). -/
def execStyAbs (w : Word) (s : State) : Host.Outcome State Fault Refusal :=
  .next (storeInstr (.abs w) s.cpu.y s)

end Sys2Proof.Machine
end

