-- ==== Sys2Proof/Machine/LogicArith.lean ====
section
/-! DEFINITION. The meanings of logic, arithmetic and compare (R164 to R174) of `42_logic_arith.md`, one definition per opcode over the shared
operations; `PC` is at the opcode byte when a meaning starts. -/

namespace Sys2Proof.Machine

/-- A logic result into the accumulator, with `Z` and `N` (R165 to R167). -/
def logicA (v : Byte) (s : State) : State := (s.setA v).setNZ v

/-- ADC of an operand (R169). -/
def addToA (m : Byte) (s : State) : State :=
  (s.setA (addValue s.cpu.a m s.cpu.flags.c)).setFlags (addFlags s.cpu.flags s.cpu.a m)

/-- SBC of an operand: ADC of its one's complement (R170, R174). -/
def subFromA (m : Byte) (s : State) : State := addToA (m ^^^ 0xFF) s

/-- A compare of a register's value (R171 to R173). -/
def compareWith (r m : Byte) (s : State) : State := s.setFlags (compareFlags s.cpu.flags r m)

/-- AND (R165). -/
def andA (m : Byte) (s : State) : State := logicA (s.cpu.a &&& m) s
/-- ORA (R166). -/
def orA (m : Byte) (s : State) : State := logicA (s.cpu.a ||| m) s
/-- EOR (R167). -/
def eorA (m : Byte) (s : State) : State := logicA (s.cpu.a ^^^ m) s
/-- BIT (R168). -/
def bitA (m : Byte) (s : State) : State := s.setFlags (bitFlags s.cpu.flags s.cpu.a m)
/-- CMP (R171). -/
def cmpA (m : Byte) (s : State) : State := compareWith s.cpu.a m s
/-- CPX (R172). -/
def cmpX (m : Byte) (s : State) : State := compareWith s.cpu.x m s
/-- CPY (R173). -/
def cmpY (m : Byte) (s : State) : State := compareWith s.cpu.y m s

/-- AND #, opcode 0x29 (R165). -/
def execAndImm (b : Byte) (s : State) : Host.Outcome State Fault Refusal :=
  .next (readInstr (.imm b) andA s)

/-- AND zp, opcode 0x25 (R165). -/
def execAndZp (b : Byte) (s : State) : Host.Outcome State Fault Refusal :=
  .next (readInstr (.mem (.zp b)) andA s)

/-- AND zp,X, opcode 0x35 (R165). -/
def execAndZpx (b : Byte) (s : State) : Host.Outcome State Fault Refusal :=
  .next (readInstr (.mem (.zpx b)) andA s)

/-- AND abs, opcode 0x2D (R165). -/
def execAndAbs (w : Word) (s : State) : Host.Outcome State Fault Refusal :=
  .next (readInstr (.mem (.abs w)) andA s)

/-- AND abs,X, opcode 0x3D (R165). -/
def execAndAbx (w : Word) (s : State) : Host.Outcome State Fault Refusal :=
  .next (readInstr (.mem (.abx w)) andA s)

/-- AND abs,Y, opcode 0x39 (R165). -/
def execAndAby (w : Word) (s : State) : Host.Outcome State Fault Refusal :=
  .next (readInstr (.mem (.aby w)) andA s)

/-- AND (zp,X), opcode 0x21 (R165). -/
def execAndIzx (b : Byte) (s : State) : Host.Outcome State Fault Refusal :=
  .next (readInstr (.mem (.izx b)) andA s)

/-- AND (zp),Y, opcode 0x31 (R165). -/
def execAndIzy (b : Byte) (s : State) : Host.Outcome State Fault Refusal :=
  .next (readInstr (.mem (.izy b)) andA s)

/-- ORA #, opcode 0x09 (R166). -/
def execOraImm (b : Byte) (s : State) : Host.Outcome State Fault Refusal :=
  .next (readInstr (.imm b) orA s)

/-- ORA zp, opcode 0x05 (R166). -/
def execOraZp (b : Byte) (s : State) : Host.Outcome State Fault Refusal :=
  .next (readInstr (.mem (.zp b)) orA s)

/-- ORA zp,X, opcode 0x15 (R166). -/
def execOraZpx (b : Byte) (s : State) : Host.Outcome State Fault Refusal :=
  .next (readInstr (.mem (.zpx b)) orA s)

/-- ORA abs, opcode 0x0D (R166). -/
def execOraAbs (w : Word) (s : State) : Host.Outcome State Fault Refusal :=
  .next (readInstr (.mem (.abs w)) orA s)

/-- ORA abs,X, opcode 0x1D (R166). -/
def execOraAbx (w : Word) (s : State) : Host.Outcome State Fault Refusal :=
  .next (readInstr (.mem (.abx w)) orA s)

/-- ORA abs,Y, opcode 0x19 (R166). -/
def execOraAby (w : Word) (s : State) : Host.Outcome State Fault Refusal :=
  .next (readInstr (.mem (.aby w)) orA s)

/-- ORA (zp,X), opcode 0x01 (R166). -/
def execOraIzx (b : Byte) (s : State) : Host.Outcome State Fault Refusal :=
  .next (readInstr (.mem (.izx b)) orA s)

/-- ORA (zp),Y, opcode 0x11 (R166). -/
def execOraIzy (b : Byte) (s : State) : Host.Outcome State Fault Refusal :=
  .next (readInstr (.mem (.izy b)) orA s)

/-- EOR #, opcode 0x49 (R167). -/
def execEorImm (b : Byte) (s : State) : Host.Outcome State Fault Refusal :=
  .next (readInstr (.imm b) eorA s)

/-- EOR zp, opcode 0x45 (R167). -/
def execEorZp (b : Byte) (s : State) : Host.Outcome State Fault Refusal :=
  .next (readInstr (.mem (.zp b)) eorA s)

/-- EOR zp,X, opcode 0x55 (R167). -/
def execEorZpx (b : Byte) (s : State) : Host.Outcome State Fault Refusal :=
  .next (readInstr (.mem (.zpx b)) eorA s)

/-- EOR abs, opcode 0x4D (R167). -/
def execEorAbs (w : Word) (s : State) : Host.Outcome State Fault Refusal :=
  .next (readInstr (.mem (.abs w)) eorA s)

/-- EOR abs,X, opcode 0x5D (R167). -/
def execEorAbx (w : Word) (s : State) : Host.Outcome State Fault Refusal :=
  .next (readInstr (.mem (.abx w)) eorA s)

/-- EOR abs,Y, opcode 0x59 (R167). -/
def execEorAby (w : Word) (s : State) : Host.Outcome State Fault Refusal :=
  .next (readInstr (.mem (.aby w)) eorA s)

/-- EOR (zp,X), opcode 0x41 (R167). -/
def execEorIzx (b : Byte) (s : State) : Host.Outcome State Fault Refusal :=
  .next (readInstr (.mem (.izx b)) eorA s)

/-- EOR (zp),Y, opcode 0x51 (R167). -/
def execEorIzy (b : Byte) (s : State) : Host.Outcome State Fault Refusal :=
  .next (readInstr (.mem (.izy b)) eorA s)

/-- BIT zp, opcode 0x24 (R168). -/
def execBitZp (b : Byte) (s : State) : Host.Outcome State Fault Refusal :=
  .next (readInstr (.mem (.zp b)) bitA s)

/-- BIT abs, opcode 0x2C (R168). -/
def execBitAbs (w : Word) (s : State) : Host.Outcome State Fault Refusal :=
  .next (readInstr (.mem (.abs w)) bitA s)

/-- ADC #, opcode 0x69 (R169). -/
def execAdcImm (b : Byte) (s : State) : Host.Outcome State Fault Refusal :=
  .next (readInstr (.imm b) addToA s)

/-- ADC zp, opcode 0x65 (R169). -/
def execAdcZp (b : Byte) (s : State) : Host.Outcome State Fault Refusal :=
  .next (readInstr (.mem (.zp b)) addToA s)

/-- ADC zp,X, opcode 0x75 (R169). -/
def execAdcZpx (b : Byte) (s : State) : Host.Outcome State Fault Refusal :=
  .next (readInstr (.mem (.zpx b)) addToA s)

/-- ADC abs, opcode 0x6D (R169). -/
def execAdcAbs (w : Word) (s : State) : Host.Outcome State Fault Refusal :=
  .next (readInstr (.mem (.abs w)) addToA s)

/-- ADC abs,X, opcode 0x7D (R169). -/
def execAdcAbx (w : Word) (s : State) : Host.Outcome State Fault Refusal :=
  .next (readInstr (.mem (.abx w)) addToA s)

/-- ADC abs,Y, opcode 0x79 (R169). -/
def execAdcAby (w : Word) (s : State) : Host.Outcome State Fault Refusal :=
  .next (readInstr (.mem (.aby w)) addToA s)

/-- ADC (zp,X), opcode 0x61 (R169). -/
def execAdcIzx (b : Byte) (s : State) : Host.Outcome State Fault Refusal :=
  .next (readInstr (.mem (.izx b)) addToA s)

/-- ADC (zp),Y, opcode 0x71 (R169). -/
def execAdcIzy (b : Byte) (s : State) : Host.Outcome State Fault Refusal :=
  .next (readInstr (.mem (.izy b)) addToA s)

/-- SBC #, opcode 0xE9 (R170). -/
def execSbcImm (b : Byte) (s : State) : Host.Outcome State Fault Refusal :=
  .next (readInstr (.imm b) subFromA s)

/-- SBC zp, opcode 0xE5 (R170). -/
def execSbcZp (b : Byte) (s : State) : Host.Outcome State Fault Refusal :=
  .next (readInstr (.mem (.zp b)) subFromA s)

/-- SBC zp,X, opcode 0xF5 (R170). -/
def execSbcZpx (b : Byte) (s : State) : Host.Outcome State Fault Refusal :=
  .next (readInstr (.mem (.zpx b)) subFromA s)

/-- SBC abs, opcode 0xED (R170). -/
def execSbcAbs (w : Word) (s : State) : Host.Outcome State Fault Refusal :=
  .next (readInstr (.mem (.abs w)) subFromA s)

/-- SBC abs,X, opcode 0xFD (R170). -/
def execSbcAbx (w : Word) (s : State) : Host.Outcome State Fault Refusal :=
  .next (readInstr (.mem (.abx w)) subFromA s)

/-- SBC abs,Y, opcode 0xF9 (R170). -/
def execSbcAby (w : Word) (s : State) : Host.Outcome State Fault Refusal :=
  .next (readInstr (.mem (.aby w)) subFromA s)

/-- SBC (zp,X), opcode 0xE1 (R170). -/
def execSbcIzx (b : Byte) (s : State) : Host.Outcome State Fault Refusal :=
  .next (readInstr (.mem (.izx b)) subFromA s)

/-- SBC (zp),Y, opcode 0xF1 (R170). -/
def execSbcIzy (b : Byte) (s : State) : Host.Outcome State Fault Refusal :=
  .next (readInstr (.mem (.izy b)) subFromA s)

/-- CMP #, opcode 0xC9 (R171). -/
def execCmpImm (b : Byte) (s : State) : Host.Outcome State Fault Refusal :=
  .next (readInstr (.imm b) cmpA s)

/-- CMP zp, opcode 0xC5 (R171). -/
def execCmpZp (b : Byte) (s : State) : Host.Outcome State Fault Refusal :=
  .next (readInstr (.mem (.zp b)) cmpA s)

/-- CMP zp,X, opcode 0xD5 (R171). -/
def execCmpZpx (b : Byte) (s : State) : Host.Outcome State Fault Refusal :=
  .next (readInstr (.mem (.zpx b)) cmpA s)

/-- CMP abs, opcode 0xCD (R171). -/
def execCmpAbs (w : Word) (s : State) : Host.Outcome State Fault Refusal :=
  .next (readInstr (.mem (.abs w)) cmpA s)

/-- CMP abs,X, opcode 0xDD (R171). -/
def execCmpAbx (w : Word) (s : State) : Host.Outcome State Fault Refusal :=
  .next (readInstr (.mem (.abx w)) cmpA s)

/-- CMP abs,Y, opcode 0xD9 (R171). -/
def execCmpAby (w : Word) (s : State) : Host.Outcome State Fault Refusal :=
  .next (readInstr (.mem (.aby w)) cmpA s)

/-- CMP (zp,X), opcode 0xC1 (R171). -/
def execCmpIzx (b : Byte) (s : State) : Host.Outcome State Fault Refusal :=
  .next (readInstr (.mem (.izx b)) cmpA s)

/-- CMP (zp),Y, opcode 0xD1 (R171). -/
def execCmpIzy (b : Byte) (s : State) : Host.Outcome State Fault Refusal :=
  .next (readInstr (.mem (.izy b)) cmpA s)

/-- CPX #, opcode 0xE0 (R172). -/
def execCpxImm (b : Byte) (s : State) : Host.Outcome State Fault Refusal :=
  .next (readInstr (.imm b) cmpX s)

/-- CPX zp, opcode 0xE4 (R172). -/
def execCpxZp (b : Byte) (s : State) : Host.Outcome State Fault Refusal :=
  .next (readInstr (.mem (.zp b)) cmpX s)

/-- CPX abs, opcode 0xEC (R172). -/
def execCpxAbs (w : Word) (s : State) : Host.Outcome State Fault Refusal :=
  .next (readInstr (.mem (.abs w)) cmpX s)

/-- CPY #, opcode 0xC0 (R173). -/
def execCpyImm (b : Byte) (s : State) : Host.Outcome State Fault Refusal :=
  .next (readInstr (.imm b) cmpY s)

/-- CPY zp, opcode 0xC4 (R173). -/
def execCpyZp (b : Byte) (s : State) : Host.Outcome State Fault Refusal :=
  .next (readInstr (.mem (.zp b)) cmpY s)

/-- CPY abs, opcode 0xCC (R173). -/
def execCpyAbs (w : Word) (s : State) : Host.Outcome State Fault Refusal :=
  .next (readInstr (.mem (.abs w)) cmpY s)

end Sys2Proof.Machine
end

