-- ==== Sys2Proof/Machine/TransferStack.lean ====
section
/-! DEFINITION. The meanings of the register transfers and the stack instructions (R150 to R160) of `41_transfer_stack.md`, one definition per opcode over the shared
operations; `PC` is at the opcode byte when a meaning starts. -/

namespace Sys2Proof.Machine

/-- A transfer that sets `Z` and `N` from the byte copied (R150). -/
def transfer (set : State → Byte → State) (v : Byte) (s : State) : State := (set s v).setNZ v

/-- PLA: the accumulator from the stack (R159). -/
def pullA (s : State) : State :=
  let r := pull s
  (r.state.setA r.value).setNZ r.value

/-- PLP: the flags from the stack (R160). -/
def pullFlags (s : State) : State :=
  let r := pull s
  r.state.setFlags (unpackP r.value)

/-- TAX, opcode 0xAA (R151). -/
def execTax (s : State) : Host.Outcome State Fault Refusal :=
  .next (impliedInstr 2 (transfer State.setX s.cpu.a) s)

/-- TAY, opcode 0xA8 (R152). -/
def execTay (s : State) : Host.Outcome State Fault Refusal :=
  .next (impliedInstr 2 (transfer State.setY s.cpu.a) s)

/-- TXA, opcode 0x8A (R153). -/
def execTxa (s : State) : Host.Outcome State Fault Refusal :=
  .next (impliedInstr 2 (transfer State.setA s.cpu.x) s)

/-- TYA, opcode 0x98 (R154). -/
def execTya (s : State) : Host.Outcome State Fault Refusal :=
  .next (impliedInstr 2 (transfer State.setA s.cpu.y) s)

/-- TSX, opcode 0xBA (R155). -/
def execTsx (s : State) : Host.Outcome State Fault Refusal :=
  .next (impliedInstr 2 (transfer State.setX s.cpu.sp) s)

/-- TXS, opcode 0x9A (R156). -/
def execTxs (s : State) : Host.Outcome State Fault Refusal :=
  .next (impliedInstr 2 (fun t => t.setSp s.cpu.x) s)

/-- PHA, opcode 0x48 (R157). -/
def execPha (s : State) : Host.Outcome State Fault Refusal :=
  .next (impliedInstr 3 (push s.cpu.a) s)

/-- PHP, opcode 0x08 (R158). -/
def execPhp (s : State) : Host.Outcome State Fault Refusal :=
  .next (impliedInstr 3 (push (packP s.cpu.flags true)) s)

/-- PLA, opcode 0x68 (R159). -/
def execPla (s : State) : Host.Outcome State Fault Refusal :=
  .next (impliedInstr 4 pullA s)

/-- PLP, opcode 0x28 (R160). -/
def execPlp (s : State) : Host.Outcome State Fault Refusal :=
  .next (impliedInstr 4 pullFlags s)

end Sys2Proof.Machine
end

