-- ==== Sys2Proof/Machine/Step.lean ====
section
/-! DEFINITION. The one transition of the machine, `advance()` (`61_scheduler.md` R300): the host's calls at the boundary
(R305), the CPU step (R270) and the ticks that follow it; and the placing of an instruction where the next step fetches. -/

namespace Sys2Proof.Machine

/-- `advance()` on a machine that has not faulted (R300, R270): the interrupt entry where it is due, else the fetched
instruction; then the units' ticks for the cycles it took. An illegal opcode ends the run with no tick (R261). -/
def advance (s : State) : Host.Outcome State Fault Refusal :=
  if interruptTaken s then
    .next (tickUnits Config.intCycles (interruptEntry s))
  else
    match fetch s with
    | .illegal op t => .fault (.decodeError op s.cpu.pc (raiseDecodeError op t))
    | .instr i t =>
      match exec i t with
      | .next u => .next (tickUnits (u.cpu.cyc - t.cpu.cyc) u)
      | .fault r => .fault r
      | .refused r => .refused r

/-- One step. While `fault` is set no step is enabled: the same error again, the state unchanged (R262). -/
def step (s : State) : Host.Outcome State Fault Refusal :=
  match s.cpu.fault with
  | some f => .fault (.decodeError f.opcode f.address s)
  | none => advance (takeHostCalls s)

/-- The state with an instruction's bytes where the next step fetches, made ready to fetch them
(notes/assumptions/5.md). -/
def State.withFetchWord (s : State) (nbits w : Nat) : State :=
  let r := readyToFetch s
  placeBytes (tableBytes nbits w) r.cpu.pc r

end Sys2Proof.Machine
end

