-- ==== Sys2Proof/Safety.lean ====
section
/-! DEFINITION. What counts as a sound state of this machine, in the terms the statements use: the canonical form of every
memory, the ranges of the position counters, the invariants of the audio unit, and the agreement of the three clocks. -/

namespace Sys2Proof.Machine

/-! ## Canonical memories -/

/-- The storage cells this machine has: internal RAM (R30), cartridge RAM where the parameters give it, and as many PRG
bytes as the cartridge has (R42). -/
def cpuCellExists (cfg : Cfg) (cart : Cart) (k : Nat) : Bool :=
  decide (k < 2048) || (cfg.prgRam && decide (0x6000 ≤ k) && decide (k < 0x8000)) ||
    (decide (0x8000 ≤ k) && decide (k < 0x8000 + prgLength cart.prgSize))

/-- The storage behind the CPU address space is canonical and lists only cells this machine has. -/
def memCanonical (cfg : Cfg) (cart : Cart) (m : Memory) : Bool :=
  Memory.wf .cpu m && m.all fun c => cpuCellExists cfg cart c.1

/-- The video unit's memories are canonical; a palette entry holds a 6-bit colour index (R37), a frame holds colour
indices 0..63 (R38). -/
def Video.canonical (cart : Cart) (u : Video) : Bool :=
  Memory.wf .oam u.oam && Memory.wf .nameTable u.nt && Memory.wf .palette u.pal &&
    (u.pal.all fun c => decide (c.2 < 64)) && Memory.wf (chrSpace cart) u.chr && Frame.wf u.fb &&
    (match u.frameOut with
      | none => true
      | some f => Frame.wf f)

/-- Every memory of the machine is canonical. -/
def State.canonical (s : State) : Bool := memCanonical s.cfg s.cart s.mem && s.video.canonical s.cart

/-! ## The video unit's position (R31, R340) -/

/-- The position counters are in range: `scanline` in 0..261 and `dot` in 0..340 (R31). -/
def Video.inRange (u : Video) : Bool := decide (u.scanline < 262) && decide (u.dot < 341)

/-- The index of a position in its traversal, 0..89341. -/
def Video.position (u : Video) : Nat := 341 * u.scanline + u.dot

/-! ## The audio unit (R39, R40, R388, R402) -/

/-- A channel that is disabled has length 0 (R388). -/
def silencedWhenOff (enabled : Bool) (length : Byte) : Bool := enabled || length == 0

/-- The sequencer's counter is below its wrap point (R40, R404). -/
def sequencerInRange (fsMode : Bool) (n : Nat) : Bool := decide (n < if fsMode then 37282 else 29830)

/-- The audio unit's invariants: the shift register is not 0 (R402), a disabled channel is silenced (R388), and the
sequencer's counter has not passed a wrap point (R404). -/
def Audio.sound (a : Audio) : Bool :=
  decide (a.noise.lfsr ≠ 0) && silencedWhenOff a.pulse0.enabled a.pulse0.length &&
    silencedWhenOff a.pulse1.enabled a.pulse1.length && silencedWhenOff a.tri.enabled a.tri.length &&
    silencedWhenOff a.noise.enabled a.noise.length && sequencerInRange a.fsMode a.fsCount

/-! ## The clocks (R281, R310) -/

/-- The number of frame handoffs done after `n` video ticks from power-on: the first at tick 81840, then one every 89342
(R310, R342). -/
def handoffsAfter (n : Nat) : Nat := (n + 7501) / 89342

/-- The three clocks agree: as many audio ticks as CPU cycles, three times as many video ticks, and the frames handed off
by then (R281, R310). -/
def State.clocksAgree (s : State) : Bool :=
  decide (s.audio.apuCycle = s.cpu.cyc) && s.video.inRange && decide (s.video.position = 3 * s.cpu.cyc % 89342) &&
    decide (s.video.frameCount = handoffsAfter (3 * s.cpu.cyc))

/-! ## The machine -/

/-- A sound state: everything above. -/
def State.sound (s : State) : Bool := s.canonical && s.video.inRange && s.audio.sound && s.clocksAgree

end Sys2Proof.Machine
end

