-- ==== Sys2Proof/Certificates/Slice0/Obligations.lean ====
section
/-! DEFINITION. The statements for the provers, written from the numbered rules of the spec, with the words they are
written in: the encodings of each instruction as its own rule lists them, and the shapes of a next state. -/

namespace Sys2Proof.Claims

open Sys2Proof.Machine

/-! ## The words of the statements -/

/-- The state with `PC` past an `n`-byte instruction, which is the state its operation starts from (R100). -/
def past (n : Nat) (s : State) : State := { s with cpu := { s.cpu with pc := s.cpu.pc + BitVec.ofNat 16 n } }

/-- `SetNZ(v)` (R8): `Z` is 1 exactly when `v` is 0, `N` is bit 7 of `v`. -/
def nz (v : Byte) (f : Flags) : Flags := { f with z := decide (v = 0), n := v.getLsbD 7 }

/-- One encoding of a read instruction as its rule lists it: the instruction, its bytes, its operand, its base cost and
whether the page-cross penalty applies. -/
structure ReadForm where
  instr   : Instr
  bytes   : List Byte
  src     : Source
  base    : Nat
  penalty : Bool

/-- One encoding of an instruction that writes memory: the instruction, its bytes, its addressing mode and its cost. -/
structure WriteForm where
  instr : Instr
  bytes : List Byte
  mode  : MemMode
  base  : Nat

/-- The encodings of LDA (R141). -/
def ldaForms (b1 b2 : Byte) : List ReadForm :=
  [⟨.ldaImm b1, [0xA9, b1], .imm b1, 2, false⟩,
   ⟨.ldaZp b1, [0xA5, b1], .mem (.zp b1), 3, false⟩,
   ⟨.ldaZpx b1, [0xB5, b1], .mem (.zpx b1), 4, false⟩,
   ⟨.ldaAbs (mkWord b2 b1), [0xAD, b1, b2], .mem (.abs (mkWord b2 b1)), 4, false⟩,
   ⟨.ldaAbx (mkWord b2 b1), [0xBD, b1, b2], .mem (.abx (mkWord b2 b1)), 4, true⟩,
   ⟨.ldaAby (mkWord b2 b1), [0xB9, b1, b2], .mem (.aby (mkWord b2 b1)), 4, true⟩,
   ⟨.ldaIzx b1, [0xA1, b1], .mem (.izx b1), 6, false⟩,
   ⟨.ldaIzy b1, [0xB1, b1], .mem (.izy b1), 5, true⟩]

/-- The encodings of LDX (R142). -/
def ldxForms (b1 b2 : Byte) : List ReadForm :=
  [⟨.ldxImm b1, [0xA2, b1], .imm b1, 2, false⟩,
   ⟨.ldxZp b1, [0xA6, b1], .mem (.zp b1), 3, false⟩,
   ⟨.ldxZpy b1, [0xB6, b1], .mem (.zpy b1), 4, false⟩,
   ⟨.ldxAbs (mkWord b2 b1), [0xAE, b1, b2], .mem (.abs (mkWord b2 b1)), 4, false⟩,
   ⟨.ldxAby (mkWord b2 b1), [0xBE, b1, b2], .mem (.aby (mkWord b2 b1)), 4, true⟩]

/-- The encodings of LDY (R143). -/
def ldyForms (b1 b2 : Byte) : List ReadForm :=
  [⟨.ldyImm b1, [0xA0, b1], .imm b1, 2, false⟩,
   ⟨.ldyZp b1, [0xA4, b1], .mem (.zp b1), 3, false⟩,
   ⟨.ldyZpx b1, [0xB4, b1], .mem (.zpx b1), 4, false⟩,
   ⟨.ldyAbs (mkWord b2 b1), [0xAC, b1, b2], .mem (.abs (mkWord b2 b1)), 4, false⟩,
   ⟨.ldyAbx (mkWord b2 b1), [0xBC, b1, b2], .mem (.abx (mkWord b2 b1)), 4, true⟩]

/-- The encodings of AND (R165). -/
def andForms (b1 b2 : Byte) : List ReadForm :=
  [⟨.andImm b1, [0x29, b1], .imm b1, 2, false⟩,
   ⟨.andZp b1, [0x25, b1], .mem (.zp b1), 3, false⟩,
   ⟨.andZpx b1, [0x35, b1], .mem (.zpx b1), 4, false⟩,
   ⟨.andAbs (mkWord b2 b1), [0x2D, b1, b2], .mem (.abs (mkWord b2 b1)), 4, false⟩,
   ⟨.andAbx (mkWord b2 b1), [0x3D, b1, b2], .mem (.abx (mkWord b2 b1)), 4, true⟩,
   ⟨.andAby (mkWord b2 b1), [0x39, b1, b2], .mem (.aby (mkWord b2 b1)), 4, true⟩,
   ⟨.andIzx b1, [0x21, b1], .mem (.izx b1), 6, false⟩,
   ⟨.andIzy b1, [0x31, b1], .mem (.izy b1), 5, true⟩]

/-- The encodings of ORA (R166). -/
def oraForms (b1 b2 : Byte) : List ReadForm :=
  [⟨.oraImm b1, [0x09, b1], .imm b1, 2, false⟩,
   ⟨.oraZp b1, [0x05, b1], .mem (.zp b1), 3, false⟩,
   ⟨.oraZpx b1, [0x15, b1], .mem (.zpx b1), 4, false⟩,
   ⟨.oraAbs (mkWord b2 b1), [0x0D, b1, b2], .mem (.abs (mkWord b2 b1)), 4, false⟩,
   ⟨.oraAbx (mkWord b2 b1), [0x1D, b1, b2], .mem (.abx (mkWord b2 b1)), 4, true⟩,
   ⟨.oraAby (mkWord b2 b1), [0x19, b1, b2], .mem (.aby (mkWord b2 b1)), 4, true⟩,
   ⟨.oraIzx b1, [0x01, b1], .mem (.izx b1), 6, false⟩,
   ⟨.oraIzy b1, [0x11, b1], .mem (.izy b1), 5, true⟩]

/-- The encodings of EOR (R167). -/
def eorForms (b1 b2 : Byte) : List ReadForm :=
  [⟨.eorImm b1, [0x49, b1], .imm b1, 2, false⟩,
   ⟨.eorZp b1, [0x45, b1], .mem (.zp b1), 3, false⟩,
   ⟨.eorZpx b1, [0x55, b1], .mem (.zpx b1), 4, false⟩,
   ⟨.eorAbs (mkWord b2 b1), [0x4D, b1, b2], .mem (.abs (mkWord b2 b1)), 4, false⟩,
   ⟨.eorAbx (mkWord b2 b1), [0x5D, b1, b2], .mem (.abx (mkWord b2 b1)), 4, true⟩,
   ⟨.eorAby (mkWord b2 b1), [0x59, b1, b2], .mem (.aby (mkWord b2 b1)), 4, true⟩,
   ⟨.eorIzx b1, [0x41, b1], .mem (.izx b1), 6, false⟩,
   ⟨.eorIzy b1, [0x51, b1], .mem (.izy b1), 5, true⟩]

/-- The encodings of BIT (R168). -/
def bitForms (b1 b2 : Byte) : List ReadForm :=
  [⟨.bitZp b1, [0x24, b1], .mem (.zp b1), 3, false⟩,
   ⟨.bitAbs (mkWord b2 b1), [0x2C, b1, b2], .mem (.abs (mkWord b2 b1)), 4, false⟩]

/-- The encodings of ADC (R169). -/
def adcForms (b1 b2 : Byte) : List ReadForm :=
  [⟨.adcImm b1, [0x69, b1], .imm b1, 2, false⟩,
   ⟨.adcZp b1, [0x65, b1], .mem (.zp b1), 3, false⟩,
   ⟨.adcZpx b1, [0x75, b1], .mem (.zpx b1), 4, false⟩,
   ⟨.adcAbs (mkWord b2 b1), [0x6D, b1, b2], .mem (.abs (mkWord b2 b1)), 4, false⟩,
   ⟨.adcAbx (mkWord b2 b1), [0x7D, b1, b2], .mem (.abx (mkWord b2 b1)), 4, true⟩,
   ⟨.adcAby (mkWord b2 b1), [0x79, b1, b2], .mem (.aby (mkWord b2 b1)), 4, true⟩,
   ⟨.adcIzx b1, [0x61, b1], .mem (.izx b1), 6, false⟩,
   ⟨.adcIzy b1, [0x71, b1], .mem (.izy b1), 5, true⟩]

/-- The encodings of SBC (R170). -/
def sbcForms (b1 b2 : Byte) : List ReadForm :=
  [⟨.sbcImm b1, [0xE9, b1], .imm b1, 2, false⟩,
   ⟨.sbcZp b1, [0xE5, b1], .mem (.zp b1), 3, false⟩,
   ⟨.sbcZpx b1, [0xF5, b1], .mem (.zpx b1), 4, false⟩,
   ⟨.sbcAbs (mkWord b2 b1), [0xED, b1, b2], .mem (.abs (mkWord b2 b1)), 4, false⟩,
   ⟨.sbcAbx (mkWord b2 b1), [0xFD, b1, b2], .mem (.abx (mkWord b2 b1)), 4, true⟩,
   ⟨.sbcAby (mkWord b2 b1), [0xF9, b1, b2], .mem (.aby (mkWord b2 b1)), 4, true⟩,
   ⟨.sbcIzx b1, [0xE1, b1], .mem (.izx b1), 6, false⟩,
   ⟨.sbcIzy b1, [0xF1, b1], .mem (.izy b1), 5, true⟩]

/-- The encodings of CMP (R171). -/
def cmpForms (b1 b2 : Byte) : List ReadForm :=
  [⟨.cmpImm b1, [0xC9, b1], .imm b1, 2, false⟩,
   ⟨.cmpZp b1, [0xC5, b1], .mem (.zp b1), 3, false⟩,
   ⟨.cmpZpx b1, [0xD5, b1], .mem (.zpx b1), 4, false⟩,
   ⟨.cmpAbs (mkWord b2 b1), [0xCD, b1, b2], .mem (.abs (mkWord b2 b1)), 4, false⟩,
   ⟨.cmpAbx (mkWord b2 b1), [0xDD, b1, b2], .mem (.abx (mkWord b2 b1)), 4, true⟩,
   ⟨.cmpAby (mkWord b2 b1), [0xD9, b1, b2], .mem (.aby (mkWord b2 b1)), 4, true⟩,
   ⟨.cmpIzx b1, [0xC1, b1], .mem (.izx b1), 6, false⟩,
   ⟨.cmpIzy b1, [0xD1, b1], .mem (.izy b1), 5, true⟩]

/-- The encodings of CPX (R172). -/
def cpxForms (b1 b2 : Byte) : List ReadForm :=
  [⟨.cpxImm b1, [0xE0, b1], .imm b1, 2, false⟩,
   ⟨.cpxZp b1, [0xE4, b1], .mem (.zp b1), 3, false⟩,
   ⟨.cpxAbs (mkWord b2 b1), [0xEC, b1, b2], .mem (.abs (mkWord b2 b1)), 4, false⟩]

/-- The encodings of CPY (R173). -/
def cpyForms (b1 b2 : Byte) : List ReadForm :=
  [⟨.cpyImm b1, [0xC0, b1], .imm b1, 2, false⟩,
   ⟨.cpyZp b1, [0xC4, b1], .mem (.zp b1), 3, false⟩,
   ⟨.cpyAbs (mkWord b2 b1), [0xCC, b1, b2], .mem (.abs (mkWord b2 b1)), 4, false⟩]

/-- The encodings of STA (R144). -/
def staForms (b1 b2 : Byte) : List WriteForm :=
  [⟨.staZp b1, [0x85, b1], .zp b1, 3⟩,
   ⟨.staZpx b1, [0x95, b1], .zpx b1, 4⟩,
   ⟨.staAbs (mkWord b2 b1), [0x8D, b1, b2], .abs (mkWord b2 b1), 4⟩,
   ⟨.staAbx (mkWord b2 b1), [0x9D, b1, b2], .abx (mkWord b2 b1), 5⟩,
   ⟨.staAby (mkWord b2 b1), [0x99, b1, b2], .aby (mkWord b2 b1), 5⟩,
   ⟨.staIzx b1, [0x81, b1], .izx b1, 6⟩,
   ⟨.staIzy b1, [0x91, b1], .izy b1, 6⟩]

/-- The encodings of STX (R145). -/
def stxForms (b1 b2 : Byte) : List WriteForm :=
  [⟨.stxZp b1, [0x86, b1], .zp b1, 3⟩,
   ⟨.stxZpy b1, [0x96, b1], .zpy b1, 4⟩,
   ⟨.stxAbs (mkWord b2 b1), [0x8E, b1, b2], .abs (mkWord b2 b1), 4⟩]

/-- The encodings of STY (R146). -/
def styForms (b1 b2 : Byte) : List WriteForm :=
  [⟨.styZp b1, [0x84, b1], .zp b1, 3⟩,
   ⟨.styZpx b1, [0x94, b1], .zpx b1, 4⟩,
   ⟨.styAbs (mkWord b2 b1), [0x8C, b1, b2], .abs (mkWord b2 b1), 4⟩]

/-- The encodings of INC (R181). -/
def incForms (b1 b2 : Byte) : List WriteForm :=
  [⟨.incZp b1, [0xE6, b1], .zp b1, 5⟩,
   ⟨.incZpx b1, [0xF6, b1], .zpx b1, 6⟩,
   ⟨.incAbs (mkWord b2 b1), [0xEE, b1, b2], .abs (mkWord b2 b1), 6⟩,
   ⟨.incAbx (mkWord b2 b1), [0xFE, b1, b2], .abx (mkWord b2 b1), 7⟩]

/-- The encodings of DEC (R184). -/
def decForms (b1 b2 : Byte) : List WriteForm :=
  [⟨.decZp b1, [0xC6, b1], .zp b1, 5⟩,
   ⟨.decZpx b1, [0xD6, b1], .zpx b1, 6⟩,
   ⟨.decAbs (mkWord b2 b1), [0xCE, b1, b2], .abs (mkWord b2 b1), 6⟩,
   ⟨.decAbx (mkWord b2 b1), [0xDE, b1, b2], .abx (mkWord b2 b1), 7⟩]

/-- The encodings of ASL (R187). -/
def aslForms (b1 b2 : Byte) : List WriteForm :=
  [⟨.aslZp b1, [0x06, b1], .zp b1, 5⟩,
   ⟨.aslZpx b1, [0x16, b1], .zpx b1, 6⟩,
   ⟨.aslAbs (mkWord b2 b1), [0x0E, b1, b2], .abs (mkWord b2 b1), 6⟩,
   ⟨.aslAbx (mkWord b2 b1), [0x1E, b1, b2], .abx (mkWord b2 b1), 7⟩]

/-- The encodings of LSR (R188). -/
def lsrForms (b1 b2 : Byte) : List WriteForm :=
  [⟨.lsrZp b1, [0x46, b1], .zp b1, 5⟩,
   ⟨.lsrZpx b1, [0x56, b1], .zpx b1, 6⟩,
   ⟨.lsrAbs (mkWord b2 b1), [0x4E, b1, b2], .abs (mkWord b2 b1), 6⟩,
   ⟨.lsrAbx (mkWord b2 b1), [0x5E, b1, b2], .abx (mkWord b2 b1), 7⟩]

/-- The encodings of ROL (R189). -/
def rolForms (b1 b2 : Byte) : List WriteForm :=
  [⟨.rolZp b1, [0x26, b1], .zp b1, 5⟩,
   ⟨.rolZpx b1, [0x36, b1], .zpx b1, 6⟩,
   ⟨.rolAbs (mkWord b2 b1), [0x2E, b1, b2], .abs (mkWord b2 b1), 6⟩,
   ⟨.rolAbx (mkWord b2 b1), [0x3E, b1, b2], .abx (mkWord b2 b1), 7⟩]

/-- The encodings of ROR (R190). -/
def rorForms (b1 b2 : Byte) : List WriteForm :=
  [⟨.rorZp b1, [0x66, b1], .zp b1, 5⟩,
   ⟨.rorZpx b1, [0x76, b1], .zpx b1, 6⟩,
   ⟨.rorAbs (mkWord b2 b1), [0x6E, b1, b2], .abs (mkWord b2 b1), 6⟩,
   ⟨.rorAbx (mkWord b2 b1), [0x7E, b1, b2], .abx (mkWord b2 b1), 7⟩]

/-- Every read instruction that writes the accumulator and its flags `Z` and `N` only. -/
def loadLogicForms (b1 b2 : Byte) : List ReadForm :=
  ldaForms b1 b2 ++ andForms b1 b2 ++ oraForms b1 b2 ++ eorForms b1 b2

/-- The instructions that only test or compare an operand. -/
def testForms (b1 b2 : Byte) : List ReadForm :=
  bitForms b1 b2 ++ cmpForms b1 b2 ++ cpxForms b1 b2 ++ cpyForms b1 b2

/-- Every read instruction (R113: "Read class"). -/
def readForms (b1 b2 : Byte) : List ReadForm :=
  loadLogicForms b1 b2 ++ adcForms b1 b2 ++ sbcForms b1 b2 ++ ldxForms b1 b2 ++ ldyForms b1 b2 ++ testForms b1 b2

/-- Every store (R113: "Store class"). -/
def storeForms (b1 b2 : Byte) : List WriteForm := staForms b1 b2 ++ stxForms b1 b2 ++ styForms b1 b2

/-- Every read-modify-write on memory (R113: "RMW class"). -/
def rmwForms (b1 b2 : Byte) : List WriteForm :=
  incForms b1 b2 ++ decForms b1 b2 ++ aslForms b1 b2 ++ lsrForms b1 b2 ++ rolForms b1 b2 ++ rorForms b1 b2

/-- THE RULE OF A READ INSTRUCTION. In every encoding its rule lists, with every operand byte and from every state: these
are its bytes, and it answers the state its one operand read leaves, with the CPU changed as `effect` says of the CPU it
started from (`PC` already past the instruction) and the operand, and the base cost plus the penalty added to `cyc`. -/
def ReadRule (forms : Byte → Byte → List ReadForm) (effect : Cpu → Byte → Cpu) : Prop :=
  ∀ (b1 b2 : Byte) (s : State), ∀ r ∈ forms b1 b2,
    encode r.instr = r.bytes ∧
      exec r.instr s = .next
        { (readSource r.src (past r.bytes.length s)).state with
          cpu :=
            { effect (past r.bytes.length s).cpu (readSource r.src (past r.bytes.length s)).value with
              cyc := s.cpu.cyc + r.base +
                if r.penalty && (readSource r.src (past r.bytes.length s)).crossed then 1 else 0 } }

/-- The cycles a write to `ea` adds when its instruction ends, without it, at cycle `c` (R447). -/
def transferCost (ea : Word) (c : Nat) (cfg : Cfg) : Nat :=
  if ea = 0x4014 ∧ cfg.oamDmaCharged = true then 513 + c % 2 else 0

/-- THE RULE OF A STORE. In every encoding: these are its bytes, and it answers the state of one bus write of the register
at the effective address, nothing read there first; `PC` moves past the instruction and `cyc` by the fixed cost and what a
transfer adds; no other CPU field changes. -/
def StoreRule (forms : Byte → Byte → List WriteForm) (reg : Cpu → Byte) : Prop :=
  ∀ (b1 b2 : Byte) (s : State), ∀ r ∈ forms b1 b2,
    encode r.instr = r.bytes ∧
      exec r.instr s = .next
        { busWrite (resolve r.mode (past r.bytes.length s)).ea (reg s.cpu)
            (resolve r.mode (past r.bytes.length s)).state with
          cpu :=
            { s.cpu with
              pc := s.cpu.pc + BitVec.ofNat 16 r.bytes.length
              cyc := s.cpu.cyc + r.base +
                transferCost (resolve r.mode (past r.bytes.length s)).ea (s.cpu.cyc + r.base) s.cfg } }

/-- THE RULE OF A READ-MODIFY-WRITE on memory: one read of the cell, one write of the same cell with the result `op` gives of
the byte read and the flags before, the flags it gives, and the fixed cost. -/
def RmwRule (forms : Byte → Byte → List WriteForm) (op : Byte → Flags → Byte × Flags) : Prop :=
  ∀ (b1 b2 : Byte) (s : State), ∀ r ∈ forms b1 b2,
    encode r.instr = r.bytes ∧
      ∀ e d, e = resolve r.mode (past r.bytes.length s) → d = busRead e.ea e.state →
        exec r.instr s = .next
          { busWrite e.ea (op d.value s.cpu.flags).1 d.state with
            cpu :=
              { s.cpu with
                pc := s.cpu.pc + BitVec.ofNat 16 r.bytes.length
                flags := (op d.value s.cpu.flags).2
                cyc := s.cpu.cyc + r.base + transferCost e.ea (s.cpu.cyc + r.base) s.cfg } }

/-- THE RULE OF A ONE-BYTE INSTRUCTION that touches the CPU alone: its byte, and it answers the same machine with the CPU
changed as `effect` says, `PC` one higher and `cyc` higher by its cost. -/
def CpuRule (i : Instr) (op : Byte) (cost : Nat) (effect : Cpu → Cpu) : Prop :=
  encode i = [op] ∧
    ∀ s : State, exec i s = .next
      { s with cpu := { effect s.cpu with pc := s.cpu.pc + 1, cyc := s.cpu.cyc + cost } }

/-- The cell of the stack byte `SP` names: address `0x0100 + SP` (R22). -/
def stackCell (sp : Byte) : Nat := 256 + sp.toNat

/-- The storage after bytes are pushed, the first one first: each at the cell of the current `SP`, which then goes down by
one modulo 256 (R8, R150). -/
def pushed : List Byte → Byte → Memory → Memory
  | [], _, m => m
  | b :: rest, sp, m => pushed rest (sp - 1) (writeCell .cpu m (stackCell sp) b)

/-- The byte on the stack `k` above `SP`, which the `k`th pull reads (R8, R150). -/
def stacked (s : State) (k : Byte) : Byte := readCell .cpu s.mem (stackCell (s.cpu.sp + k))

/-- The PRG byte at a CPU address of 0x8000 or above (R441). -/
def prgByte (s : State) (a : Word) : Byte :=
  readCell .cpu s.mem (0x8000 + (a.toNat - 0x8000) % (match s.cart.prgSize with | .k16 => 16384 | .k32 => 32768))

/-- The byte image of the flags, `N V 1 b D I Z C` from bit 7 to bit 0 (R25), as a number. -/
def packed (f : Flags) (b : Bool) : Byte :=
  BitVec.ofNat 8 (128 * f.n.toNat + 64 * f.v.toNat + 32 + 16 * b.toNat + 8 * f.d.toNat + 4 * f.i.toNat +
    2 * f.z.toNat + f.c.toNat)

/-- The flags a byte gives back: bits 7, 6, 3, 2, 1, 0 (R25). -/
def unpacked (v : Byte) : Flags :=
  { n := v.getLsbD 7, v := v.getLsbD 6, d := v.getLsbD 3, i := v.getLsbD 2, z := v.getLsbD 1, c := v.getLsbD 0 }

/-- The two's-complement reading of a byte, -128..127 (R7: `signed8`). -/
def signed8 (b : Byte) : Int := if b.toNat < 128 then (b.toNat : Int) else (b.toNat : Int) - 256

/-- The 105 bytes that are not opcodes, row by row as R112 lists them. -/
def illegalBytes : List Byte :=
  [0x02, 0x03, 0x04, 0x07, 0x0B, 0x0C, 0x0F, 0x12, 0x13, 0x14, 0x17, 0x1A, 0x1B, 0x1C, 0x1F, 0x22,
   0x23, 0x27, 0x2B, 0x2F, 0x32, 0x33, 0x34, 0x37, 0x3A, 0x3B, 0x3C, 0x3F, 0x42, 0x43, 0x44, 0x47] ++
  [0x4B, 0x4F, 0x52, 0x53, 0x54, 0x57, 0x5A, 0x5B, 0x5C, 0x5F, 0x62, 0x63, 0x64, 0x67, 0x6B, 0x6F,
   0x72, 0x73, 0x74, 0x77, 0x7A, 0x7B, 0x7C, 0x7F, 0x80, 0x82, 0x83, 0x87, 0x89, 0x8B, 0x8F, 0x92] ++
  [0x93, 0x97, 0x9B, 0x9C, 0x9E, 0x9F, 0xA3, 0xA7, 0xAB, 0xAF, 0xB2, 0xB3, 0xB7, 0xBB, 0xBF, 0xC2,
   0xC3, 0xC7, 0xCB, 0xCF, 0xD2, 0xD3, 0xD4, 0xD7, 0xDA, 0xDB, 0xDC, 0xDF, 0xE2, 0xE3, 0xE7, 0xEB] ++
  [0xEF, 0xF2, 0xF3, 0xF4, 0xF7, 0xFA, 0xFB, 0xFC, 0xFF]

/-- The bytes `bytes` are stored at the addresses from `a` on. -/
def StoredAt (s : State) (a : Word) (bytes : List Byte) : Prop :=
  ∀ k, k < bytes.length → storedByte s (a + BitVec.ofNat 16 k) = some (bytes.getD k 0)

/-- The sum of ADC and SBC (R169, R170): nine bits. -/
def sum9 (a m : Byte) (c : Bool) : Nat := a.toNat + m.toNat + if c then 1 else 0

/-- ADC of `m` on the CPU (R169): the sum modulo 256, `C` its bit 8, `V` from `(A ^ r) & (M ^ r) & 0x80`. -/
def added (c : Cpu) (m : Byte) : Cpu :=
  let r : Byte := BitVec.ofNat 8 (sum9 c.a m c.flags.c % 256)
  { c with
    a := r
    flags := { nz r c.flags with
      c := decide (sum9 c.a m c.flags.c > 255)
      v := decide ((c.a ^^^ r) &&& (m ^^^ r) &&& 0x80 ≠ 0) } }

/-- A compare of a register's value (R171): `C` is `R >= M` unsigned, `Z` and `N` from the difference modulo 256. -/
def compared (r m : Byte) (f : Flags) : Flags :=
  { nz (BitVec.ofNat 8 ((r.toNat + 256 - m.toNat) % 256)) f with c := decide (r.toNat ≥ m.toNat) }

/-- INC (R181). -/
def inc (v : Byte) (f : Flags) : Byte × Flags :=
  (BitVec.ofNat 8 ((v.toNat + 1) % 256), nz (BitVec.ofNat 8 ((v.toNat + 1) % 256)) f)
/-- DEC (R184). -/
def dec (v : Byte) (f : Flags) : Byte × Flags :=
  (BitVec.ofNat 8 ((v.toNat + 255) % 256), nz (BitVec.ofNat 8 ((v.toNat + 255) % 256)) f)
/-- A shift or rotate result with the bit that goes to `C`. -/
def shifted (r : Nat) (c : Bool) (f : Flags) : Byte × Flags :=
  (BitVec.ofNat 8 r, { nz (BitVec.ofNat 8 r) f with c := c })
/-- ASL (R187). -/
def asl (v : Byte) (f : Flags) : Byte × Flags := shifted (v.toNat * 2 % 256) (v.getLsbD 7) f
/-- LSR (R188). -/
def lsr (v : Byte) (f : Flags) : Byte × Flags := shifted (v.toNat / 2) (v.getLsbD 0) f
/-- ROL (R189). -/
def rol (v : Byte) (f : Flags) : Byte × Flags := shifted (v.toNat * 2 % 256 + f.c.toNat) (v.getLsbD 7) f
/-- ROR (R190). -/
def ror (v : Byte) (f : Flags) : Byte × Flags := shifted (v.toNat / 2 + 128 * f.c.toNat) (v.getLsbD 0) f

/-- A register form of an increment, a decrement or a shift: the register and the flags, cost 2 (R180). -/
def RegisterRule (i : Instr) (byte : Byte) (op : Byte → Flags → Byte × Flags) (get : Cpu → Byte)
    (set : Cpu → Byte → Cpu) : Prop :=
  CpuRule i byte 2 fun c => { set c (op (get c) c.flags).1 with flags := (op (get c) c.flags).2 }

/-- The common rule of the branches (R200), for one branch: its opcode, and the flag value it tests. -/
def BranchRule (mk : Byte → Instr) (op : Byte) (cond : Flags → Bool) : Prop :=
  ∀ (b1 : Byte) (s : State) (next target : Word),
    next = BitVec.ofNat 16 ((s.cpu.pc.toNat + 2) % 65536) →
    target = BitVec.ofInt 16 ((next.toNat : Int) + signed8 b1) →
    encode (mk b1) = [op, b1] ∧
      exec (mk b1) s = .next
        { s with
          cpu := { s.cpu with
            pc := if cond s.cpu.flags then target else next
            cyc := s.cpu.cyc + 2 +
              if cond s.cpu.flags then (if target.toNat / 256 ≠ next.toNat / 256 then 2 else 1) else 0 } }

/-- The unit's fields that only register writes and ticks change: all but what the reads of registers 2 and 7 change. -/
def SameBesideReads (u v : Video) : Prop :=
  { v with vbl := u.vbl, w := u.w, v := u.v, rbuf := u.rbuf } = u

/-- The cell of video memory behind an address (R332 to R334): pattern memory, a physical name table, a palette slot. -/
def videoCell (m : Mirroring) (addr : Nat) : Space × Nat :=
  let a := addr % 16384
  if a < 0x2000 then (.chrRam, a)
  else if a < 0x3F00 then
    (.nameTable,
      a % 1024 + match m with
        | .horizontal => if a % 4096 < 2048 then 0 else 1024
        | .vertical => if a % 2048 < 1024 then 0 else 1024)
  else (.palette, if a % 4 = 0 then a % 16 else a % 32)

/-- `dot` and `scanline` one tick on (R340). -/
def movedOn (u : Video) : Video :=
  if u.dot = 340 then { u with dot := 0, scanline := if u.scanline = 261 then 0 else u.scanline + 1 }
  else { u with dot := u.dot + 1 }

/-- The sprites of the line: how many entries cover a scanline (R351, R357). -/
def spriteCount (u : Video) (y : Nat) : Nat :=
  ((List.range 64).filter fun i =>
    decide ((oamByte u (4 * i)).toNat < y ∧ y ≤ (oamByte u (4 * i)).toNat + if u.ctrl.getLsbD 5 then 16 else 8)).length

/-- The sprites that can be drawn at a pixel (R346): none where sprites are hidden, else the first eight of the line. -/
def shownSprites (u : Video) (x y : Nat) : List Nat :=
  if u.mask.getLsbD 4 = true ∧ (8 ≤ x ∨ u.mask.getLsbD 2 = true) then (spritesOnLine u y).take 8 else []

/-- The colour a background pixel alone gives (R346, R354). -/
def backgroundColour (u : Video) (bg : BgPixel) : Byte :=
  if bg.value = 0 then palByte u 0 else palByte u (4 * bg.palette + bg.value)

/-- The half-frame clocks a sequencer restarted at count 0 has given after `n` audio cycles of its first sequence
(R404, R407). -/
def halfClocks (fsMode : Bool) (n : Nat) : Nat :=
  if n < 14913 then 0 else if n < (if fsMode then 37281 else 29829) then 1 else 2

/-- The length table of R384. -/
def lengthTable : List Nat :=
  [10, 254, 20, 2, 40, 4, 80, 6, 160, 8, 60, 10, 14, 12, 26, 14] ++
  [12, 16, 24, 18, 48, 20, 96, 22, 192, 24, 72, 26, 16, 28, 32, 30]

/-- The length a write of a channel's fourth register leaves (R385 to R387). -/
def loadedLength (enabled : Bool) (old val : Byte) : Byte :=
  if enabled then BitVec.ofNat 8 (lengthTable.getD (val.toNat / 8) 0) else old

/-- The rule of a pulse channel's four registers (R385): `set` puts the channel back into the unit. -/
def PulseRule (base : Nat) (get : Audio → Pulse) (set : Audio → Pulse → Audio) : Prop :=
  ∀ (v : Byte) (s : State),
    busWrite (BitVec.ofNat 16 base) v s =
        { s with
          bus := { s.bus with latch := v }
          audio := set s.audio { get s.audio with
            duty := BitVec.ofNat 2 (v.toNat / 64), halt := v.getLsbD 5, constVol := v.getLsbD 4,
            vol := BitVec.ofNat 4 (v.toNat % 16) } } ∧
      busWrite (BitVec.ofNat 16 (base + 1)) v s =
        { s with bus := { s.bus with latch := v }, audio := set s.audio { get s.audio with sweepReg := v } } ∧
      busWrite (BitVec.ofNat 16 (base + 2)) v s =
        { s with
          bus := { s.bus with latch := v }
          audio := set s.audio { get s.audio with
            period := BitVec.ofNat 11 ((get s.audio).period.toNat / 256 * 256 + v.toNat) } } ∧
      busWrite (BitVec.ofNat 16 (base + 3)) v s =
        { s with
          bus := { s.bus with latch := v }
          audio := set s.audio { get s.audio with
            period := BitVec.ofNat 11 (v.toNat % 8 * 256 + (get s.audio).period.toNat % 256)
            length := loadedLength (get s.audio).enabled (get s.audio).length v
            pos := 0
            start := true } }

/-- A pulse channel with every field 0 (R39). -/
def pulseAtPowerOn : Pulse :=
  { duty := 0, halt := false, constVol := false, vol := 0, period := 0, timer := 0, pos := 0, length := 0,
    enabled := false, start := false, div := 0, decay := 0, sweepReg := 0 }

/-- The audio unit at power-on (R39, R40, R45): every field 0 but `noise.lfsr = 1`, no samples. -/
def audioAtPowerOn : Audio :=
  { pulse0 := pulseAtPowerOn, pulse1 := pulseAtPowerOn,
    tri := { period := 0, timer := 0, pos := 0, length := 0, halt := false, enabled := false, linReg := 0 },
    noise := { mode := false, idx := 0, timer := 0, lfsr := 1, length := 0, halt := false, constVol := false, vol := 0,
               enabled := false, start := false, div := 0, decay := 0 },
    sample := { level := 0, reg0 := 0, reg1 := 0, reg2 := 0, reg3 := 0 },
    fsMode := false, fsInhibit := false, fsCount := 0, apuCycle := 0, samplesRev := [] }

/-- One envelope clock (R405): `start`, `div` and `decay` of a channel afterwards, from those before, its volume and its
loop flag. -/
def envelopeAfter (start : Bool) (div decay vol : Nat) (halt : Bool) : Bool × Nat × Nat :=
  if start then (false, vol, 15)
  else if div = 0 then (false, vol, if 0 < decay then decay - 1 else if halt then 15 else 0)
  else (false, div - 1, decay)

/-- The rows of the duty table (R391), as bits. -/
def dutyRows : List (List Nat) :=
  [[0, 1, 0, 0, 0, 0, 0, 0], [0, 1, 1, 0, 0, 0, 0, 0], [0, 1, 1, 1, 1, 0, 0, 0], [1, 0, 0, 1, 1, 1, 1, 1]]

/-- `EnvOut` (R410). -/
def envelopeLevel (constVol : Bool) (vol decay : Nat) : Nat := if constVol then vol else decay

/-- The output of a pulse channel (R410). -/
def pulseLevel (p : Pulse) : Nat :=
  if 0 < p.length.toNat ∧ (dutyRows.getD p.duty.toNat []).getD p.pos.toNat 0 = 1 then
    envelopeLevel p.constVol p.vol.toNat p.decay.toNat
  else 0

/-- The output of the triangle channel (R393, R410): 15 down to 0, then 0 up to 15. -/
def triangleLevel (t : Triangle) : Nat := if t.pos.toNat < 16 then 15 - t.pos.toNat else t.pos.toNat - 16

/-- The output of the noise channel (R410). -/
def noiseLevel (n : Noise) : Nat :=
  if 0 < n.length.toNat ∧ n.lfsr.toNat % 2 = 0 then envelopeLevel n.constVol n.vol.toNat n.decay.toNat else 0

/-- The reference mixing formula (R420), over the rationals. -/
def referenceMix (p0 p1 t n d : Rat) : Rat :=
  (if p0 + p1 = 0 then 0 else (95 + 88 / 100) / (8128 / (p0 + p1) + 100)) +
    if t / 8227 + n / 12241 + d / 22638 = 0 then 0
    else (159 + 79 / 100) / (1 / (t / 8227 + n / 12241 + d / 22638) + 100)

/-- Bit 0 of `n` successive reads of a controller port (R451). -/
def portBits : Nat → Word → State → List Bool
  | 0, _, _ => []
  | n + 1, a, s => (busRead a s).value.getLsbD 0 :: portBits n a (busRead a s).state

/-- The machine after the ticks of `c` cycles (R300): from the units as the CPU step left them, `3 * c` video ticks, then `c`
audio ticks; the line the video ticks leave is the bus's. -/
def ticked (c : Nat) (s : State) : State :=
  { s with
    video := (Nat.iterate (videoTick s.cfg s.cart) (3 * c) { unit := s.video, line := s.bus.intLine }).unit
    bus := { s.bus with
      intLine := (Nat.iterate (videoTick s.cfg s.cart) (3 * c) { unit := s.video, line := s.bus.intLine }).line }
    audio := Nat.iterate (audioTick s.cfg) c s.audio }

/-- Video register 2 and its mirrors (R65, R327). -/
def isStatusRegister (a : Word) : Bool := decide (0x2000 ≤ a.toNat) && decide (a.toNat ≤ 0x3FFF) && a.toNat % 8 == 2

/-- A page of video registers, which has register 2 in it (R65, R446). -/
def isVideoPage (p : Byte) : Bool := decide (0x20 ≤ p.toNat) && decide (p.toNat ≤ 0x3F)

/-- A read instruction's operand is video register 2. -/
def readsStatus (src : Source) (s : State) : Bool :=
  match src with
  | .imm _ => false
  | .mem m => isStatusRegister (resolve m s).ea

/-- The line after a store: as before, unless it starts a transfer of video registers. -/
def LineAfterStore (forms : Byte → Byte → List WriteForm) (reg : Cpu → Byte) : Prop :=
  ∀ (b1 b2 : Byte) (s t : State), ∀ r ∈ forms b1 b2, exec r.instr s = .next t →
    ∀ ea, ea = (resolve r.mode (past r.bytes.length s)).ea →
      t.bus.intLine = (s.bus.intLine && !(decide (ea = 0x4014) && isVideoPage (reg s.cpu)))

/-- The line after a read-modify-write on memory: lowered by the read of video register 2, or by a transfer of video
registers that its write starts. -/
def LineAfterRmw (forms : Byte → Byte → List WriteForm) (op : Byte → Flags → Byte × Flags) : Prop :=
  ∀ (b1 b2 : Byte) (s t : State), ∀ r ∈ forms b1 b2, exec r.instr s = .next t →
    ∀ e d, e = resolve r.mode (past r.bytes.length s) → d = busRead e.ea e.state →
      t.bus.intLine =
        (s.bus.intLine && !isStatusRegister e.ea &&
          !(decide (e.ea = 0x4014) && isVideoPage (op d.value s.cpu.flags).1))

/-- Every instruction that is no read, no store and no read-modify-write on memory. -/
def otherForms (w : Word) (b : Byte) : List Instr :=
  [.pha, .php, .pla, .plp, .jmpAbs w, .jmpInd w, .jsr w, .rts, .brk, .rti, .bpl b, .bmi b, .bvc b, .bvs b, .bcc b, .bcs b,
    .bne b, .beq b] ++
  [.tax, .tay, .txa, .tya, .tsx, .txs, .inx, .iny, .dex, .dey, .aslAcc, .lsrAcc, .rolAcc, .rorAcc, .clc, .sec, .cli, .sei,
    .clv, .cld, .sed, .nop]

/-- One byte stored by `OamStore` (R326). -/
def oamStored (v : Byte) (s : State) : State :=
  { s with
    video := { s.video with
      oam := writeCell .oam s.video.oam s.video.oamAddr.toNat
        (if s.video.oamAddr.toNat % 4 = 2 then v &&& 0xE3 else v)
      oamAddr := s.video.oamAddr + 1 } }

/-- The machine after the first `n` bytes of a transfer of page `p` (R446): each read on the bus, then stored. -/
def transferred (p : Byte) : Nat → State → State
  | 0, s => s
  | n + 1, s =>
    oamStored (busRead (mkWord p (BitVec.ofNat 8 n)) (transferred p n s)).value
      (busRead (mkWord p (BitVec.ofNat 8 n)) (transferred p n s)).state

/-- The instruction to be run writes the transfer register, and the transfer is charged (R446, R447). -/
def ChargedTransfer (h : State) : Prop :=
  (h.bus.intLine && (!h.cpu.flags.i || !h.cfg.intMaskable)) = false ∧ h.cfg.oamDmaCharged = true ∧
    ∃ (b1 b2 : Byte) (f : State), ∃ r ∈ storeForms b1 b2 ++ rmwForms b1 b2,
      fetch h = .instr r.instr f ∧ (resolve r.mode (past r.bytes.length f)).ea = 0x4014

/-- The bits of a read that come from the latch, and no others do (R73). -/
def openBits (s : State) (a : Word) : Byte :=
  if 0x2000 ≤ a.toNat ∧ a.toNat ≤ 0x3FFF then
    (if a.toNat % 8 = 2 then 0x1F
      else if a.toNat % 8 = 4 then 0
      else if a.toNat % 8 = 7 then (if 0x3F00 ≤ s.video.v.toNat then 0xC0 else 0)
      else 0xFF)
  else if a = 0x4015 then 0x20
  else if a = 0x4016 ∨ a = 0x4017 then 0xE0
  else if (storageCell s a).isSome then 0
  else 0xFF

/-- `PatternBit(base, fx)` (R349), from the bytes of pattern memory. -/
def planeBits (chr : Nat → Byte) (base fx : Nat) : Nat :=
  2 * ((chr (base + 8)).toNat / 2 ^ (7 - fx) % 2) + (chr base).toNat / 2 ^ (7 - fx) % 2

/-- The attribute byte's palette number for a tile (R348): the two bits of its quadrant of the block of 4 x 4 tiles. -/
def quadrant (attr : Byte) (row col : Nat) : Nat :=
  match row / 2 % 2, col / 2 % 2 with
  | 0, 0 => attr.toNat % 4
  | 0, _ => attr.toNat / 4 % 4
  | _, 0 => attr.toNat / 16 % 4
  | _, _ => attr.toNat / 64

/-- `BgPixel` (R347): the pixel at (`px`, `py`) of the plane of the four logical name tables. -/
def planePixel (cart : Cart) (u : Video) (px py : Nat) : BgPixel :=
  let table := 0x2000 + 1024 * (px / 256 + 2 * (py / 240))
  let col := px % 256 / 8
  let row := py % 240 / 8
  { value := planeBits (chrByte cart u)
      ((if u.ctrl.getLsbD 4 then 4096 else 0) + 16 * (videoMemRead cart u (table + 32 * row + col)).toNat + py % 8) (px % 8)
    palette := quadrant (videoMemRead cart u (table + 0x3C0 + 8 * (row / 4) + col / 4)) row col }

/-- The byte address of one row of a sprite's tile (R352), in 8 x 8 and in 8 x 16 mode. -/
def spriteRow (u : Video) (tile row : Nat) : Nat :=
  if u.ctrl.getLsbD 5 then 4096 * (tile % 2) + 16 * (tile - tile % 2 + row / 8) + row % 8
  else (if u.ctrl.getLsbD 3 then 4096 else 0) + 16 * tile + row

/-- `SpritePixel` (R352) at `row` and `col` of the sprite, as integers: 0 outside, flipped as its attributes say. -/
def spriteBits (cart : Cart) (u : Video) (i : Nat) (row col : Int) : Nat :=
  let h : Int := if u.ctrl.getLsbD 5 then 16 else 8
  if 0 ≤ row ∧ row < h ∧ 0 ≤ col ∧ col < 8 then
    planeBits (chrByte cart u)
      (spriteRow u (oamByte u (4 * i + 1)).toNat
        (if (oamByte u (4 * i + 2)).getLsbD 7 then h - 1 - row else row).toNat)
      (if (oamByte u (4 * i + 2)).getLsbD 6 then 7 - col else col).toNat
  else 0

/-- A controller port's read (R451): bit 0 live while the strobe is 1, else shifted out and 1 shifted in at the top; bits 4..1
are 0, bits 7..5 the latch's. -/
def PortRule (a : Word) (pad shift : Input → Byte) (set : Input → Byte → Input) : Prop :=
  ∀ (s : State) (value : Byte),
    value = BitVec.ofNat 8 (s.bus.latch.toNat / 32 * 32 +
      (if s.input.strobe then pad s.input else shift s.input).toNat % 2) →
    busRead a s =
      { value := value
        state := { s with
          bus := { s.bus with latch := value }
          input := if s.input.strobe then s.input
            else set s.input (BitVec.ofNat 8 ((shift s.input).toNat / 2 + 128)) } }

end Sys2Proof.Claims

open Sys2Proof Sys2Proof.Machine Sys2Proof.Claims

/-! ## Encoding -/

/-- R101, R111, R115: the decoder reads `bytes` as `i` with `rest` left over exactly when `bytes` are `i`'s encoding followed
by `rest`, whatever that is: no operand bit is lost, nothing but an encoding is accepted, and an instruction has as many
bytes as R113 gives its form. -/
def Obligations.DecodeReadsBackEncode : Prop :=
  ∀ (i : Instr) (bytes rest : List Byte),
    (decode bytes = .ok i rest ↔ bytes = encode i ++ rest) ∧ (encode i).length = i.length

/-- R112: 105 different bytes are no opcode, and the decoder refuses exactly those by that name, whatever follows. -/
def Obligations.IllegalBytesAreTheListOf105 : Prop :=
  illegalBytes.length = 105 ∧ illegalBytes.Nodup ∧
    ∀ (op : Byte) (rest : List Byte), decode (op :: rest) = .reject (.illegalOpcode op) ↔ op ∈ illegalBytes

/-- Words of the spec's own examples (R141, R144, R158, R170, R187, R197, R200, R225) decode to what they stand for. -/
def Obligations.WordsWrittenOutDecode : Prop :=
  decode [0xBD, 0xF0, 0x02] = .ok (.ldaAbx 0x02F0) [] ∧
    decode [0x91, 0x10] = .ok (.staIzy 0x10) [] ∧
    decode [0x08] = .ok .php [] ∧
    decode [0xE9, 0x01] = .ok (.sbcImm 0x01) [] ∧
    decode [0x0A] = .ok .aslAcc [] ∧
    decode [0x6C, 0xFF, 0x02] = .ok (.jmpInd 0x02FF) [] ∧
    decode [0xD0, 0xFE, 0xEA] = .ok (.bne 0xFE) [0xEA] ∧
    decode [0x00] = .ok .brk []

/-! ## The step -/

/-- A STEP RUNS THE DECODED INSTRUCTION (R100, R270, R300): on a machine that has not faulted, when after the host's calls
no interrupt is due and the bytes stored at `PC` decode to `i`, the step is `i` executed from that state with the last byte
fetched on the latch, then, for the cycles `i` added to `cyc`, three video ticks each from the unit and the line as `i`
left them, and then one audio tick each; the line the ticks leave is the bus's. The runs of ticks that other statements
speak of are those repeated ticks. -/
def Obligations.StepRunsDecodedInstruction : Prop :=
  (∀ (s h u : State) (bytes : List Byte) (i : Instr),
      s.cpu.fault = none → h = takeHostCalls s → (h.bus.intLine && (!h.cpu.flags.i || !h.cfg.intMaskable)) = false →
      decode bytes = .ok i [] → StoredAt h h.cpu.pc bytes →
      exec i { h with bus := { h.bus with latch := bytes.getLastD 0 } } = .next u →
      step s = .next (ticked (u.cpu.cyc - h.cpu.cyc) u)) ∧
    (∀ (c : Nat) (s : State), tickUnits c s = ticked c s) ∧
    (∀ (cfg : Cfg) (cart : Cart) (n : Nat) (t : TickState),
      videoTicks cfg cart n t = Nat.iterate (videoTick cfg cart) n t) ∧
    ∀ (cfg : Cfg) (n : Nat) (a : Audio), audioTicks cfg n a = Nat.iterate (audioTick cfg) n a

/-- R75, R83, R100: the fetch is bus reads at `PC`, `PC + 1` and `PC + 2`, of as many bytes as the opcode asks for,
from any address, registers and open bus too. -/
def Obligations.FetchIsBusReads : Prop :=
  ∀ (s : State) (n : Nat) (i : Instr),
    decode ((busRead s.cpu.pc s).value :: (readBytes n (s.cpu.pc + 1) (busRead s.cpu.pc s).state).bytes) = .ok i [] →
    fetch s = .instr i (readBytes n (s.cpu.pc + 1) (busRead s.cpu.pc s).state).state

/-- R261: where the byte at `PC` is one of the 105, the step is `DecodeError` with that byte and `PC`; the read happened, so
the latch holds the byte and a register there has had its read effect; the fault record is written, and no other CPU field:
`PC`, `SP`, `A`, `X`, `Y`, the flags and `cyc` are as before. Storage, the audio unit and, away from a video register, the
interrupt line are unchanged (at video register 2 the read clears the line: `notes/assumptions/13.md`). -/
def Obligations.IllegalOpcodeRaisesDecodeError : Prop :=
  ∀ (s h : State) (op : Byte),
    s.cpu.fault = none → h = takeHostCalls s → (h.bus.intLine && (!h.cpu.flags.i || !h.cfg.intMaskable)) = false →
    (busRead h.cpu.pc h).value = op → op ∈ illegalBytes →
    ∃ after : State,
      step s = .fault (.decodeError op s.cpu.pc after) ∧
        after =
          { (busRead h.cpu.pc h).state with
            cpu := { s.cpu with fault := some { opcode := op, address := s.cpu.pc } } } ∧
        after.bus.latch = op ∧ after.mem = s.mem ∧ after.audio = h.audio ∧
        (region s.cpu.pc ≠ .video → after.bus.intLine = s.bus.intLine ∧ after.video = s.video)

/-- R262, R27: while `fault` is set no step is enabled: the same error is reported, with the state as it is. -/
def Obligations.FaultedMachineHasNoStep : Prop :=
  ∀ (s : State) (r : DecodeErrorRecord),
    s.cpu.fault = some r → step s = .fault (.decodeError r.opcode r.address s) ∧ ∀ t, step s ≠ .next t

/-- R12, R261, R270: a machine that has not faulted takes a step to a machine that has not faulted, unless it is to fetch
one of the 105 bytes; and every step that gives a next state is of that kind. -/
def Obligations.StepCompletesUnlessIllegal : Prop :=
  (∀ s h : State, s.cpu.fault = none → h = takeHostCalls s →
      ((h.bus.intLine && (!h.cpu.flags.i || !h.cfg.intMaskable)) = true ∨ (busRead h.cpu.pc h).value ∉ illegalBytes) →
      ∃ t, step s = .next t ∧ t.cpu.fault = none) ∧
    ∀ s t : State, step s = .next t → s.cpu.fault = none ∧ t.cpu.fault = none

/-- R270, R271: with the line true and `I` clear (or the line not maskable) the step is the interrupt entry and 7 cycles of
ticks, whatever stands at `PC`: the high byte and the low byte of `PC` and the flags with bit 4 = 0 are pushed, `SP` ends
3 lower, `I` is set, the line is cleared, `PC` is read from 0xFFFA and 0xFFFB, and the latch holds the last byte read. -/
def Obligations.InterruptEntryReplacesTheInstruction : Prop :=
  ∀ s h : State,
    s.cpu.fault = none → h = takeHostCalls s → h.bus.intLine = true →
    (h.cpu.flags.i = false ∨ h.cfg.intMaskable = false) →
    step s = .next (ticked 7
      { h with
        cpu := { s.cpu with
          pc := mkWord (prgByte h 0xFFFB) (prgByte h 0xFFFA)
          sp := s.cpu.sp - 3
          flags := { s.cpu.flags with i := true }
          cyc := s.cpu.cyc + 7 }
        bus := { intLine := false, latch := prgByte h 0xFFFB }
        mem := pushed [hiByte s.cpu.pc, loByte s.cpu.pc, packed s.cpu.flags false] s.cpu.sp s.mem })

/-- R225, R273: BRK pushes `pc0 + 2` and the flags with bit 4 = 1, sets `I`, and loads `PC` from 0xFFFE; it is not masked,
leaves the line as it is, and costs 7. -/
def Obligations.BrkTakesTheBreakVector : Prop :=
  encode .brk = [0x00] ∧
    ∀ s : State, exec .brk s = .next
      { s with
        cpu := { s.cpu with
          pc := mkWord (prgByte s 0xFFFF) (prgByte s 0xFFFE)
          sp := s.cpu.sp - 3
          flags := { s.cpu.flags with i := true }
          cyc := s.cpu.cyc + 7 }
        bus := { s.bus with latch := prgByte s 0xFFFF }
        mem := pushed [hiByte (s.cpu.pc + 2), loByte (s.cpu.pc + 2), packed s.cpu.flags true] s.cpu.sp s.mem }

/-- R226: RTI pulls the flags, then the low and the high byte of the target, which it does not increment; it leaves the
interrupt line as it is, and costs 6. -/
def Obligations.RtiRestoresFlagsAndPc : Prop :=
  encode .rti = [0x40] ∧
    ∀ s : State, exec .rti s = .next
      { s with
        cpu := { s.cpu with
          pc := mkWord (stacked s 3) (stacked s 2)
          sp := s.cpu.sp + 3
          flags := unpacked (stacked s 1)
          cyc := s.cpu.cyc + 6 }
        bus := { s.bus with latch := stacked s 3 } }

/-- R226, R274: RTI is the inverse of the interrupt entry and of BRK: executed right after the entry it brings back `PC`,
`SP` and all six flags, and after BRK the same with `PC` two higher. -/
def Obligations.RtiUndoesAnEntry : Prop :=
  ∀ s : State,
    (∃ r, exec .rti (interruptEntry s) = .next r ∧ r.cpu.pc = s.cpu.pc ∧ r.cpu.sp = s.cpu.sp ∧
        r.cpu.flags = s.cpu.flags ∧ r.cpu.a = s.cpu.a ∧ r.cpu.x = s.cpu.x ∧ r.cpu.y = s.cpu.y) ∧
      ∃ b r, exec .brk s = .next b ∧ exec .rti b = .next r ∧ r.cpu.pc = s.cpu.pc + 2 ∧ r.cpu.sp = s.cpu.sp ∧
        r.cpu.flags = s.cpu.flags ∧ r.cpu.a = s.cpu.a ∧ r.cpu.x = s.cpu.x ∧ r.cpu.y = s.cpu.y

/-- R264, R28: the whole life of the interrupt line. A video tick raises it exactly at (241, VBL_DOT) with `ctrl[7] = 1` and never
lowers it, and what the ticks of a step leave is the bus's; a bus read lowers it exactly at video register 2 and its
mirrors; a bus write leaves it, but for a transfer, which lowers it exactly where the page is one of video registers; the
host's calls leave it; the fetch lowers it exactly where one of its bytes is read at video register 2; of the instructions,
each in every form, none raises it, and it is lowered exactly by an operand or pointer read at video register 2 or by such a
transfer; the entry lowers it. -/
def Obligations.LifeOfTheInterruptLine : Prop :=
  (∀ (cfg : Cfg) (cart : Cart) (t : TickState),
      (videoTick cfg cart t).line =
        (t.line || (t.unit.scanline == 241 && t.unit.dot == cfg.vblDot && t.unit.ctrl.getLsbD 7))) ∧
    (∀ (c : Nat) (s : State),
      (tickUnits c s).bus.intLine =
        (Nat.iterate (videoTick s.cfg s.cart) (3 * c) { unit := s.video, line := s.bus.intLine }).line) ∧
    (∀ (a : Word) (s : State), (busRead a s).state.bus.intLine = (s.bus.intLine && !isStatusRegister a)) ∧
    (∀ (a : Word) (v : Byte) (s : State),
      (busWrite a v s).bus.intLine = (s.bus.intLine && !(decide (a = 0x4014) && isVideoPage v))) ∧
    (∀ s : State, (takeHostCalls s).bus.intLine = s.bus.intLine) ∧
    (∀ (s t : State) (i : Instr), fetch s = .instr i t →
      t.bus.intLine =
        (s.bus.intLine && !(List.range i.length).any fun k => isStatusRegister (s.cpu.pc + BitVec.ofNat 16 k))) ∧
    (∀ (s t : State) (op : Byte), fetch s = .illegal op t →
      t.bus.intLine = (s.bus.intLine && !isStatusRegister s.cpu.pc)) ∧
    (∀ (i : Instr) (s t : State), exec i s = .next t → t.bus.intLine = true → s.bus.intLine = true) ∧
    (∀ (b1 b2 : Byte) (s t : State), ∀ r ∈ readForms b1 b2, exec r.instr s = .next t →
      t.bus.intLine = (s.bus.intLine && !readsStatus r.src (past r.bytes.length s))) ∧
    (LineAfterStore staForms Cpu.a ∧ LineAfterStore stxForms Cpu.x ∧ LineAfterStore styForms Cpu.y) ∧
    (LineAfterRmw incForms inc ∧ LineAfterRmw decForms dec ∧ LineAfterRmw aslForms asl ∧ LineAfterRmw lsrForms lsr ∧
      LineAfterRmw rolForms rol ∧ LineAfterRmw rorForms ror) ∧
    (∀ (w : Word) (b : Byte) (s t : State), ∀ i ∈ otherForms w b, exec i s = .next t →
      t.bus.intLine =
        (s.bus.intLine && !(decide (i = .jmpInd w) &&
          (isStatusRegister w || isStatusRegister (mkWord (hiByte w) (BitVec.ofNat 8 ((w.toNat + 1) % 256))))))) ∧
    ∀ s : State, (interruptEntry s).bus.intLine = false

/-! ## Loads, stores, transfers and the stack -/

/-- R141, R142, R143: LDA, LDX and LDY in every mode: the byte read goes to the register and sets `Z` and `N`. -/
def Obligations.LoadsReadOneByteIntoTheRegister : Prop :=
  (ReadRule ldaForms fun c m => { c with a := m, flags := nz m c.flags }) ∧
    (ReadRule ldxForms fun c m => { c with x := m, flags := nz m c.flags }) ∧
    ReadRule ldyForms fun c m => { c with y := m, flags := nz m c.flags }

/-- R144, R145, R146: STA, STX and STY in every mode: one bus write of the register, no flag. -/
def Obligations.StoresWriteTheRegisterOnce : Prop :=
  StoreRule staForms Cpu.a ∧ StoreRule stxForms Cpu.x ∧ StoreRule styForms Cpu.y

/-- R151 to R156: the six transfers, of which TXS alone sets no flag: 2 cycles each, and nothing outside the CPU. -/
def Obligations.TransfersCopyOneRegister : Prop :=
  (CpuRule .tax 0xAA 2 fun c => { c with x := c.a, flags := nz c.a c.flags }) ∧
    (CpuRule .tay 0xA8 2 fun c => { c with y := c.a, flags := nz c.a c.flags }) ∧
    (CpuRule .txa 0x8A 2 fun c => { c with a := c.x, flags := nz c.x c.flags }) ∧
    (CpuRule .tya 0x98 2 fun c => { c with a := c.y, flags := nz c.y c.flags }) ∧
    (CpuRule .tsx 0xBA 2 fun c => { c with x := c.sp, flags := nz c.sp c.flags }) ∧
    CpuRule .txs 0x9A 2 fun c => { c with sp := c.x }

/-- R217 to R224: the seven flag instructions, each of one flag, and NOP, of none: 2 cycles each, and nothing outside the
CPU. -/
def Obligations.FlagInstructionsAndNop : Prop :=
  (CpuRule .clc 0x18 2 fun c => { c with flags := { c.flags with c := false } }) ∧
    (CpuRule .sec 0x38 2 fun c => { c with flags := { c.flags with c := true } }) ∧
    (CpuRule .cli 0x58 2 fun c => { c with flags := { c.flags with i := false } }) ∧
    (CpuRule .sei 0x78 2 fun c => { c with flags := { c.flags with i := true } }) ∧
    (CpuRule .clv 0xB8 2 fun c => { c with flags := { c.flags with v := false } }) ∧
    (CpuRule .cld 0xD8 2 fun c => { c with flags := { c.flags with d := false } }) ∧
    (CpuRule .sed 0xF8 2 fun c => { c with flags := { c.flags with d := true } }) ∧
    CpuRule .nop 0xEA 2 fun c => c

/-- R157 to R160: PHA and PHP (with bits 5 and 4 set) push one byte; PLA pulls one into `A` with `Z` and `N`; PLP pulls all six
flags and drops bits 5 and 4. -/
def Obligations.StackInstructionsPushAndPull : Prop :=
  encode .pha = [0x48] ∧ encode .php = [0x08] ∧ encode .pla = [0x68] ∧ encode .plp = [0x28] ∧
    ∀ s : State,
      exec .pha s = .next
        { s with
          cpu := { s.cpu with pc := s.cpu.pc + 1, sp := s.cpu.sp - 1, cyc := s.cpu.cyc + 3 }
          bus := { s.bus with latch := s.cpu.a }
          mem := pushed [s.cpu.a] s.cpu.sp s.mem } ∧
      exec .php s = .next
        { s with
          cpu := { s.cpu with pc := s.cpu.pc + 1, sp := s.cpu.sp - 1, cyc := s.cpu.cyc + 3 }
          bus := { s.bus with latch := packed s.cpu.flags true }
          mem := pushed [packed s.cpu.flags true] s.cpu.sp s.mem } ∧
      exec .pla s = .next
        { s with
          cpu := { s.cpu with
            pc := s.cpu.pc + 1, sp := s.cpu.sp + 1, a := stacked s 1, flags := nz (stacked s 1) s.cpu.flags
            cyc := s.cpu.cyc + 4 }
          bus := { s.bus with latch := stacked s 1 } } ∧
      exec .plp s = .next
        { s with
          cpu := { s.cpu with
            pc := s.cpu.pc + 1, sp := s.cpu.sp + 1, flags := unpacked (stacked s 1), cyc := s.cpu.cyc + 4 }
          bus := { s.bus with latch := stacked s 1 } }

/-! ## Logic, arithmetic and compare -/

/-- R165 to R168: AND, ORA and EOR in every mode; BIT: `Z` from `A & M`, `N` and `V` from bits 7 and 6 of the memory byte itself,
no register. -/
def Obligations.LogicAndBitTests : Prop :=
  (ReadRule andForms fun c m => { c with a := c.a &&& m, flags := nz (c.a &&& m) c.flags }) ∧
    (ReadRule oraForms fun c m => { c with a := c.a ||| m, flags := nz (c.a ||| m) c.flags }) ∧
    (ReadRule eorForms fun c m => { c with a := c.a ^^^ m, flags := nz (c.a ^^^ m) c.flags }) ∧
    ReadRule bitForms fun c m =>
      { c with flags := { c.flags with z := decide (c.a &&& m = 0), n := m.getLsbD 7, v := m.getLsbD 6 } }

/-- R169, R170: ADC in every mode adds the operand and `C` in binary; SBC adds the operand's one's complement. -/
def Obligations.AdcAndSbcComputeInBinary : Prop :=
  ReadRule adcForms added ∧ ReadRule sbcForms fun c m => added c (m ^^^ 0xFF)

/-- R174: what the sums mean. After ADC, `A` is the sum modulo 256, `C` its bit 8, and `V` says the signed sum lies outside
-128..127; after SBC, `A` is `A - M - (1 - C)` modulo 256, `C` says no borrow, `V` says the signed difference lies outside;
after CMP, `C` says `A >= M` unsigned and `Z` says they are equal. `D` changes none of it. -/
def Obligations.ArithmeticLawsOfTheFlags : Prop :=
  ∀ (s t : State) (m : Byte),
    (exec (.adcImm m) s = .next t →
        t.cpu.a.toNat = sum9 s.cpu.a m s.cpu.flags.c % 256 ∧
          (t.cpu.flags.c = true ↔ 256 ≤ sum9 s.cpu.a m s.cpu.flags.c) ∧
          (t.cpu.flags.v = true ↔
            signed8 s.cpu.a + signed8 m + (if s.cpu.flags.c then 1 else 0) < -128 ∨
              127 < signed8 s.cpu.a + signed8 m + if s.cpu.flags.c then 1 else 0) ∧
          t.cpu.flags.d = s.cpu.flags.d) ∧
      (exec (.sbcImm m) s = .next t →
        (t.cpu.a.toNat : Int) =
            ((s.cpu.a.toNat : Int) - m.toNat - (if s.cpu.flags.c then 0 else 1)) % 256 ∧
          (t.cpu.flags.c = true ↔ m.toNat + (if s.cpu.flags.c then 0 else 1) ≤ s.cpu.a.toNat) ∧
          (t.cpu.flags.v = true ↔
            signed8 s.cpu.a - signed8 m - (if s.cpu.flags.c then 0 else 1) < -128 ∨
              127 < signed8 s.cpu.a - signed8 m - if s.cpu.flags.c then 0 else 1) ∧
          t.cpu.flags.d = s.cpu.flags.d) ∧
      (exec (.cmpImm m) s = .next t →
        (t.cpu.flags.c = true ↔ m.toNat ≤ s.cpu.a.toNat) ∧ (t.cpu.flags.z = true ↔ s.cpu.a = m) ∧
          t.cpu.a = s.cpu.a ∧ t.cpu.flags.v = s.cpu.flags.v)

/-- R171, R172, R173: CMP, CPX and CPY in every mode: three flags, no register. -/
def Obligations.ComparesSetThreeFlags : Prop :=
  (ReadRule cmpForms fun c m => { c with flags := compared c.a m c.flags }) ∧
    (ReadRule cpxForms fun c m => { c with flags := compared c.x m c.flags }) ∧
    ReadRule cpyForms fun c m => { c with flags := compared c.y m c.flags }

/-! ## Increment, decrement, shift and rotate -/

/-- R181 to R186: INC and DEC on memory, INX, INY, DEX and DEY: one up or down modulo 256, `Z` and `N`. -/
def Obligations.IncrementsAndDecrementsWrap : Prop :=
  RmwRule incForms inc ∧ RmwRule decForms dec ∧
    RegisterRule .inx 0xE8 inc Cpu.x (fun c v => { c with x := v }) ∧
    RegisterRule .iny 0xC8 inc Cpu.y (fun c v => { c with y := v }) ∧
    RegisterRule .dex 0xCA dec Cpu.x (fun c v => { c with x := v }) ∧
    RegisterRule .dey 0x88 dec Cpu.y (fun c v => { c with y := v })

/-- R187 to R190: ASL, LSR, ROL and ROR, on memory and on the accumulator. -/
def Obligations.ShiftsMoveOneBitThroughCarry : Prop :=
  RmwRule aslForms asl ∧ RmwRule lsrForms lsr ∧ RmwRule rolForms rol ∧ RmwRule rorForms ror ∧
    RegisterRule .aslAcc 0x0A asl Cpu.a (fun c v => { c with a := v }) ∧
    RegisterRule .lsrAcc 0x4A lsr Cpu.a (fun c v => { c with a := v }) ∧
    RegisterRule .rolAcc 0x2A rol Cpu.a (fun c v => { c with a := v }) ∧
    RegisterRule .rorAcc 0x6A ror Cpu.a (fun c v => { c with a := v })

/-! ## Control transfer -/

/-- R197, R198, R199, R106: JMP to its operand, and JMP through a pointer whose high byte is read from the same page as its
low byte; JSR pushes the address of its own last byte, high byte first, and jumps; RTS pulls two bytes, low byte first, and
goes to the address after them. -/
def Obligations.JumpsCallsAndReturns : Prop :=
  (∀ (w : Word) (s : State),
      encode (.jmpAbs w) = [0x4C, loByte w, hiByte w] ∧ encode (.jmpInd w) = [0x6C, loByte w, hiByte w] ∧
        encode (.jsr w) = [0x20, loByte w, hiByte w] ∧
        exec (.jmpAbs w) s = .next { s with cpu := { s.cpu with pc := w, cyc := s.cpu.cyc + 3 } } ∧
        (∀ (l h : Access), l = busRead w (past 3 s) →
          h = busRead (mkWord (hiByte w) (BitVec.ofNat 8 ((w.toNat + 1) % 256))) l.state →
          exec (.jmpInd w) s = .next
            { h.state with cpu := { s.cpu with pc := mkWord h.value l.value, cyc := s.cpu.cyc + 5 } }) ∧
        exec (.jsr w) s = .next
          { s with
            cpu := { s.cpu with pc := w, sp := s.cpu.sp - 2, cyc := s.cpu.cyc + 6 }
            bus := { s.bus with latch := loByte (s.cpu.pc + 2) }
            mem := pushed [hiByte (s.cpu.pc + 2), loByte (s.cpu.pc + 2)] s.cpu.sp s.mem }) ∧
    encode .rts = [0x60] ∧
    ∀ s : State, exec .rts s = .next
      { s with
        cpu := { s.cpu with
          pc := mkWord (stacked s 2) (stacked s 1) + 1, sp := s.cpu.sp + 2, cyc := s.cpu.cyc + 6 }
        bus := { s.bus with latch := stacked s 2 } }

/-- R200 to R208: the eight branches, each on its flag value: 2 cycles not taken, 3 taken, 4 taken onto another page; no bus
access and no flag. -/
def Obligations.BranchesTestOneFlag : Prop :=
  (BranchRule .bpl 0x10 fun f => !f.n) ∧ (BranchRule .bmi 0x30 fun f => f.n) ∧ (BranchRule .bvc 0x50 fun f => !f.v) ∧
    (BranchRule .bvs 0x70 fun f => f.v) ∧ (BranchRule .bcc 0x90 fun f => !f.c) ∧ (BranchRule .bcs 0xB0 fun f => f.c) ∧
    (BranchRule .bne 0xD0 fun f => !f.z) ∧ BranchRule .beq 0xF0 fun f => f.z

/-! ## Operand forms -/

/-- R103 to R108: the effective address and the `crossed` flag of every memory mode: zero-page sums and pointers wrap inside
the zero page, 16-bit sums modulo 65536, and resolving changes nothing but the latch where it reads a pointer; and the operand
of a read instruction: an immediate byte with no access and no crossing, else one bus read of the effective address, from
the state the resolving leaves, with its `crossed` flag. -/
def Obligations.EffectiveAddresses : Prop :=
  (∀ (b : Byte) (s : State), readSource (.imm b) s = { value := b, crossed := false, state := s }) ∧
    (∀ (m : MemMode) (s : State) (e : Resolved) (d : Access), e = resolve m s → d = busRead e.ea e.state →
      readSource (.mem m) s = { value := d.value, crossed := e.crossed, state := d.state }) ∧
    ∀ (b : Byte) (w : Word) (s : State),
      resolve (.zp b) s = { ea := BitVec.ofNat 16 b.toNat, crossed := false, state := s } ∧
        resolve (.zpx b) s = { ea := BitVec.ofNat 16 ((b.toNat + s.cpu.x.toNat) % 256), crossed := false, state := s } ∧
        resolve (.zpy b) s = { ea := BitVec.ofNat 16 ((b.toNat + s.cpu.y.toNat) % 256), crossed := false, state := s } ∧
        resolve (.abs w) s = { ea := w, crossed := false, state := s } ∧
        resolve (.abx w) s =
          { ea := BitVec.ofNat 16 ((w.toNat + s.cpu.x.toNat) % 65536)
            crossed := decide ((w.toNat + s.cpu.x.toNat) % 65536 / 256 ≠ w.toNat / 256)
            state := s } ∧
        resolve (.aby w) s =
          { ea := BitVec.ofNat 16 ((w.toNat + s.cpu.y.toNat) % 65536)
            crossed := decide ((w.toNat + s.cpu.y.toNat) % 65536 / 256 ≠ w.toNat / 256)
            state := s } ∧
        (∀ (z : Nat) (lo hi : Byte), z = (b.toNat + s.cpu.x.toNat) % 256 → lo = readCell .cpu s.mem z →
          hi = readCell .cpu s.mem ((z + 1) % 256) →
          resolve (.izx b) s =
            { ea := mkWord hi lo, crossed := false, state := { s with bus := { s.bus with latch := hi } } }) ∧
        ∀ (lo hi : Byte), lo = readCell .cpu s.mem b.toNat → hi = readCell .cpu s.mem ((b.toNat + 1) % 256) →
          resolve (.izy b) s =
            { ea := BitVec.ofNat 16 (((mkWord hi lo).toNat + s.cpu.y.toNat) % 65536)
              crossed := decide (((mkWord hi lo).toNat + s.cpu.y.toNat) % 65536 / 256 ≠ (mkWord hi lo).toNat / 256)
              state := { s with bus := { s.bus with latch := hi } } }

/-! ## Frames -/

/-- The frame of the read instructions (R24, R140, R164): no byte of memory changes, nor `SP`, the fault record, `I`, `D`, the
audio unit, or of the video unit and the ports anything but what the reads of their registers change; of the registers
only the destination, of the flags only those the rule names. -/
def Obligations.ReadInstructionsFrame : Prop :=
  ∀ (b1 b2 : Byte) (s t : State),
    (∀ r ∈ readForms b1 b2, exec r.instr s = .next t →
        (∀ a, storedByte t a = storedByte s a) ∧ t.cpu.sp = s.cpu.sp ∧ t.cpu.fault = s.cpu.fault ∧
          t.cpu.flags.i = s.cpu.flags.i ∧ t.cpu.flags.d = s.cpu.flags.d ∧ SameBesideReads s.video t.video ∧
          t.audio = s.audio ∧ t.input.pad0 = s.input.pad0 ∧ t.input.pad1 = s.input.pad1 ∧
          t.input.strobe = s.input.strobe ∧ t.cart = s.cart ∧ t.cfg = s.cfg ∧ t.hostCalls = s.hostCalls) ∧
      (∀ r ∈ loadLogicForms b1 b2 ++ adcForms b1 b2 ++ sbcForms b1 b2, exec r.instr s = .next t →
        t.cpu.x = s.cpu.x ∧ t.cpu.y = s.cpu.y) ∧
      (∀ r ∈ ldxForms b1 b2, exec r.instr s = .next t → t.cpu.a = s.cpu.a ∧ t.cpu.y = s.cpu.y) ∧
      (∀ r ∈ ldyForms b1 b2, exec r.instr s = .next t → t.cpu.a = s.cpu.a ∧ t.cpu.x = s.cpu.x) ∧
      (∀ r ∈ testForms b1 b2, exec r.instr s = .next t →
        t.cpu.a = s.cpu.a ∧ t.cpu.x = s.cpu.x ∧ t.cpu.y = s.cpu.y) ∧
      (∀ r ∈ loadLogicForms b1 b2 ++ ldxForms b1 b2 ++ ldyForms b1 b2, exec r.instr s = .next t →
        t.cpu.flags.c = s.cpu.flags.c ∧ t.cpu.flags.v = s.cpu.flags.v) ∧
      (∀ r ∈ bitForms b1 b2, exec r.instr s = .next t → t.cpu.flags.c = s.cpu.flags.c) ∧
      ∀ r ∈ cmpForms b1 b2 ++ cpxForms b1 b2 ++ cpyForms b1 b2, exec r.instr s = .next t →
        t.cpu.flags.v = s.cpu.flags.v

/-- The frame of the stores (R140, R144 to R146): of the CPU only `PC` and `cyc` change; every address whose cell is not the
cell of the effective address reads as before, and where the effective address has no storage, or read-only storage, every
address does; a unit changes only where its own window is written, or through the transfer. -/
def Obligations.StoresFrame : Prop :=
  ∀ (b1 b2 : Byte) (s t : State), ∀ r ∈ storeForms b1 b2, exec r.instr s = .next t →
    ∀ ea, ea = (resolve r.mode (past r.bytes.length s)).ea →
      t.cpu = { s.cpu with pc := t.cpu.pc, cyc := t.cpu.cyc } ∧
        (∀ a, storageCell s a ≠ storageCell s ea → storedByte t a = storedByte s a) ∧
        (storageCell s ea = none ∨ 0x8000 ≤ ea.toNat → ∀ a, storedByte t a = storedByte s a) ∧
        (region ea ≠ .video → ea ≠ 0x4014 → t.video = s.video ∧ t.bus.intLine = s.bus.intLine) ∧
        (region ea ≠ .io → t.audio = s.audio ∧ t.input = s.input) ∧
        t.cart = s.cart ∧ t.cfg = s.cfg ∧ t.hostCalls = s.hostCalls

/-- The frame of the read-modify-write instructions on memory (R180 to R190): of the CPU only `PC`, `cyc`, `Z`, `N` and, for
the shifts, `C` change; of memory only the cell of the effective address; of the units only what its window holds. -/
def Obligations.ReadModifyWriteFrame : Prop :=
  ∀ (b1 b2 : Byte) (s t : State),
    (∀ r ∈ rmwForms b1 b2, exec r.instr s = .next t →
      ∀ ea, ea = (resolve r.mode (past r.bytes.length s)).ea →
        t.cpu = { s.cpu with pc := t.cpu.pc, cyc := t.cpu.cyc, flags := t.cpu.flags } ∧
          t.cpu.flags = { s.cpu.flags with c := t.cpu.flags.c, z := t.cpu.flags.z, n := t.cpu.flags.n } ∧
          (∀ a, storageCell s a ≠ storageCell s ea → storedByte t a = storedByte s a) ∧
          (storageCell s ea = none ∨ 0x8000 ≤ ea.toNat → ∀ a, storedByte t a = storedByte s a) ∧
          (region ea ≠ .video → ea ≠ 0x4014 → t.video = s.video ∧ t.bus.intLine = s.bus.intLine) ∧
          (region ea ≠ .io → t.audio = s.audio ∧ t.input = s.input) ∧
          t.cart = s.cart ∧ t.cfg = s.cfg ∧ t.hostCalls = s.hostCalls) ∧
      ∀ r ∈ incForms b1 b2 ++ decForms b1 b2, exec r.instr s = .next t → t.cpu.flags.c = s.cpu.flags.c

/-- The frame of the instructions that push (R157, R158, R198, R225): every address outside the pushed cells reads as before;
`A`, `X`, `Y` and the fault record are unchanged, and the flags but for BRK's `I`; the units are unchanged. And of the other
instructions of files 41, 44 and 45 and the accumulator forms: no byte of memory changes and, JMP through a pointer apart,
no unit does. -/
def Obligations.StackAndRegisterFrame : Prop :=
  ∀ (s t : State) (w : Word) (b : Byte),
    (∀ p ∈ [(Instr.pha, [0]), (.php, [0]), (.jsr w, [0, 1]), (.brk, [0, 1, 2])], exec p.1 s = .next t →
        (∀ a, (∀ k ∈ p.2, storageCell s a ≠ some (stackCell (s.cpu.sp - k))) → storedByte t a = storedByte s a) ∧
          t.cpu.a = s.cpu.a ∧ t.cpu.x = s.cpu.x ∧ t.cpu.y = s.cpu.y ∧ t.cpu.fault = s.cpu.fault ∧
          t.cpu.flags = { s.cpu.flags with i := t.cpu.flags.i } ∧
          (p.1 ≠ .brk → t.cpu.flags = s.cpu.flags) ∧
          t.video = s.video ∧ t.audio = s.audio ∧ t.input = s.input ∧ t.cart = s.cart ∧ t.cfg = s.cfg ∧
          t.hostCalls = s.hostCalls ∧ t.bus.intLine = s.bus.intLine) ∧
      ∀ i ∈ [Instr.pla, .plp, .rts, .rti, .jmpAbs w, .jmpInd w, .bpl b, .bmi b, .bvc b, .bvs b, .bcc b, .bcs b, .bne b,
          .beq b] ++
          [.tax, .tay, .txa, .tya, .tsx, .txs, .inx, .iny, .dex, .dey, .aslAcc, .lsrAcc, .rolAcc, .rorAcc, .clc, .sec,
          .cli, .sei, .clv, .cld, .sed, .nop],
        exec i s = .next t →
        (∀ a, storedByte t a = storedByte s a) ∧ t.cpu.fault = s.cpu.fault ∧ t.audio = s.audio ∧ t.cart = s.cart ∧
          t.cfg = s.cfg ∧ t.hostCalls = s.hostCalls ∧
          (i ≠ .jmpInd w → t.video = s.video ∧ t.input = s.input ∧ t.bus.intLine = s.bus.intLine)

/-! ## The bus -/

/-- R61, R65, R72, R63: every address is in the region its range says, and no other; the latch takes the value of every read
and of every write; a transfer's last read comes after its write, and
`OamDmaCopiesThePage` says what it leaves. -/
def Obligations.EveryAccessHasARegionAndDrivesTheLatch : Prop :=
  (∀ a : Word,
      (region a = .ram ↔ a.toNat ≤ 0x1FFF) ∧
        (region a = .video ↔ 0x2000 ≤ a.toNat ∧ a.toNat ≤ 0x3FFF) ∧
        (region a = .io ↔ 0x4000 ≤ a.toNat ∧ a.toNat ≤ 0x4017) ∧
        (region a = .unmapped ↔ 0x4018 ≤ a.toNat ∧ a.toNat ≤ 0x401F) ∧
        (region a = .cartridge ↔ 0x4020 ≤ a.toNat)) ∧
    (∀ (a : Word) (s : State), (busRead a s).state.bus.latch = (busRead a s).value) ∧
    ∀ (a : Word) (v : Byte) (s : State), a ≠ 0x4014 → (busWrite a v s).bus.latch = v

/-- R64: internal RAM: addresses below 0x2000 with the same remainder by 2048 are one cell: a read gives what the last
write to it through any mirror left, every other cell is untouched, and neither changes anything but that cell and the
latch. -/
def Obligations.RamMirrorsAreOneCell : Prop :=
  ∀ (a b : Word) (v : Byte) (s : State), a.toNat ≤ 0x1FFF → b.toNat ≤ 0x1FFF →
    (busRead b (busWrite a v s)).value = (if a.toNat % 2048 = b.toNat % 2048 then v else (busRead b s).value) ∧
      busWrite a v s = { s with bus := { s.bus with latch := v }, mem := (busWrite a v s).mem } ∧
      (busRead b s).state = { s with bus := { s.bus with latch := (busRead b s).value } }

/-- R441, R442, R443: cartridge space: PRG from 0x8000, read at the offset modulo its length and written by nothing (so a
16 KB bank shows twice); cartridge RAM at 0x6000 where it is present; open bus and dropped writes elsewhere. -/
def Obligations.CartridgeSpaceReadsAndWrites : Prop :=
  ∀ (a : Word) (v : Byte) (s : State), 0x4020 ≤ a.toNat →
    (0x8000 ≤ a.toNat →
        busRead a s = { value := prgByte s a, state := { s with bus := { s.bus with latch := prgByte s a } } } ∧
          busWrite a v s = { s with bus := { s.bus with latch := v } } ∧
          (s.cart.prgSize = .k16 → a.toNat < 0xC000 → prgByte s (a + 0x4000) = prgByte s a)) ∧
      (0x6000 ≤ a.toNat → a.toNat < 0x8000 → s.cfg.prgRam = true →
        busRead a s =
            { value := readCell .cpu s.mem a.toNat
              state := { s with bus := { s.bus with latch := readCell .cpu s.mem a.toNat } } } ∧
          busWrite a v s =
            { s with bus := { s.bus with latch := v }, mem := writeCell .cpu s.mem a.toNat v }) ∧
      (a.toNat < 0x6000 ∨ (a.toNat < 0x8000 ∧ s.cfg.prgRam = false) →
        busRead a s = { value := s.bus.latch, state := s } ∧
          busWrite a v s = { s with bus := { s.bus with latch := v } })

/-- R73: the complete list of open-bus reads: the whole latch, with no effect at all, at the write-only registers, the unmapped
window and empty cartridge space; its bits 4..0 in VSTATUS, 7..6 in VDATA over the palette, 5 in ASTATUS, 7..5 in the
controller ports. The list is complete: no other bit of any read depends on the latch. -/
def Obligations.OpenBusReads : Prop :=
  ∀ (a : Word) (s : State),
    ((0x2000 ≤ a.toNat ∧ a.toNat ≤ 0x3FFF ∧ a.toNat % 8 ∈ [0, 1, 3, 5, 6]) ∨
          (0x4000 ≤ a.toNat ∧ a.toNat ≤ 0x4014) ∨ (0x4018 ≤ a.toNat ∧ a.toNat ≤ 0x401F) ∨
          (0x4020 ≤ a.toNat ∧ storageCell s a = none) →
        busRead a s = { value := s.bus.latch, state := s }) ∧
      (0x2000 ≤ a.toNat → a.toNat ≤ 0x3FFF → a.toNat % 8 = 2 →
        ∀ k < 5, (busRead a s).value.getLsbD k = s.bus.latch.getLsbD k) ∧
      (0x2000 ≤ a.toNat → a.toNat ≤ 0x3FFF → a.toNat % 8 = 7 → 0x3F00 ≤ s.video.v.toNat → s.video.canonical s.cart = true →
        ∀ k ∈ [6, 7], (busRead a s).value.getLsbD k = s.bus.latch.getLsbD k) ∧
      (a = 0x4015 → (busRead a s).value.getLsbD 5 = s.bus.latch.getLsbD 5) ∧
      (a = 0x4016 ∨ a = 0x4017 → ∀ k ∈ [5, 6, 7], (busRead a s).value.getLsbD k = s.bus.latch.getLsbD k) ∧
      ∀ (latch : Byte) (k : Nat), k < 8 → (openBits s a).getLsbD k = false →
        (busRead a { s with bus := { s.bus with latch := latch } }).value.getLsbD k = (busRead a s).value.getLsbD k

/-! ## The video unit's registers -/

/-- R322 to R326: VCTRL, VMASK and OAMADDR take the byte; VSTATUS takes no write; OAMDATA stores at the index (an attribute byte
without bits 4..2) and moves it on, and a read of it gives the byte there and moves nothing. -/
def Obligations.ControlAndSpriteRegisters : Prop :=
  ∀ (a : Word) (v : Byte) (s : State), 0x2000 ≤ a.toNat → a.toNat ≤ 0x3FFF →
    (a.toNat % 8 = 0 →
        busWrite a v s = { s with bus := { s.bus with latch := v }, video := { s.video with ctrl := v } }) ∧
      (a.toNat % 8 = 1 →
        busWrite a v s = { s with bus := { s.bus with latch := v }, video := { s.video with mask := v } }) ∧
      (a.toNat % 8 = 2 → busWrite a v s = { s with bus := { s.bus with latch := v } }) ∧
      (a.toNat % 8 = 3 →
        busWrite a v s = { s with bus := { s.bus with latch := v }, video := { s.video with oamAddr := v } }) ∧
      (a.toNat % 8 = 4 →
        busRead a s =
            { value := readCell .oam s.video.oam s.video.oamAddr.toNat
              state := { s with
                bus := { s.bus with latch := readCell .oam s.video.oam s.video.oamAddr.toNat } } } ∧
          ∃ oam, busWrite a v s =
              { s with
                bus := { s.bus with latch := v }
                video := { s.video with oam := oam, oamAddr := s.video.oamAddr + 1 } } ∧
            ∀ k, readCell .oam oam k =
              if k = s.video.oamAddr.toNat then (if k % 4 = 2 then v &&& 0xE3 else v)
              else readCell .oam s.video.oam k)

/-- R327: a read of VSTATUS gives `vbl`, `s0`, `ovf` in bits 7, 6, 5 and the latch in bits 4..0, and clears `vbl`, `w` and the
interrupt line, nothing else. -/
def Obligations.StatusReadClearsThreeBits : Prop :=
  ∀ (a : Word) (s : State), 0x2000 ≤ a.toNat → a.toNat ≤ 0x3FFF → a.toNat % 8 = 2 →
    (busRead a s).value =
        BitVec.ofNat 8 (128 * s.video.vbl.toNat + 64 * s.video.s0.toNat + 32 * s.video.ovf.toNat +
          s.bus.latch.toNat % 32) ∧
      (busRead a s).state =
        { s with
          bus := { intLine := false, latch := (busRead a s).value }
          video := { s.video with vbl := false, w := false } }

/-- R328, R329: the two-write registers share the toggle `w`. VSCROLL takes axis X and then axis Y; VADDR takes the high six
bits and then the low eight, and only the second write loads `v`. -/
def Obligations.TwoWriteRegistersShareTheToggle : Prop :=
  ∀ (a : Word) (v : Byte) (s : State), 0x2000 ≤ a.toNat → a.toNat ≤ 0x3FFF →
    (a.toNat % 8 = 5 →
        busWrite a v s =
          { s with
            bus := { s.bus with latch := v }
            video :=
              if s.video.w then { s.video with scrollY := v, w := false }
              else { s.video with scrollX := v, w := true } }) ∧
      (a.toNat % 8 = 6 →
        busWrite a v s =
          { s with
            bus := { s.bus with latch := v }
            video :=
              if s.video.w then
                { s.video with
                  tAddr := BitVec.ofNat 14 (s.video.tAddr.toNat / 256 * 256 + v.toNat)
                  v := BitVec.ofNat 14 (s.video.tAddr.toNat / 256 * 256 + v.toNat)
                  w := false }
              else
                { s.video with
                  tAddr := BitVec.ofNat 14 (v.toNat % 64 * 256 + s.video.tAddr.toNat % 256), w := true } })

/-- R330, R331: VDATA. A read below the palette gives the buffered byte and buffers the byte at `v`; over the palette it gives the
entry at once under the latch's bits 7..6 and buffers the name-table byte underneath; a write stores at `v`. Each moves `v` on
by 1 or 32 modulo 16384. -/
def Obligations.DataPortBuffersReads : Prop :=
  ∀ (a : Word) (val : Byte) (s : State) (next : BitVec 14), 0x2000 ≤ a.toNat → a.toNat ≤ 0x3FFF → a.toNat % 8 = 7 →
    next = BitVec.ofNat 14 ((s.video.v.toNat + if s.video.ctrl.getLsbD 2 then 32 else 1) % 16384) →
    (s.video.v.toNat < 0x3F00 →
        busRead a s =
          { value := s.video.rbuf
            state := { s with
              bus := { s.bus with latch := s.video.rbuf }
              video := { s.video with rbuf := videoMemRead s.cart s.video s.video.v.toNat, v := next } } }) ∧
      (0x3F00 ≤ s.video.v.toNat →
        ∀ e, e = (s.bus.latch &&& 0xC0) ||| videoMemRead s.cart s.video s.video.v.toNat →
          busRead a s =
            { value := e
              state := { s with
                bus := { s.bus with latch := e }
                video := { s.video with
                  rbuf := videoMemRead s.cart s.video (s.video.v.toNat - 0x1000), v := next } } }) ∧
      busWrite a val s =
        { s with
          bus := { s.bus with latch := val }
          video := { videoMemWrite s.cart s.video s.video.v.toNat val with v := next } }

/-- R332, R333, R334: the video address space: every address, reduced modulo 16384, reads the cell of pattern memory, of a
physical name table or of the palette that is behind it; a read gives what was last written to the same cell through any of
its addresses (a palette cell keeps six bits, read-only pattern memory keeps what it had), and every other cell is
untouched; and a write changes nothing else of the unit. -/
def Obligations.VideoMemoryMirrors : Prop :=
  ∀ (cart : Cart) (u w : Video) (a b : Nat) (v : Byte), w = videoMemWrite cart u a v →
    (∀ k, (videoCell cart.mirroring a = (.chrRam, k) → videoMemRead cart u a = chrByte cart u k) ∧
        (videoCell cart.mirroring a = (.nameTable, k) → videoMemRead cart u a = readCell .nameTable u.nt k) ∧
        (videoCell cart.mirroring a = (.palette, k) → videoMemRead cart u a = palByte u k)) ∧
      videoMemRead cart w b =
        (if videoCell cart.mirroring a = videoCell cart.mirroring b ∧
            (cart.chrWritable = true ∨ 0x2000 ≤ a % 16384) then
          (if 0x3F00 ≤ a % 16384 then v &&& 0x3F else v)
        else videoMemRead cart u b) ∧
      w = { u with chr := w.chr, nt := w.nt, pal := w.pal }

/-- R446: a write of page `p` to OAMDMA reads the 256 addresses of the page on the bus, in rising order and with each read's
effects, and stores each byte into the sprite table at the index, which moves on and ends where it began; the latch starts
as `p` and ends as the last byte copied. For a page in storage that is: its bytes from the index on, wrapping, an attribute
byte without bits 4..2, and nothing else changed. -/
def Obligations.OamDmaCopiesThePage : Prop :=
  (∀ (p : Byte) (s : State),
      busWrite 0x4014 p s = transferred p 256 { s with bus := { s.bus with latch := p } } ∧
        (busWrite 0x4014 p s).bus.latch =
          (busRead (mkWord p 0xFF) (transferred p 255 { s with bus := { s.bus with latch := p } })).value ∧
        (busWrite 0x4014 p s).video.oamAddr = s.video.oamAddr) ∧
    ∀ (p : Byte) (s : State) (page : Nat → Byte),
      (∀ k, k < 256 → storedByte s (mkWord p (BitVec.ofNat 8 k)) = some (page k)) →
      ∃ oam : Memory,
        busWrite 0x4014 p s =
            { s with bus := { s.bus with latch := page 255 }, video := { s.video with oam := oam } } ∧
          ∀ k, k < 256 →
            readCell .oam oam ((s.video.oamAddr.toNat + k) % 256) =
              if (s.video.oamAddr.toNat + k) % 4 = 2 then page k &&& 0xE3 else page k

/-! ## The video unit's tick -/

/-- R340, R310: from any position in range, `n` ticks later the unit is `n` positions further in its traversal of 89342, and
one frame has been handed off for each passage of (240, 0). -/
def Obligations.PositionAfterTicks : Prop :=
  ∀ (cfg : Cfg) (cart : Cart) (n : Nat) (t : TickState), t.unit.inRange = true →
    (videoTicks cfg cart n t).unit.inRange = true ∧
      (videoTicks cfg cart n t).unit.position = (t.unit.position + n) % 89342 ∧
      (videoTicks cfg cart n t).unit.frameCount + (t.unit.position + 7501) / 89342 =
        t.unit.frameCount + (t.unit.position + n + 7501) / 89342

/-- R277, R342, R343: one whole traversal, from any position in range, comes back to it, hands off exactly one frame, passes the
vertical-blank event exactly once, and raises the line exactly when `ctrl[7]` is set. -/
def Obligations.OneTraversalOneFrameOneEdge : Prop :=
  ∀ (cfg : Cfg) (cart : Cart) (t : TickState), cfg.wf = true → t.unit.inRange = true →
    (videoTicks cfg cart 89342 t).unit.position = t.unit.position ∧
      (videoTicks cfg cart 89342 t).unit.frameCount = t.unit.frameCount + 1 ∧
      (videoTicks cfg cart 89342 t).line = (t.line || t.unit.ctrl.getLsbD 7) ∧
      ∃! k, k < 89342 ∧ (videoTicks cfg cart k t).unit.scanline = 241 ∧ (videoTicks cfg cart k t).unit.dot = cfg.vblDot

/-- R340 to R344, R357: what each tick outside the pixels does: the handoff at (240, 0); `vbl`, and the line where enabled, at
(241, VBL_DOT); the three status bits cleared at (261, VBL_DOT); `ovf` at dot 257 of a visible line where more than 8 sprites are
on it and rendering is on; and only the move to the next position at every other one. -/
def Obligations.EventsOfTheTick : Prop :=
  ∀ (cfg : Cfg) (cart : Cart) (u : Video) (line : Bool), cfg.wf = true → u.inRange = true →
    (u.scanline = 240 → u.dot = 0 →
        videoTick cfg cart { unit := u, line := line } =
          { unit := movedOn { u with frameOut := some u.fb, frameCount := u.frameCount + 1 }, line := line }) ∧
      (u.scanline = 241 → u.dot = cfg.vblDot →
        videoTick cfg cart { unit := u, line := line } =
          { unit := movedOn { u with vbl := true }, line := if u.ctrl.getLsbD 7 then true else line }) ∧
      (u.scanline = 261 → u.dot = cfg.vblDot →
        videoTick cfg cart { unit := u, line := line } =
          { unit := movedOn { u with vbl := false, s0 := false, ovf := false }, line := line }) ∧
      (u.scanline ≤ 239 → u.dot = 257 →
        videoTick cfg cart { unit := u, line := line } =
          { unit := movedOn { u with
              ovf := if (u.mask.getLsbD 3 || u.mask.getLsbD 4) && decide (8 < spriteCount u u.scanline) then true
                else u.ovf }
            line := line }) ∧
      ((u.scanline ≤ 239 ∧ (u.dot = 0 ∨ 258 ≤ u.dot)) ∨ (u.scanline = 240 ∧ u.dot ≠ 0) ∨
          (241 ≤ u.scanline ∧ u.scanline ≤ 260 ∧ ¬ (u.scanline = 241 ∧ u.dot = cfg.vblDot)) ∨
          (u.scanline = 261 ∧ u.dot ≠ cfg.vblDot) →
        videoTick cfg cart { unit := u, line := line } = { unit := movedOn u, line := line })

/-- R346 to R349, R351 to R353, R355, R356: the pixels. The background's value and palette come from the tile and the
attribute byte at the scrolled position; a sprite covers the eight columns and 8 or 16 rows from one line below its Y byte,
flipped as its attributes say; the sprites of a line are those that cover it, in rising order. The tick at dots 1..256 of a
visible line writes exactly the pixel (dot - 1, line). With no shown sprite that has a pixel there it is the background's
colour, or the backdrop; the first shown sprite with a pixel wins, and its colour shows where the background is transparent
or it is not behind; `grey` masks it. Sprite-zero hit is set when sprite 0 is shown with a pixel over a background pixel
and the column is not 255. -/
def Obligations.PixelOfTheTick : Prop :=
  (∀ (cart : Cart) (u : Video) (x y i : Nat),
      bgPixel cart u x y =
          (if u.mask.getLsbD 3 = false ∨ (x < 8 ∧ u.mask.getLsbD 1 = false) then { value := 0, palette := 0 }
          else planePixel cart u (((if u.ctrl.getLsbD 0 then 256 else 0) + u.scrollX.toNat + x) % 512)
            (((if u.ctrl.getLsbD 1 then 240 else 0) + u.scrollY.toNat + y) % 480)) ∧
        spritePixel cart u i x y =
          spriteBits cart u i ((y : Int) - ((oamByte u (4 * i)).toNat + 1)) ((x : Int) - (oamByte u (4 * i + 3)).toNat) ∧
        spritesOnLine u y =
          (List.range 64).filter fun j =>
            decide ((oamByte u (4 * j)).toNat < y ∧
              y ≤ (oamByte u (4 * j)).toNat + if u.ctrl.getLsbD 5 then 16 else 8)) ∧
    ∀ (cfg : Cfg) (cart : Cart) (u v : Video) (line : Bool) (x y : Nat) (bg : BgPixel) (grey : Byte → Byte),
      u.scanline = y → y ≤ 239 → u.dot = x + 1 → x ≤ 255 → bg = bgPixel cart u x y →
      (grey = fun c => if u.mask.getLsbD 0 then c &&& 0x30 else c) →
      v = (videoTick cfg cart { unit := u, line := line }).unit →
      v = movedOn { u with fb := v.fb, s0 := v.s0 } ∧
        (∀ x' y', ¬ (x' = x ∧ y' = y) → readPixel v.fb x' y' = readPixel u.fb x' y') ∧
        ((∀ i ∈ shownSprites u x y, spritePixel cart u i x y = 0) →
          readPixel v.fb x y = grey (backgroundColour u bg)) ∧
        (∀ (before after : List Nat) (i : Nat), shownSprites u x y = before ++ i :: after →
          (∀ j ∈ before, spritePixel cart u j x y = 0) → spritePixel cart u i x y ≠ 0 →
          readPixel v.fb x y =
            grey (if bg.value = 0 ∨ (oamByte u (4 * i + 2)).getLsbD 5 = false then
              palByte u (0x10 + 4 * ((oamByte u (4 * i + 2)).toNat % 4) + spritePixel cart u i x y)
            else backgroundColour u bg)) ∧
        (v.s0 = true ↔
          u.s0 = true ∨ (0 ∈ shownSprites u x y ∧ spritePixel cart u 0 x y ≠ 0 ∧ bg.value ≠ 0 ∧ x ≠ 255))

/-- R345: with background and sprites off every pixel computed is the backdrop with `grey` applied, and neither sprite-zero
hit nor overflow is set by a tick. -/
def Obligations.RenderingDisabledGivesTheBackdrop : Prop :=
  ∀ (cfg : Cfg) (cart : Cart) (u v : Video) (line : Bool),
    u.mask.getLsbD 3 = false → u.mask.getLsbD 4 = false → v = (videoTick cfg cart { unit := u, line := line }).unit →
    (u.scanline ≤ 239 → 1 ≤ u.dot → u.dot ≤ 256 →
        readPixel v.fb (u.dot - 1) u.scanline =
          if u.mask.getLsbD 0 then palByte u 0 &&& 0x30 else palByte u 0) ∧
      (v.s0 = true → u.s0 = true) ∧ (v.ovf = true → u.ovf = true)

/-! ## The audio unit -/

/-- R385 to R390, R416: the audio registers, each through the bus: the two pulse channels, the triangle, the noise channel and the
sample channel; ASTATUS enables, and silences a disabled channel at once; 0x4017 sets the mode and restarts, and in 5-step mode
clocks envelopes and lengths; a read of ASTATUS gives which length counters are above 0, bit 5 of the latch, and 0 in bits 4, 6
and 7, and changes the latch alone. -/
def Obligations.AudioRegistersOnTheBus : Prop :=
  PulseRule 0x4000 Audio.pulse0 (fun a p => { a with pulse0 := p }) ∧
    PulseRule 0x4004 Audio.pulse1 (fun a p => { a with pulse1 := p }) ∧
    ∀ (v : Byte) (s : State),
      (busWrite 0x4008 v s).audio =
          { s.audio with tri := { s.audio.tri with halt := v.getLsbD 7, linReg := BitVec.ofNat 7 (v.toNat % 128) } } ∧
        (busWrite 0x4009 v s).audio = s.audio ∧
        (busWrite 0x400A v s).audio =
          { s.audio with tri := { s.audio.tri with
              period := BitVec.ofNat 11 (s.audio.tri.period.toNat / 256 * 256 + v.toNat) } } ∧
        (busWrite 0x400B v s).audio =
          { s.audio with tri := { s.audio.tri with
              period := BitVec.ofNat 11 (v.toNat % 8 * 256 + s.audio.tri.period.toNat % 256)
              length := loadedLength s.audio.tri.enabled s.audio.tri.length v } } ∧
        (busWrite 0x400C v s).audio =
          { s.audio with noise := { s.audio.noise with
              halt := v.getLsbD 5, constVol := v.getLsbD 4, vol := BitVec.ofNat 4 (v.toNat % 16) } } ∧
        (busWrite 0x400D v s).audio = s.audio ∧
        (busWrite 0x400E v s).audio =
          { s.audio with noise := { s.audio.noise with mode := v.getLsbD 7, idx := BitVec.ofNat 4 (v.toNat % 16) } } ∧
        (busWrite 0x400F v s).audio =
          { s.audio with noise := { s.audio.noise with
              length := loadedLength s.audio.noise.enabled s.audio.noise.length v, start := true } } ∧
        (busWrite 0x4010 v s).audio = { s.audio with sample := { s.audio.sample with reg0 := v } } ∧
        (busWrite 0x4011 v s).audio =
          { s.audio with sample := { s.audio.sample with reg1 := v, level := BitVec.ofNat 7 (v.toNat % 128) } } ∧
        (busWrite 0x4012 v s).audio = { s.audio with sample := { s.audio.sample with reg2 := v } } ∧
        (busWrite 0x4013 v s).audio = { s.audio with sample := { s.audio.sample with reg3 := v } } ∧
        (busWrite 0x4015 v s).audio =
          { s.audio with
            pulse0 := { s.audio.pulse0 with
              enabled := v.getLsbD 0, length := if v.getLsbD 0 then s.audio.pulse0.length else 0 }
            pulse1 := { s.audio.pulse1 with
              enabled := v.getLsbD 1, length := if v.getLsbD 1 then s.audio.pulse1.length else 0 }
            tri := { s.audio.tri with
              enabled := v.getLsbD 2, length := if v.getLsbD 2 then s.audio.tri.length else 0 }
            noise := { s.audio.noise with
              enabled := v.getLsbD 3, length := if v.getLsbD 3 then s.audio.noise.length else 0 } } ∧
        (∀ b, b = { s.audio with fsMode := v.getLsbD 7, fsInhibit := v.getLsbD 6, fsCount := 0 } →
          (busWrite 0x4017 v s).audio = if v.getLsbD 7 then halfFrame (quarterFrame b) else b) ∧
        (busRead 0x4015 s).value =
          BitVec.ofNat 8 ((if 0 < s.audio.pulse0.length.toNat then 1 else 0) +
            (if 0 < s.audio.pulse1.length.toNat then 2 else 0) + (if 0 < s.audio.tri.length.toNat then 4 else 0) +
            (if 0 < s.audio.noise.length.toNat then 8 else 0) + if s.bus.latch.getLsbD 5 then 32 else 0) ∧
        (busRead 0x4015 s).state = { s with bus := { s.bus with latch := (busRead 0x4015 s).value } }

/-- R400 to R403, R421: one audio tick: each timer counts down and reloads, the triangle moves on only with a length, the
pulse timers count on odd cycles only, the shift register takes its feedback bit, the cycle count goes up by one, and with
an unbounded stream one sample is appended every SAMPLE_DIV ticks. All else is as the frame sequencer's step leaves it from
the channels with their timers moved: envelopes, lengths and its count as that step says, every other field as before. -/
def Obligations.OneAudioTick : Prop :=
  ∀ (cfg : Cfg) (a b : Audio), b = audioTick cfg a →
    b.apuCycle = a.apuCycle + 1 ∧
      b.tri.timer = (if a.tri.timer = 0 then a.tri.period else a.tri.timer - 1) ∧
      b.tri.pos = (if a.tri.timer = 0 ∧ a.tri.length ≠ 0 then a.tri.pos + 1 else a.tri.pos) ∧
      (a.noise.timer = 0 →
        b.noise.lfsr.toNat =
            a.noise.lfsr.toNat / 2 +
              16384 * (a.noise.lfsr.getLsbD 0 ^^ a.noise.lfsr.getLsbD (if a.noise.mode then 6 else 1)).toNat ∧
          b.noise.timer.toNat + 1 =
            [4, 8, 16, 32, 64, 96, 128, 160, 202, 254, 380, 508, 762, 1016, 2034, 4068].getD a.noise.idx.toNat 0) ∧
      (a.noise.timer ≠ 0 → b.noise.lfsr = a.noise.lfsr ∧ b.noise.timer = a.noise.timer - 1) ∧
      (∀ get ∈ [Audio.pulse0, Audio.pulse1],
        (a.apuCycle % 2 = 0 → (get b).timer = (get a).timer ∧ (get b).pos = (get a).pos) ∧
          (a.apuCycle % 2 = 1 →
            (get b).timer = (if (get a).timer = 0 then (get a).period else (get a).timer - 1) ∧
              (get b).pos = if (get a).timer = 0 then (get a).pos + 1 else (get a).pos)) ∧
      (cfg.sampleCap = none →
        b.samplesRev =
          if (a.apuCycle + 1) % cfg.sampleDiv = 0 then sampleValue cfg.mixer b :: a.samplesRev else a.samplesRev) ∧
      ((a.apuCycle + 1) % cfg.sampleDiv ≠ 0 → b.samplesRev = a.samplesRev) ∧
      b = { frameSequencer { a with
              tri := { a.tri with timer := b.tri.timer, pos := b.tri.pos }
              noise := { a.noise with timer := b.noise.timer, lfsr := b.noise.lfsr }
              pulse0 := { a.pulse0 with timer := b.pulse0.timer, pos := b.pulse0.pos }
              pulse1 := { a.pulse1 with timer := b.pulse1.timer, pos := b.pulse1.pos } } with
            apuCycle := a.apuCycle + 1
            samplesRev := b.samplesRev }

/-- R404, R405, R406: the frame sequencer calls its clocks at the counts it lists and wraps at the end of its cycle; a quarter
frame clocks the three envelopes and nothing else; a half frame takes every length that is not halted one down, to 0 at
least, and changes nothing else. -/
def Obligations.SequencerClocksEnvelopesAndLengths : Prop :=
  ∀ (a q h : Audio) (n : Nat), q = quarterFrame a → h = halfFrame a → n = a.fsCount + 1 →
    frameSequencer a =
        { (if n = 7457 ∨ n = 22371 then q
            else if n = 14913 ∨ (a.fsMode = false ∧ n = 29829) ∨ (a.fsMode = true ∧ n = 37281) then halfFrame q
            else a) with
          fsCount := if (a.fsMode = false ∧ n = 29830) ∨ (a.fsMode = true ∧ n = 37282) then 0 else n } ∧
      q = { a with pulse0 := q.pulse0, pulse1 := q.pulse1, noise := q.noise } ∧
      (∀ get ∈ [Audio.pulse0, Audio.pulse1],
        get q = { get a with start := (get q).start, div := (get q).div, decay := (get q).decay } ∧
          ((get q).start, (get q).div.toNat, (get q).decay.toNat) =
            envelopeAfter (get a).start (get a).div.toNat (get a).decay.toNat (get a).vol.toNat (get a).halt) ∧
      q.noise = { a.noise with start := q.noise.start, div := q.noise.div, decay := q.noise.decay } ∧
      (q.noise.start, q.noise.div.toNat, q.noise.decay.toNat) =
        envelopeAfter a.noise.start a.noise.div.toNat a.noise.decay.toNat a.noise.vol.toNat a.noise.halt ∧
      h = { a with
        pulse0 := { a.pulse0 with length := h.pulse0.length }
        pulse1 := { a.pulse1 with length := h.pulse1.length }
        tri := { a.tri with length := h.tri.length }
        noise := { a.noise with length := h.noise.length } } ∧
      h.pulse0.length.toNat = a.pulse0.length.toNat - (if a.pulse0.halt then 0 else 1) ∧
      h.pulse1.length.toNat = a.pulse1.length.toNat - (if a.pulse1.halt then 0 else 1) ∧
      h.tri.length.toNat = a.tri.length.toNat - (if a.tri.halt then 0 else 1) ∧
      h.noise.length.toNat = a.noise.length.toNat - if a.noise.halt then 0 else 1

/-- R410, R391, R393, R420, R421, R307: where a tick is due to append a sample, an unbounded stream, and a bounded one that has
room, gets the mix of the five channel outputs after the tick, which for the reference formula is the value it gives of
the outputs the rules list; a stream that is full drops it; any mixing formula gives 0 for five zeros; and the host's
taking of `n` samples removes the oldest `n` and changes nothing else. The stream is kept newest first, and a full one
drops the newest (the model's own, `notes/assumptions/8.md`). -/
def Obligations.SamplesAreTheMixedOutputs : Prop :=
  (∀ (cfg : Cfg) (a b : Audio), b = audioTick cfg a → (a.apuCycle + 1) % cfg.sampleDiv = 0 →
      (cfg.sampleCap = none ∨ (∃ cap, cfg.sampleCap = some cap ∧ a.samplesRev.length < cap) →
          b.samplesRev =
              mix cfg.mixer (pulseLevel b.pulse0) (pulseLevel b.pulse1) (triangleLevel b.tri) (noiseLevel b.noise)
                b.sample.level.toNat :: a.samplesRev ∧
            (cfg.mixer = .reference →
              b.samplesRev =
                referenceMix (pulseLevel b.pulse0) (pulseLevel b.pulse1) (triangleLevel b.tri) (noiseLevel b.noise)
                  b.sample.level.toNat :: a.samplesRev)) ∧
        (∀ cap, cfg.sampleCap = some cap → cap ≤ a.samplesRev.length → b.samplesRev = a.samplesRev) ∧
        mix cfg.mixer 0 0 0 0 0 = 0) ∧
    ∀ (n : Nat) (s : State),
      hostCall (.takeSamples n) s =
        { s with audio := { s.audio with samplesRev := (s.audio.samplesRev.reverse.drop n).reverse } }

/-- R404, R406, R407: after a restart of the sequencer, `n` audio cycles into its first sequence of 29830 (4-step) or 37282
(5-step), its count is `n` (0 at the end), and every length counter that is not halted has gone down by the half-frame
clocks given by then, at 14913 and at 29829 or 37281, and has stopped at 0; a halted one has kept its value. -/
def Obligations.LengthCountersRunOut : Prop :=
  ∀ (cfg : Cfg) (a r : Audio) (n : Nat), a.fsCount = 0 → n ≤ (if a.fsMode then 37282 else 29830) →
    r = audioTicks cfg n a →
    r.fsCount = n % (if a.fsMode then 37282 else 29830) ∧
      r.pulse0.length.toNat =
        (if a.pulse0.halt then a.pulse0.length.toNat else a.pulse0.length.toNat - halfClocks a.fsMode n) ∧
      r.pulse1.length.toNat =
        (if a.pulse1.halt then a.pulse1.length.toNat else a.pulse1.length.toNat - halfClocks a.fsMode n) ∧
      r.tri.length.toNat =
        (if a.tri.halt then a.tri.length.toNat else a.tri.length.toNat - halfClocks a.fsMode n) ∧
      r.noise.length.toNat =
        if a.noise.halt then a.noise.length.toNat else a.noise.length.toNat - halfClocks a.fsMode n

/-! ## The controller ports -/

/-- R450, R451, R452, R305: the controller ports. A write of 0x4016 sets the strobe, and loads both ports where it is 1; a read
gives one bit under the latch's bits 7..5, bits 4..1 being 0, and with the strobe low shifts; so after a strobe high and
then low the first eight reads of a port give its buttons from bit 0 to bit 7 and every further one gives 1, and with the
strobe high every read gives button A. The host's call sets one port's buttons and nothing else. The model's own form of
the input sequence (`notes/assumptions/7.md`): the calls of a step boundary are made in their order, and are then gone. -/
def Obligations.ControllerReadsShiftOut : Prop :=
  (∀ (s : State) (v : Byte),
      busWrite 0x4016 v s =
        { s with
          bus := { s.bus with latch := v }
          input := if v.getLsbD 0 then
              { s.input with strobe := true, shift0 := s.input.pad0, shift1 := s.input.pad1 }
            else { s.input with strobe := false } }) ∧
    PortRule 0x4016 Input.pad0 Input.shift0 (fun p b => { p with shift0 := b }) ∧
    PortRule 0x4017 Input.pad1 Input.shift1 (fun p b => { p with shift1 := b }) ∧
    (∀ (s h t : State) (v0 v1 : Byte) (n : Nat), v1.getLsbD 0 = true → v0.getLsbD 0 = false →
      h = busWrite 0x4016 v1 s → t = busWrite 0x4016 v0 h →
      portBits (8 + n) 0x4016 t = (List.range 8).map s.input.pad0.getLsbD ++ List.replicate n true ∧
        portBits (8 + n) 0x4017 t = (List.range 8).map s.input.pad1.getLsbD ++ List.replicate n true ∧
        portBits n 0x4016 h = List.replicate n (s.input.pad0.getLsbD 0) ∧
        portBits n 0x4017 h = List.replicate n (s.input.pad1.getLsbD 0) ∧
        (busRead 0x4016 h).state.input = h.input ∧ (busRead 0x4017 h).state.input = h.input) ∧
    (∀ (s : State) (b : Byte),
      hostCall (.setButtons .p0 b) s = { s with input := { s.input with pad0 := b } } ∧
        hostCall (.setButtons .p1 b) s = { s with input := { s.input with pad1 := b } }) ∧
    ∀ s : State,
      (s.hostCalls = [] → takeHostCalls s = s) ∧
        ∀ (calls : List HostCall) (rest : List (List HostCall)), s.hostCalls = calls :: rest →
          takeHostCalls s = calls.foldl (fun t c => hostCall c t) { s with hostCalls := rest }

/-! ## The whole machine -/

/-- R300, R303, R447: the cost of a step: 517 to 521 cycles where the instruction it runs writes the transfer register and the
transfer is charged, and 2 to 7 at every other step. -/
def Obligations.CyclesOfAStep : Prop :=
  ∀ s t : State, step s = .next t →
    ∃ c, t.cpu.cyc = s.cpu.cyc + c ∧ (ChargedTransfer (takeHostCalls s) → 517 ≤ c ∧ c ≤ 521) ∧
      (¬ ChargedTransfer (takeHostCalls s) → 2 ≤ c ∧ c ≤ 7)

/-- R42, R43, R68: no step changes the parameters, the cartridge's description, any PRG byte, or pattern memory that a
cartridge filled. -/
def Obligations.CartridgeIsFixed : Prop :=
  ∀ s t : State, step s = .next t →
    t.cfg = s.cfg ∧ t.cart = s.cart ∧ (∀ a : Word, 0x8000 ≤ a.toNat → storedByte t a = storedByte s a) ∧
      (s.cart.chrWritable = false → t.video.chr = s.video.chr)

/-- R277, R281, R310: the clocks. If the audio cycle count is `cyc`, the video position is `3 * cyc` ticks into the traversals
and the frame count the handoffs by then, the same holds after every step. -/
def Obligations.ClocksStayInAgreement : Prop :=
  ∀ s t : State, s.clocksAgree = true → step s = .next t → t.clocksAgree = true

/-- Every memory of the machine stays in its canonical form (addresses of the memory, strictly rising, nothing listed that
reads the same unlisted; six-bit palette entries; 6-bit pixels): the model's own form, `notes/assumptions/12.md`. -/
def Obligations.MemoriesStayCanonical : Prop :=
  ∀ s t : State, s.canonical = true → step s = .next t → t.canonical = true

/-- R388, R402, R404: from every state that has them, a step keeps the audio unit's invariants: the noise register is not 0,
a disabled channel's length is 0, and the sequencer's count has not passed its wrap point. -/
def Obligations.AudioUnitStaysSound : Prop :=
  ∀ s t : State, s.audio.sound = true → step s = .next t → t.audio.sound = true

/-- R45, R470 (the spec's decisions D12 and D13): the power-on values, for every cartridge and every launch memory: each register of the machine, and `PC` from the
PRG bytes at 0xFFFC and 0xFFFD. -/
def Obligations.PowerOnValues : Prop :=
  ∀ (cfg : Cfg) (cart : Cart) (mem oam nt pal chr : Memory) (s : State), s = powerOn cfg cart mem oam nt pal chr →
    s.cpu.a = 0 ∧ s.cpu.x = 0 ∧ s.cpu.y = 0 ∧ s.cpu.sp = 0xFD ∧ s.cpu.pc = mkWord (prgByte s 0xFFFD) (prgByte s 0xFFFC) ∧
      s.cpu.flags = { c := false, z := false, i := true, d := false, v := false, n := false } ∧ s.cpu.cyc = 0 ∧
      s.cpu.fault = none ∧ s.bus = { intLine := false, latch := 0 } ∧ s.mem = mem ∧
      s.video =
        { scanline := 0, dot := 0, frameCount := 0, ctrl := 0, mask := 0, vbl := false, s0 := false, ovf := false,
          w := false, scrollX := 0, scrollY := 0, v := 0, tAddr := 0, rbuf := 0, oamAddr := 0, oam := oam, nt := nt,
          pal := pal, chr := chr, fb := [], frameOut := none } ∧
      s.audio = audioAtPowerOn ∧ s.input = { pad0 := 0, pad1 := 0, shift0 := 0, shift1 := 0, strobe := false } ∧
      ∀ x y, readPixel s.video.fb x y = 0

/-- The state after reset meets the three invariants (with the reset cartridge of `notes/assumptions/2.md`). -/
def Obligations.ResetIsSound : Prop :=
  State.reset.canonical = true ∧ State.reset.audio.sound = true ∧ State.reset.clocksAgree = true

/-- R263, R309, R440, R470: construction fails exactly for a cartridge whose identifier is not 0, whose PRG is neither 16384 nor
32768 bytes, whose CHR is neither 8192 bytes nor empty, or whose mirroring is neither horizontal nor vertical; else it gives
a machine at power-on whose sizes and mirroring are the cartridge's and whose PRG bytes, pattern bytes and launch bytes are
the given ones. The model's own: a launch list may be shorter than its memory (`notes/assumptions/15.md`), and the
memories are in canonical form (`notes/assumptions/12.md`). -/
def Obligations.ConstructionChecksAndLoads : Prop :=
  ∀ (cfg : Cfg) (c : Cartridge) (l : Launch),
    ((∃ e, construct cfg c l = .error e) ↔
        c.mapperId ≠ 0 ∨ (c.prg.length ≠ 16384 ∧ c.prg.length ≠ 32768) ∨
          (c.chr.length ≠ 8192 ∧ c.chr.length ≠ 0) ∨ c.mirroring = .fourScreen) ∧
      ∀ s, construct cfg c l = .machine s →
        s = powerOn cfg s.cart s.mem s.video.oam s.video.nt s.video.pal s.video.chr ∧
          (s.cart.prgSize = .k16 ↔ c.prg.length = 16384) ∧ (s.cart.mirroring = .vertical ↔ c.mirroring = .vertical) ∧
          (s.cart.chrWritable = true ↔ c.chr.length = 0) ∧
          (∀ a : Word, 0x8000 ≤ a.toNat →
            storedByte s a = some (c.prg.getD ((a.toNat - 0x8000) % c.prg.length) 0)) ∧
          (c.chr.length = 8192 → ∀ k, k < 8192 → chrByte s.cart s.video k = c.chr.getD k 0) ∧
          (c.chr.length = 0 → ∀ k, k < 8192 → k < l.chr0.length → chrByte s.cart s.video k = l.chr0.getD k 0) ∧
          (∀ k, k < 2048 → k < l.ram0.length → readCell .cpu s.mem k = l.ram0.getD k 0) ∧
          (cfg.prgRam = true → ∀ k, k < 8192 → k < l.prgRam0.length →
            readCell .cpu s.mem (0x6000 + k) = l.prgRam0.getD k 0) ∧
          (∀ k, k < 256 → k < l.oam0.length → oamByte s.video k = l.oam0.getD k 0) ∧
          (∀ k, k < 2048 → k < l.nt0.length → readCell .nameTable s.video.nt k = l.nt0.getD k 0) ∧
          (∀ k, k < 32 → k < l.pal0.length → palByte s.video k = l.pal0.getD k 0 &&& 0x3F) ∧
          s.canonical = true ∧ s.cpu.fault = none
end

