-- ==== Sys2Proof/Laws/Audio.lean ====
section
/-! SUPPORT. The laws of the audio unit: every register write, every tick and the removal of samples keep its invariants,
and a tick moves its cycle counter by one. -/

namespace Sys2Proof.Machine

theorem Audio.sound_iff (a : Audio) :
    a.sound = true ↔
      a.noise.lfsr ≠ 0 ∧ silencedWhenOff a.pulse0.enabled a.pulse0.length = true ∧
        silencedWhenOff a.pulse1.enabled a.pulse1.length = true ∧
        silencedWhenOff a.tri.enabled a.tri.length = true ∧
        silencedWhenOff a.noise.enabled a.noise.length = true ∧ sequencerInRange a.fsMode a.fsCount = true := by
  simp [Audio.sound, and_assoc]

theorem silencedWhenOff_load {e : Bool} {l : Byte} (h : silencedWhenOff e l = true) (v : Byte) :
    silencedWhenOff e (loadLength e l v) = true := by
  cases e <;> simp_all [silencedWhenOff, loadLength]

theorem silencedWhenOff_clock {e h : Bool} {l : Byte} (hl : silencedWhenOff e l = true) :
    silencedWhenOff e (lengthClock h l) = true := by
  cases e
  · have : l = 0 := by simpa [silencedWhenOff] using hl
    simp [silencedWhenOff, lengthClock, this]
  · rfl

theorem silencedWhenOff_enable (e : Bool) (l : Byte) : silencedWhenOff e (if e then l else 0) = true := by
  cases e <;> simp [silencedWhenOff]

theorem quarterFrame_sound {a : Audio} (h : a.sound = true) : (quarterFrame a).sound = true := h

theorem halfFrame_sound {a : Audio} (h : a.sound = true) : (halfFrame a).sound = true := by
  rw [Audio.sound_iff] at h ⊢
  obtain ⟨h1, h2, h3, h4, h5, h6⟩ := h
  exact ⟨h1, silencedWhenOff_clock h2, silencedWhenOff_clock h3, silencedWhenOff_clock h4,
    silencedWhenOff_clock h5, h6⟩

/-- A shift register that is not 0 does not become 0. -/
theorem lfsrNext_ne_zero {l : BitVec 15} (h : l ≠ 0) (m : Bool) : lfsrNext l m ≠ 0 := by
  intro he
  apply h
  have bit : ∀ k, k < 15 → (lfsrNext l m).getLsbD k = false := fun k _ => by rw [he]; simp
  have up : ∀ k, k < 14 → l.getLsbD (1 + k) = false := fun k hk => by
    have := bit k (by omega)
    unfold lfsrNext at this
    rw [BitVec.getLsbD_append] at this
    simpa [hk] using this
  have top := bit 14 (by omega)
  unfold lfsrNext at top
  rw [BitVec.getLsbD_append] at top
  have h1 := up 0 (by omega)
  have h6 := up 5 (by omega)
  have low : l.getLsbD 0 = false := by
    cases m <;> simp_all
  refine BitVec.eq_of_getLsbD_eq fun i hi => ?_
  cases i with
  | zero => simpa using low
  | succ i => simpa [Nat.add_comm] using up i (by omega)

/-- One more count stays below the wrap point, or wraps to 0. -/
theorem sequencerInRange_next {m : Bool} {n : Nat} (h : sequencerInRange m n = true) :
    sequencerInRange m (if wrapAt m (n + 1) then 0 else n + 1) = true := by
  unfold sequencerInRange wrapAt at *
  cases m <;> simp at h ⊢ <;> split_ifs <;> omega

theorem channelTick_sound {a : Audio} (h : a.sound = true) : (channelTick a).sound = true := by
  have hpre : ∀ b : Audio, b.sound = true → (frameSequencer b).sound = true := by
    intro b hb
    have hq : (if quarterAt b.fsMode (b.fsCount + 1) then quarterFrame b else b).sound = true := by
      split
      · exact quarterFrame_sound hb
      · exact hb
    have hh : ∀ c : Audio, c.sound = true → (if halfAt b.fsMode (b.fsCount + 1) then halfFrame c else c).sound = true := by
      intro c hc
      split
      · exact halfFrame_sound hc
      · exact hc
    have hfin := hh _ hq
    have hmode : (if halfAt b.fsMode (b.fsCount + 1) then
        halfFrame (if quarterAt b.fsMode (b.fsCount + 1) then quarterFrame b else b)
        else (if quarterAt b.fsMode (b.fsCount + 1) then quarterFrame b else b)).fsMode = b.fsMode := by
      split <;> split <;> rfl
    rw [Audio.sound_iff] at hfin hb
    unfold frameSequencer
    rw [Audio.sound_iff]
    refine ⟨hfin.1, hfin.2.1, hfin.2.2.1, hfin.2.2.2.1, hfin.2.2.2.2.1, ?_⟩
    simp only [hmode]
    exact sequencerInRange_next hb.2.2.2.2.2
  unfold channelTick
  refine hpre _ ?_
  rw [Audio.sound_iff] at h ⊢
  obtain ⟨h1, h2, h3, h4, h5, h6⟩ := h
  have hp : ∀ p : Pulse, silencedWhenOff p.clock.enabled p.clock.length = silencedWhenOff p.enabled p.length := by
    intro p; unfold Pulse.clock; split <;> rfl
  refine ⟨?_, ?_, ?_, ?_, ?_, h6⟩
  · simp only [Noise.clock]
    split
    · exact lfsrNext_ne_zero h1 _
    · exact h1
  · simp only
    split
    · rw [hp]; exact h2
    · exact h2
  · simp only
    split
    · rw [hp]; exact h3
    · exact h3
  · simp only [Triangle.clock]; split <;> exact h4
  · simp only [Noise.clock]; split <;> exact h5

theorem audioTick_sound {cfg : Cfg} {a : Audio} (h : a.sound = true) : (audioTick cfg a).sound = true :=
  channelTick_sound h

/-- `n` audio ticks keep the unit's invariants. -/
theorem audioTicks_sound {cfg : Cfg} (n : Nat) {a : Audio} (h : a.sound = true) :
    (audioTicks cfg n a).sound = true := by
  induction n generalizing a with
  | zero => exact h
  | succ n ih => exact ih (audioTick_sound h)

theorem frameSequencer_apuCycle (a : Audio) : (frameSequencer a).apuCycle = a.apuCycle := by
  unfold frameSequencer
  simp only
  split <;> split <;> rfl

/-- One tick, one audio cycle. -/
theorem audioTick_apuCycle (cfg : Cfg) (a : Audio) : (audioTick cfg a).apuCycle = a.apuCycle + 1 := by
  unfold audioTick channelTick
  simp only [frameSequencer_apuCycle]

theorem audioTicks_apuCycle (cfg : Cfg) (n : Nat) (a : Audio) : (audioTicks cfg n a).apuCycle = a.apuCycle + n := by
  induction n generalizing a with
  | zero => rfl
  | succ n ih => rw [audioTicks, ih, audioTick_apuCycle]; omega

/-- The last of `n + 1` ticks, split off. -/
theorem audioTicks_succ (cfg : Cfg) (n : Nat) (a : Audio) :
    audioTicks cfg (n + 1) a = audioTick cfg (audioTicks cfg n a) := by
  induction n generalizing a with
  | zero => rfl
  | succ n ih => rw [audioTicks, ih]; rfl

theorem pulseWrite_silenced {p : Pulse} (h : silencedWhenOff p.enabled p.length = true) (r : Nat) (v : Byte) :
    silencedWhenOff (p.write r v).enabled (p.write r v).length = true := by
  unfold Pulse.write
  split
  · exact h
  · exact h
  · exact h
  · exact silencedWhenOff_load h v
  · exact h

theorem triangleWrite_silenced {t : Triangle} (h : silencedWhenOff t.enabled t.length = true) (r : Nat) (v : Byte) :
    silencedWhenOff (t.write r v).enabled (t.write r v).length = true := by
  unfold Triangle.write
  split
  · exact h
  · exact h
  · exact silencedWhenOff_load h v
  · exact h

theorem noiseWrite_silenced {n : Noise} (h : silencedWhenOff n.enabled n.length = true) (r : Nat) (v : Byte) :
    silencedWhenOff (n.write r v).enabled (n.write r v).length = true := by
  unfold Noise.write
  split
  · exact h
  · exact h
  · exact silencedWhenOff_load h v
  · exact h

theorem noiseWrite_lfsr (n : Noise) (r : Nat) (v : Byte) : (n.write r v).lfsr = n.lfsr := by
  unfold Noise.write
  split <;> rfl

/-- Every register write keeps the audio unit's invariants. -/
theorem audioWrite_sound {a : Audio} (h : a.sound = true) (k : Nat) (v : Byte) : (audioWrite a k v).sound = true := by
  have h' := (Audio.sound_iff a).1 h
  obtain ⟨h1, h2, h3, h4, h5, h6⟩ := h'
  unfold audioWrite
  split_ifs
  · rw [Audio.sound_iff]; exact ⟨h1, pulseWrite_silenced h2 _ _, h3, h4, h5, h6⟩
  · rw [Audio.sound_iff]; exact ⟨h1, h2, pulseWrite_silenced h3 _ _, h4, h5, h6⟩
  · rw [Audio.sound_iff]; exact ⟨h1, h2, h3, triangleWrite_silenced h4 _ _, h5, h6⟩
  · rw [Audio.sound_iff]; exact ⟨by rw [noiseWrite_lfsr]; exact h1, h2, h3, h4, noiseWrite_silenced h5 _ _, h6⟩
  · exact h
  · unfold audioEnable
    rw [Audio.sound_iff]
    exact ⟨h1, silencedWhenOff_enable _ _, silencedWhenOff_enable _ _, silencedWhenOff_enable _ _,
      silencedWhenOff_enable _ _, h6⟩
  · have hb : ({ a with fsMode := v.getLsbD 7, fsInhibit := v.getLsbD 6, fsCount := 0 } : Audio).sound = true := by
      rw [Audio.sound_iff]
      refine ⟨h1, h2, h3, h4, h5, ?_⟩
      unfold sequencerInRange
      cases v.getLsbD 7 <;> simp
    unfold sequencerWrite
    simp only
    split
    · exact halfFrame_sound (quarterFrame_sound hb)
    · exact hb
  · exact h

/-- `n` audio ticks are the tick repeated (R300). -/
theorem audioTicks_iterate (cfg : Cfg) (n : Nat) (a : Audio) :
    audioTicks cfg n a = Nat.iterate (audioTick cfg) n a := by
  induction n generalizing a with
  | zero => rfl
  | succ n ih => exact ih _

/-- The sequencer's step leaves the timers, the waveform positions, the shift register and the samples alone. -/
theorem frameSequencer_timers (b : Audio) :
    (frameSequencer b).tri.timer = b.tri.timer ∧ (frameSequencer b).tri.pos = b.tri.pos ∧
      (frameSequencer b).noise.lfsr = b.noise.lfsr ∧ (frameSequencer b).noise.timer = b.noise.timer ∧
      (frameSequencer b).pulse0.timer = b.pulse0.timer ∧ (frameSequencer b).pulse0.pos = b.pulse0.pos ∧
      (frameSequencer b).pulse1.timer = b.pulse1.timer ∧ (frameSequencer b).pulse1.pos = b.pulse1.pos ∧
      (frameSequencer b).samplesRev = b.samplesRev := by
  unfold frameSequencer
  dsimp only
  split <;> split <;> exact ⟨rfl, rfl, rfl, rfl, rfl, rfl, rfl, rfl, rfl⟩

end Sys2Proof.Machine
end

