-- ==== Sys2Proof/Laws/State.lean ====
section
/-! SUPPORT. One law per field per named update of the state, each true by definition; simp reads them, so no later proof
unfolds a record update. -/

namespace Sys2Proof.Machine.State

/-! ### `setPc` -/

@[simp] theorem setPc_cfg (s : State) (v : Word) : (s.setPc v).cfg = s.cfg := rfl
@[simp] theorem setPc_cart (s : State) (v : Word) : (s.setPc v).cart = s.cart := rfl
@[simp] theorem setPc_bus (s : State) (v : Word) : (s.setPc v).bus = s.bus := rfl
@[simp] theorem setPc_mem (s : State) (v : Word) : (s.setPc v).mem = s.mem := rfl
@[simp] theorem setPc_video (s : State) (v : Word) : (s.setPc v).video = s.video := rfl
@[simp] theorem setPc_audio (s : State) (v : Word) : (s.setPc v).audio = s.audio := rfl
@[simp] theorem setPc_input (s : State) (v : Word) : (s.setPc v).input = s.input := rfl
@[simp] theorem setPc_hostCalls (s : State) (v : Word) : (s.setPc v).hostCalls = s.hostCalls := rfl
@[simp] theorem setPc_pc (s : State) (v : Word) : (s.setPc v).cpu.pc = v := rfl
@[simp] theorem setPc_sp (s : State) (v : Word) : (s.setPc v).cpu.sp = s.cpu.sp := rfl
@[simp] theorem setPc_a (s : State) (v : Word) : (s.setPc v).cpu.a = s.cpu.a := rfl
@[simp] theorem setPc_x (s : State) (v : Word) : (s.setPc v).cpu.x = s.cpu.x := rfl
@[simp] theorem setPc_y (s : State) (v : Word) : (s.setPc v).cpu.y = s.cpu.y := rfl
@[simp] theorem setPc_flags (s : State) (v : Word) : (s.setPc v).cpu.flags = s.cpu.flags := rfl
@[simp] theorem setPc_cyc (s : State) (v : Word) : (s.setPc v).cpu.cyc = s.cpu.cyc := rfl
@[simp] theorem setPc_fault (s : State) (v : Word) : (s.setPc v).cpu.fault = s.cpu.fault := rfl

/-! ### `setSp` -/

@[simp] theorem setSp_cfg (s : State) (v : Byte) : (s.setSp v).cfg = s.cfg := rfl
@[simp] theorem setSp_cart (s : State) (v : Byte) : (s.setSp v).cart = s.cart := rfl
@[simp] theorem setSp_bus (s : State) (v : Byte) : (s.setSp v).bus = s.bus := rfl
@[simp] theorem setSp_mem (s : State) (v : Byte) : (s.setSp v).mem = s.mem := rfl
@[simp] theorem setSp_video (s : State) (v : Byte) : (s.setSp v).video = s.video := rfl
@[simp] theorem setSp_audio (s : State) (v : Byte) : (s.setSp v).audio = s.audio := rfl
@[simp] theorem setSp_input (s : State) (v : Byte) : (s.setSp v).input = s.input := rfl
@[simp] theorem setSp_hostCalls (s : State) (v : Byte) : (s.setSp v).hostCalls = s.hostCalls := rfl
@[simp] theorem setSp_pc (s : State) (v : Byte) : (s.setSp v).cpu.pc = s.cpu.pc := rfl
@[simp] theorem setSp_sp (s : State) (v : Byte) : (s.setSp v).cpu.sp = v := rfl
@[simp] theorem setSp_a (s : State) (v : Byte) : (s.setSp v).cpu.a = s.cpu.a := rfl
@[simp] theorem setSp_x (s : State) (v : Byte) : (s.setSp v).cpu.x = s.cpu.x := rfl
@[simp] theorem setSp_y (s : State) (v : Byte) : (s.setSp v).cpu.y = s.cpu.y := rfl
@[simp] theorem setSp_flags (s : State) (v : Byte) : (s.setSp v).cpu.flags = s.cpu.flags := rfl
@[simp] theorem setSp_cyc (s : State) (v : Byte) : (s.setSp v).cpu.cyc = s.cpu.cyc := rfl
@[simp] theorem setSp_fault (s : State) (v : Byte) : (s.setSp v).cpu.fault = s.cpu.fault := rfl

/-! ### `setA` -/

@[simp] theorem setA_cfg (s : State) (v : Byte) : (s.setA v).cfg = s.cfg := rfl
@[simp] theorem setA_cart (s : State) (v : Byte) : (s.setA v).cart = s.cart := rfl
@[simp] theorem setA_bus (s : State) (v : Byte) : (s.setA v).bus = s.bus := rfl
@[simp] theorem setA_mem (s : State) (v : Byte) : (s.setA v).mem = s.mem := rfl
@[simp] theorem setA_video (s : State) (v : Byte) : (s.setA v).video = s.video := rfl
@[simp] theorem setA_audio (s : State) (v : Byte) : (s.setA v).audio = s.audio := rfl
@[simp] theorem setA_input (s : State) (v : Byte) : (s.setA v).input = s.input := rfl
@[simp] theorem setA_hostCalls (s : State) (v : Byte) : (s.setA v).hostCalls = s.hostCalls := rfl
@[simp] theorem setA_pc (s : State) (v : Byte) : (s.setA v).cpu.pc = s.cpu.pc := rfl
@[simp] theorem setA_sp (s : State) (v : Byte) : (s.setA v).cpu.sp = s.cpu.sp := rfl
@[simp] theorem setA_a (s : State) (v : Byte) : (s.setA v).cpu.a = v := rfl
@[simp] theorem setA_x (s : State) (v : Byte) : (s.setA v).cpu.x = s.cpu.x := rfl
@[simp] theorem setA_y (s : State) (v : Byte) : (s.setA v).cpu.y = s.cpu.y := rfl
@[simp] theorem setA_flags (s : State) (v : Byte) : (s.setA v).cpu.flags = s.cpu.flags := rfl
@[simp] theorem setA_cyc (s : State) (v : Byte) : (s.setA v).cpu.cyc = s.cpu.cyc := rfl
@[simp] theorem setA_fault (s : State) (v : Byte) : (s.setA v).cpu.fault = s.cpu.fault := rfl

/-! ### `setX` -/

@[simp] theorem setX_cfg (s : State) (v : Byte) : (s.setX v).cfg = s.cfg := rfl
@[simp] theorem setX_cart (s : State) (v : Byte) : (s.setX v).cart = s.cart := rfl
@[simp] theorem setX_bus (s : State) (v : Byte) : (s.setX v).bus = s.bus := rfl
@[simp] theorem setX_mem (s : State) (v : Byte) : (s.setX v).mem = s.mem := rfl
@[simp] theorem setX_video (s : State) (v : Byte) : (s.setX v).video = s.video := rfl
@[simp] theorem setX_audio (s : State) (v : Byte) : (s.setX v).audio = s.audio := rfl
@[simp] theorem setX_input (s : State) (v : Byte) : (s.setX v).input = s.input := rfl
@[simp] theorem setX_hostCalls (s : State) (v : Byte) : (s.setX v).hostCalls = s.hostCalls := rfl
@[simp] theorem setX_pc (s : State) (v : Byte) : (s.setX v).cpu.pc = s.cpu.pc := rfl
@[simp] theorem setX_sp (s : State) (v : Byte) : (s.setX v).cpu.sp = s.cpu.sp := rfl
@[simp] theorem setX_a (s : State) (v : Byte) : (s.setX v).cpu.a = s.cpu.a := rfl
@[simp] theorem setX_x (s : State) (v : Byte) : (s.setX v).cpu.x = v := rfl
@[simp] theorem setX_y (s : State) (v : Byte) : (s.setX v).cpu.y = s.cpu.y := rfl
@[simp] theorem setX_flags (s : State) (v : Byte) : (s.setX v).cpu.flags = s.cpu.flags := rfl
@[simp] theorem setX_cyc (s : State) (v : Byte) : (s.setX v).cpu.cyc = s.cpu.cyc := rfl
@[simp] theorem setX_fault (s : State) (v : Byte) : (s.setX v).cpu.fault = s.cpu.fault := rfl

/-! ### `setY` -/

@[simp] theorem setY_cfg (s : State) (v : Byte) : (s.setY v).cfg = s.cfg := rfl
@[simp] theorem setY_cart (s : State) (v : Byte) : (s.setY v).cart = s.cart := rfl
@[simp] theorem setY_bus (s : State) (v : Byte) : (s.setY v).bus = s.bus := rfl
@[simp] theorem setY_mem (s : State) (v : Byte) : (s.setY v).mem = s.mem := rfl
@[simp] theorem setY_video (s : State) (v : Byte) : (s.setY v).video = s.video := rfl
@[simp] theorem setY_audio (s : State) (v : Byte) : (s.setY v).audio = s.audio := rfl
@[simp] theorem setY_input (s : State) (v : Byte) : (s.setY v).input = s.input := rfl
@[simp] theorem setY_hostCalls (s : State) (v : Byte) : (s.setY v).hostCalls = s.hostCalls := rfl
@[simp] theorem setY_pc (s : State) (v : Byte) : (s.setY v).cpu.pc = s.cpu.pc := rfl
@[simp] theorem setY_sp (s : State) (v : Byte) : (s.setY v).cpu.sp = s.cpu.sp := rfl
@[simp] theorem setY_a (s : State) (v : Byte) : (s.setY v).cpu.a = s.cpu.a := rfl
@[simp] theorem setY_x (s : State) (v : Byte) : (s.setY v).cpu.x = s.cpu.x := rfl
@[simp] theorem setY_y (s : State) (v : Byte) : (s.setY v).cpu.y = v := rfl
@[simp] theorem setY_flags (s : State) (v : Byte) : (s.setY v).cpu.flags = s.cpu.flags := rfl
@[simp] theorem setY_cyc (s : State) (v : Byte) : (s.setY v).cpu.cyc = s.cpu.cyc := rfl
@[simp] theorem setY_fault (s : State) (v : Byte) : (s.setY v).cpu.fault = s.cpu.fault := rfl

/-! ### `setFlags` -/

@[simp] theorem setFlags_cfg (s : State) (v : Flags) : (s.setFlags v).cfg = s.cfg := rfl
@[simp] theorem setFlags_cart (s : State) (v : Flags) : (s.setFlags v).cart = s.cart := rfl
@[simp] theorem setFlags_bus (s : State) (v : Flags) : (s.setFlags v).bus = s.bus := rfl
@[simp] theorem setFlags_mem (s : State) (v : Flags) : (s.setFlags v).mem = s.mem := rfl
@[simp] theorem setFlags_video (s : State) (v : Flags) : (s.setFlags v).video = s.video := rfl
@[simp] theorem setFlags_audio (s : State) (v : Flags) : (s.setFlags v).audio = s.audio := rfl
@[simp] theorem setFlags_input (s : State) (v : Flags) : (s.setFlags v).input = s.input := rfl
@[simp] theorem setFlags_hostCalls (s : State) (v : Flags) : (s.setFlags v).hostCalls = s.hostCalls := rfl
@[simp] theorem setFlags_pc (s : State) (v : Flags) : (s.setFlags v).cpu.pc = s.cpu.pc := rfl
@[simp] theorem setFlags_sp (s : State) (v : Flags) : (s.setFlags v).cpu.sp = s.cpu.sp := rfl
@[simp] theorem setFlags_a (s : State) (v : Flags) : (s.setFlags v).cpu.a = s.cpu.a := rfl
@[simp] theorem setFlags_x (s : State) (v : Flags) : (s.setFlags v).cpu.x = s.cpu.x := rfl
@[simp] theorem setFlags_y (s : State) (v : Flags) : (s.setFlags v).cpu.y = s.cpu.y := rfl
@[simp] theorem setFlags_flags (s : State) (v : Flags) : (s.setFlags v).cpu.flags = v := rfl
@[simp] theorem setFlags_cyc (s : State) (v : Flags) : (s.setFlags v).cpu.cyc = s.cpu.cyc := rfl
@[simp] theorem setFlags_fault (s : State) (v : Flags) : (s.setFlags v).cpu.fault = s.cpu.fault := rfl

/-! ### `addCycles` -/

@[simp] theorem addCycles_cfg (s : State) (v : Nat) : (s.addCycles v).cfg = s.cfg := rfl
@[simp] theorem addCycles_cart (s : State) (v : Nat) : (s.addCycles v).cart = s.cart := rfl
@[simp] theorem addCycles_bus (s : State) (v : Nat) : (s.addCycles v).bus = s.bus := rfl
@[simp] theorem addCycles_mem (s : State) (v : Nat) : (s.addCycles v).mem = s.mem := rfl
@[simp] theorem addCycles_video (s : State) (v : Nat) : (s.addCycles v).video = s.video := rfl
@[simp] theorem addCycles_audio (s : State) (v : Nat) : (s.addCycles v).audio = s.audio := rfl
@[simp] theorem addCycles_input (s : State) (v : Nat) : (s.addCycles v).input = s.input := rfl
@[simp] theorem addCycles_hostCalls (s : State) (v : Nat) : (s.addCycles v).hostCalls = s.hostCalls := rfl
@[simp] theorem addCycles_pc (s : State) (v : Nat) : (s.addCycles v).cpu.pc = s.cpu.pc := rfl
@[simp] theorem addCycles_sp (s : State) (v : Nat) : (s.addCycles v).cpu.sp = s.cpu.sp := rfl
@[simp] theorem addCycles_a (s : State) (v : Nat) : (s.addCycles v).cpu.a = s.cpu.a := rfl
@[simp] theorem addCycles_x (s : State) (v : Nat) : (s.addCycles v).cpu.x = s.cpu.x := rfl
@[simp] theorem addCycles_y (s : State) (v : Nat) : (s.addCycles v).cpu.y = s.cpu.y := rfl
@[simp] theorem addCycles_flags (s : State) (v : Nat) : (s.addCycles v).cpu.flags = s.cpu.flags := rfl
@[simp] theorem addCycles_cyc (s : State) (v : Nat) : (s.addCycles v).cpu.cyc = s.cpu.cyc + v := rfl
@[simp] theorem addCycles_fault (s : State) (v : Nat) : (s.addCycles v).cpu.fault = s.cpu.fault := rfl

/-! ### `setFault` -/

@[simp] theorem setFault_cfg (s : State) (v : Option DecodeErrorRecord) : (s.setFault v).cfg = s.cfg := rfl
@[simp] theorem setFault_cart (s : State) (v : Option DecodeErrorRecord) : (s.setFault v).cart = s.cart := rfl
@[simp] theorem setFault_bus (s : State) (v : Option DecodeErrorRecord) : (s.setFault v).bus = s.bus := rfl
@[simp] theorem setFault_mem (s : State) (v : Option DecodeErrorRecord) : (s.setFault v).mem = s.mem := rfl
@[simp] theorem setFault_video (s : State) (v : Option DecodeErrorRecord) : (s.setFault v).video = s.video := rfl
@[simp] theorem setFault_audio (s : State) (v : Option DecodeErrorRecord) : (s.setFault v).audio = s.audio := rfl
@[simp] theorem setFault_input (s : State) (v : Option DecodeErrorRecord) : (s.setFault v).input = s.input := rfl
@[simp] theorem setFault_hostCalls (s : State) (v : Option DecodeErrorRecord) : (s.setFault v).hostCalls = s.hostCalls := rfl
@[simp] theorem setFault_pc (s : State) (v : Option DecodeErrorRecord) : (s.setFault v).cpu.pc = s.cpu.pc := rfl
@[simp] theorem setFault_sp (s : State) (v : Option DecodeErrorRecord) : (s.setFault v).cpu.sp = s.cpu.sp := rfl
@[simp] theorem setFault_a (s : State) (v : Option DecodeErrorRecord) : (s.setFault v).cpu.a = s.cpu.a := rfl
@[simp] theorem setFault_x (s : State) (v : Option DecodeErrorRecord) : (s.setFault v).cpu.x = s.cpu.x := rfl
@[simp] theorem setFault_y (s : State) (v : Option DecodeErrorRecord) : (s.setFault v).cpu.y = s.cpu.y := rfl
@[simp] theorem setFault_flags (s : State) (v : Option DecodeErrorRecord) : (s.setFault v).cpu.flags = s.cpu.flags := rfl
@[simp] theorem setFault_cyc (s : State) (v : Option DecodeErrorRecord) : (s.setFault v).cpu.cyc = s.cpu.cyc := rfl
@[simp] theorem setFault_fault (s : State) (v : Option DecodeErrorRecord) : (s.setFault v).cpu.fault = v := rfl

/-! ### `setLatch` -/

@[simp] theorem setLatch_cfg (s : State) (v : Byte) : (s.setLatch v).cfg = s.cfg := rfl
@[simp] theorem setLatch_cart (s : State) (v : Byte) : (s.setLatch v).cart = s.cart := rfl
@[simp] theorem setLatch_cpu (s : State) (v : Byte) : (s.setLatch v).cpu = s.cpu := rfl
@[simp] theorem setLatch_mem (s : State) (v : Byte) : (s.setLatch v).mem = s.mem := rfl
@[simp] theorem setLatch_video (s : State) (v : Byte) : (s.setLatch v).video = s.video := rfl
@[simp] theorem setLatch_audio (s : State) (v : Byte) : (s.setLatch v).audio = s.audio := rfl
@[simp] theorem setLatch_input (s : State) (v : Byte) : (s.setLatch v).input = s.input := rfl
@[simp] theorem setLatch_hostCalls (s : State) (v : Byte) : (s.setLatch v).hostCalls = s.hostCalls := rfl
@[simp] theorem setLatch_intLine (s : State) (v : Byte) : (s.setLatch v).bus.intLine = s.bus.intLine := rfl
@[simp] theorem setLatch_latch (s : State) (v : Byte) : (s.setLatch v).bus.latch = v := rfl

/-! ### `setIntLine` -/

@[simp] theorem setIntLine_cfg (s : State) (v : Bool) : (s.setIntLine v).cfg = s.cfg := rfl
@[simp] theorem setIntLine_cart (s : State) (v : Bool) : (s.setIntLine v).cart = s.cart := rfl
@[simp] theorem setIntLine_cpu (s : State) (v : Bool) : (s.setIntLine v).cpu = s.cpu := rfl
@[simp] theorem setIntLine_mem (s : State) (v : Bool) : (s.setIntLine v).mem = s.mem := rfl
@[simp] theorem setIntLine_video (s : State) (v : Bool) : (s.setIntLine v).video = s.video := rfl
@[simp] theorem setIntLine_audio (s : State) (v : Bool) : (s.setIntLine v).audio = s.audio := rfl
@[simp] theorem setIntLine_input (s : State) (v : Bool) : (s.setIntLine v).input = s.input := rfl
@[simp] theorem setIntLine_hostCalls (s : State) (v : Bool) : (s.setIntLine v).hostCalls = s.hostCalls := rfl
@[simp] theorem setIntLine_intLine (s : State) (v : Bool) : (s.setIntLine v).bus.intLine = v := rfl
@[simp] theorem setIntLine_latch (s : State) (v : Bool) : (s.setIntLine v).bus.latch = s.bus.latch := rfl

/-! ### `setMem` -/

@[simp] theorem setMem_cfg (s : State) (v : Memory) : (s.setMem v).cfg = s.cfg := rfl
@[simp] theorem setMem_cart (s : State) (v : Memory) : (s.setMem v).cart = s.cart := rfl
@[simp] theorem setMem_cpu (s : State) (v : Memory) : (s.setMem v).cpu = s.cpu := rfl
@[simp] theorem setMem_bus (s : State) (v : Memory) : (s.setMem v).bus = s.bus := rfl
@[simp] theorem setMem_mem (s : State) (v : Memory) : (s.setMem v).mem = v := rfl
@[simp] theorem setMem_video (s : State) (v : Memory) : (s.setMem v).video = s.video := rfl
@[simp] theorem setMem_audio (s : State) (v : Memory) : (s.setMem v).audio = s.audio := rfl
@[simp] theorem setMem_input (s : State) (v : Memory) : (s.setMem v).input = s.input := rfl
@[simp] theorem setMem_hostCalls (s : State) (v : Memory) : (s.setMem v).hostCalls = s.hostCalls := rfl

/-! ### `setVideo` -/

@[simp] theorem setVideo_cfg (s : State) (v : Video) : (s.setVideo v).cfg = s.cfg := rfl
@[simp] theorem setVideo_cart (s : State) (v : Video) : (s.setVideo v).cart = s.cart := rfl
@[simp] theorem setVideo_cpu (s : State) (v : Video) : (s.setVideo v).cpu = s.cpu := rfl
@[simp] theorem setVideo_bus (s : State) (v : Video) : (s.setVideo v).bus = s.bus := rfl
@[simp] theorem setVideo_mem (s : State) (v : Video) : (s.setVideo v).mem = s.mem := rfl
@[simp] theorem setVideo_video (s : State) (v : Video) : (s.setVideo v).video = v := rfl
@[simp] theorem setVideo_audio (s : State) (v : Video) : (s.setVideo v).audio = s.audio := rfl
@[simp] theorem setVideo_input (s : State) (v : Video) : (s.setVideo v).input = s.input := rfl
@[simp] theorem setVideo_hostCalls (s : State) (v : Video) : (s.setVideo v).hostCalls = s.hostCalls := rfl

/-! ### `setAudio` -/

@[simp] theorem setAudio_cfg (s : State) (v : Audio) : (s.setAudio v).cfg = s.cfg := rfl
@[simp] theorem setAudio_cart (s : State) (v : Audio) : (s.setAudio v).cart = s.cart := rfl
@[simp] theorem setAudio_cpu (s : State) (v : Audio) : (s.setAudio v).cpu = s.cpu := rfl
@[simp] theorem setAudio_bus (s : State) (v : Audio) : (s.setAudio v).bus = s.bus := rfl
@[simp] theorem setAudio_mem (s : State) (v : Audio) : (s.setAudio v).mem = s.mem := rfl
@[simp] theorem setAudio_video (s : State) (v : Audio) : (s.setAudio v).video = s.video := rfl
@[simp] theorem setAudio_audio (s : State) (v : Audio) : (s.setAudio v).audio = v := rfl
@[simp] theorem setAudio_input (s : State) (v : Audio) : (s.setAudio v).input = s.input := rfl
@[simp] theorem setAudio_hostCalls (s : State) (v : Audio) : (s.setAudio v).hostCalls = s.hostCalls := rfl

/-! ### `setInput` -/

@[simp] theorem setInput_cfg (s : State) (v : Input) : (s.setInput v).cfg = s.cfg := rfl
@[simp] theorem setInput_cart (s : State) (v : Input) : (s.setInput v).cart = s.cart := rfl
@[simp] theorem setInput_cpu (s : State) (v : Input) : (s.setInput v).cpu = s.cpu := rfl
@[simp] theorem setInput_bus (s : State) (v : Input) : (s.setInput v).bus = s.bus := rfl
@[simp] theorem setInput_mem (s : State) (v : Input) : (s.setInput v).mem = s.mem := rfl
@[simp] theorem setInput_video (s : State) (v : Input) : (s.setInput v).video = s.video := rfl
@[simp] theorem setInput_audio (s : State) (v : Input) : (s.setInput v).audio = s.audio := rfl
@[simp] theorem setInput_input (s : State) (v : Input) : (s.setInput v).input = v := rfl
@[simp] theorem setInput_hostCalls (s : State) (v : Input) : (s.setInput v).hostCalls = s.hostCalls := rfl

end Sys2Proof.Machine.State
end

