-- ==== Sys2Proof/Laws/Flags.lean ====
section
/-! SUPPORT. The laws of the flag computations: what `setNZ` touches, and that packing the flags and unpacking them again
gives the same flags (`10_state.md` R25). -/

namespace Sys2Proof.Machine

/-! ## `SetNZ` -/

@[simp] theorem setNZ_z (f : Flags) (v : Byte) : (f.setNZ v).z = (v == 0) := rfl
@[simp] theorem setNZ_n (f : Flags) (v : Byte) : (f.setNZ v).n = v.msb := rfl
@[simp] theorem setNZ_c (f : Flags) (v : Byte) : (f.setNZ v).c = f.c := rfl
@[simp] theorem setNZ_i (f : Flags) (v : Byte) : (f.setNZ v).i = f.i := rfl
@[simp] theorem setNZ_d (f : Flags) (v : Byte) : (f.setNZ v).d = f.d := rfl
@[simp] theorem setNZ_v (f : Flags) (v : Byte) : (f.setNZ v).v = f.v := rfl

namespace State

@[simp] theorem setNZ_cfg (s : State) (v : Byte) : (s.setNZ v).cfg = s.cfg := rfl
@[simp] theorem setNZ_cart (s : State) (v : Byte) : (s.setNZ v).cart = s.cart := rfl
@[simp] theorem setNZ_bus (s : State) (v : Byte) : (s.setNZ v).bus = s.bus := rfl
@[simp] theorem setNZ_mem (s : State) (v : Byte) : (s.setNZ v).mem = s.mem := rfl
@[simp] theorem setNZ_video (s : State) (v : Byte) : (s.setNZ v).video = s.video := rfl
@[simp] theorem setNZ_audio (s : State) (v : Byte) : (s.setNZ v).audio = s.audio := rfl
@[simp] theorem setNZ_input (s : State) (v : Byte) : (s.setNZ v).input = s.input := rfl
@[simp] theorem setNZ_hostCalls (s : State) (v : Byte) : (s.setNZ v).hostCalls = s.hostCalls := rfl
@[simp] theorem setNZ_flags (s : State) (v : Byte) : (s.setNZ v).cpu.flags = s.cpu.flags.setNZ v := rfl
@[simp] theorem setNZ_pc (s : State) (v : Byte) : (s.setNZ v).cpu.pc = s.cpu.pc := rfl
@[simp] theorem setNZ_sp (s : State) (v : Byte) : (s.setNZ v).cpu.sp = s.cpu.sp := rfl
@[simp] theorem setNZ_a (s : State) (v : Byte) : (s.setNZ v).cpu.a = s.cpu.a := rfl
@[simp] theorem setNZ_x (s : State) (v : Byte) : (s.setNZ v).cpu.x = s.cpu.x := rfl
@[simp] theorem setNZ_y (s : State) (v : Byte) : (s.setNZ v).cpu.y = s.cpu.y := rfl
@[simp] theorem setNZ_cyc (s : State) (v : Byte) : (s.setNZ v).cpu.cyc = s.cpu.cyc := rfl
@[simp] theorem setNZ_fault (s : State) (v : Byte) : (s.setNZ v).cpu.fault = s.cpu.fault := rfl

end State

/-! ## `PackP` and `UnpackP` -/

/-- Unpacking the byte image of the flags gives the flags, whatever the mark bit was. -/
@[simp] theorem unpackP_packP (f : Flags) (b : Bool) : unpackP (packP f b) = f := by
  obtain ⟨c, z, i, d, v, n⟩ := f
  cases c <;> cases z <;> cases i <;> cases d <;> cases v <;> cases n <;> cases b <;> rfl

/-- Bit by bit: N V 1 b D I Z C. -/
theorem packP_bits (f : Flags) (b : Bool) :
    (packP f b).getLsbD 7 = f.n ∧ (packP f b).getLsbD 6 = f.v ∧ (packP f b).getLsbD 5 = true ∧
      (packP f b).getLsbD 4 = b ∧ (packP f b).getLsbD 3 = f.d ∧ (packP f b).getLsbD 2 = f.i ∧
      (packP f b).getLsbD 1 = f.z ∧ (packP f b).getLsbD 0 = f.c := by
  obtain ⟨c, z, i, d, v, n⟩ := f
  cases c <;> cases z <;> cases i <;> cases d <;> cases v <;> cases n <;> cases b <;> decide

end Sys2Proof.Machine
end

