-- ==== Sys2Proof/Laws/Memory.lean ====
section
/-! SUPPORT. The laws of sparse memories: read after write, every other address untouched, and that every memory operation
keeps the canonical form. -/

namespace Sys2Proof.Machine

variable {α : Type}

@[simp] theorem lookupCell_nil (a : Nat) : lookupCell ([] : List (Nat × α)) a = none := rfl

theorem lookupCell_insertCell_same (m : List (Nat × α)) (a : Nat) (v : α) :
    lookupCell (insertCell m a v) a = some v := by
  induction m with
  | nil => simp [insertCell, lookupCell]
  | cons c rest ih =>
    simp only [insertCell]
    split_ifs with h1 h2
    · simp [lookupCell]
    · simp [lookupCell]
    · simp [lookupCell, h1, ih]

theorem lookupCell_insertCell_other (m : List (Nat × α)) {a b : Nat} (v : α) (h : b ≠ a) :
    lookupCell (insertCell m a v) b = lookupCell m b := by
  induction m with
  | nil => simp [insertCell, lookupCell, Ne.symm h]
  | cons c rest ih =>
    simp only [insertCell]
    split_ifs with h1 h2
    · subst h1; simp [lookupCell, Ne.symm h]
    · simp [lookupCell, Ne.symm h]
    · simp [lookupCell, ih]

theorem lookupCell_eraseCell_same (m : List (Nat × α)) (a : Nat) : lookupCell (eraseCell m a) a = none := by
  induction m with
  | nil => rfl
  | cons c rest ih =>
    by_cases h : c.1 = a
    · simpa [eraseCell, h] using ih
    · simpa [eraseCell, h, lookupCell] using ih

theorem lookupCell_eraseCell_other (m : List (Nat × α)) {a b : Nat} (h : b ≠ a) :
    lookupCell (eraseCell m a) b = lookupCell m b := by
  induction m with
  | nil => rfl
  | cons c rest ih =>
    by_cases h1 : c.1 = a
    · have : c.1 ≠ b := fun e => h (e ▸ h1)
      simpa [eraseCell, h1, lookupCell, Ne.symm h] using ih
    · by_cases h2 : c.1 = b
      · simp [eraseCell, lookupCell, h2, h]
      · simpa [eraseCell, h1, lookupCell, h2] using ih

/-! ## Reads and writes -/

@[simp] theorem readCell_writeCell_same (sp : Space) (m : Memory) (a : Nat) (v : Byte) :
    readCell sp (writeCell sp m a v) a = v := by
  unfold readCell writeCell
  split_ifs with h
  · simp [lookupCell_eraseCell_same, h]
  · simp [lookupCell_insertCell_same]

theorem readCell_writeCell_other (sp : Space) (m : Memory) {a b : Nat} (v : Byte) (h : b ≠ a) :
    readCell sp (writeCell sp m a v) b = readCell sp m b := by
  unfold readCell writeCell
  split_ifs
  · rw [lookupCell_eraseCell_other m h]
  · rw [lookupCell_insertCell_other m v h]

/-- Read after write, as one equation. -/
theorem readCell_writeCell (sp : Space) (m : Memory) (a b : Nat) (v : Byte) :
    readCell sp (writeCell sp m a v) b = if b = a then v else readCell sp m b := by
  split_ifs with h
  · subst h; simp
  · exact readCell_writeCell_other sp m v h

/-! ## The canonical form -/

theorem rising_cons_iff (c : Nat × α) (m : List (Nat × α)) :
    rising (c :: m) = true ↔ (∀ d ∈ m.head?, c.1 < d.1) ∧ rising m = true := by
  cases m <;> simp [rising]

/-- In a rising list the head's address is below every later one. -/
theorem rising_lt {c : Nat × α} {m : List (Nat × α)} (h : rising (c :: m) = true) : ∀ d ∈ m, c.1 < d.1 := by
  induction m generalizing c with
  | nil => simp
  | cons d rest ih =>
    rw [rising_cons_iff] at h
    have hcd : c.1 < d.1 := h.1 d (by simp)
    intro e he
    rcases List.mem_cons.1 he with rfl | he
    · exact hcd
    · exact lt_trans hcd (ih h.2 e he)

theorem rising_of_lt {c : Nat × α} {m : List (Nat × α)} (h : ∀ d ∈ m, c.1 < d.1) (hm : rising m = true) :
    rising (c :: m) = true :=
  (rising_cons_iff c m).2 ⟨fun d hd => h d (List.mem_of_mem_head? hd), hm⟩

theorem mem_insertCell {m : List (Nat × α)} {a : Nat} {v : α} {c : Nat × α} (h : c ∈ insertCell m a v) :
    c = (a, v) ∨ c ∈ m := by
  induction m with
  | nil => simpa [insertCell] using h
  | cons d rest ih =>
    simp only [insertCell] at h
    split_ifs at h
    · rcases List.mem_cons.1 h with rfl | h
      · exact .inl rfl
      · exact .inr (List.mem_cons_of_mem _ h)
    · rcases List.mem_cons.1 h with rfl | h
      · exact .inl rfl
      · exact .inr h
    · rcases List.mem_cons.1 h with rfl | h
      · exact .inr List.mem_cons_self
      · exact (ih h).imp_right (List.mem_cons_of_mem _)

theorem rising_insertCell {m : List (Nat × α)} (h : rising m = true) (a : Nat) (v : α) :
    rising (insertCell m a v) = true := by
  induction m with
  | nil => rfl
  | cons d rest ih =>
    have hr := ((rising_cons_iff d rest).1 h).2
    have hlt := rising_lt h
    simp only [insertCell]
    split_ifs with h1 h2
    · subst h1; exact rising_of_lt hlt hr
    · refine rising_of_lt (fun e he => ?_) h
      rcases List.mem_cons.1 he with rfl | he
      · exact h2
      · exact lt_trans h2 (hlt e he)
    · refine rising_of_lt (fun e he => ?_) (ih hr)
      rcases mem_insertCell he with rfl | he
      · simp only; omega
      · exact hlt e he

theorem rising_filter {m : List (Nat × α)} (h : rising m = true) (p : Nat × α → Bool) :
    rising (m.filter p) = true := by
  induction m with
  | nil => rfl
  | cons d rest ih =>
    have hr := ih ((rising_cons_iff d rest).1 h).2
    by_cases hp : p d = true
    · rw [List.filter_cons_of_pos hp]
      exact rising_of_lt (fun e he => rising_lt h e (List.mem_filter.1 he).1) hr
    · rwa [List.filter_cons_of_neg hp]

theorem mem_eraseCell {m : List (Nat × α)} {a : Nat} {c : Nat × α} (h : c ∈ eraseCell m a) : c ∈ m ∧ c.1 ≠ a := by
  simpa [eraseCell] using h

theorem rising_eraseCell {m : List (Nat × α)} (h : rising m = true) (a : Nat) : rising (eraseCell m a) = true :=
  rising_filter h _

theorem Memory.wf_iff (sp : Space) (m : Memory) :
    Memory.wf sp m = true ↔
      rising m = true ∧ ∀ c ∈ m, spaceHolds sp c.1 = true ∧ unlisted sp c.1 ≠ some c.2 := by
  simp [Memory.wf, List.all_eq_true, Bool.and_eq_true]

@[simp] theorem Memory.wf_nil (sp : Space) : Memory.wf sp [] = true := rfl

/-- A write to an address the memory has keeps the canonical form. -/
theorem Memory.wf_writeCell {sp : Space} {m : Memory} (h : Memory.wf sp m = true) {a : Nat}
    (ha : spaceHolds sp a = true) (v : Byte) : Memory.wf sp (writeCell sp m a v) = true := by
  rw [Memory.wf_iff] at h ⊢
  unfold writeCell
  split_ifs with hv
  · exact ⟨rising_eraseCell h.1 a, fun c hc => h.2 c (mem_eraseCell hc).1⟩
  · refine ⟨rising_insertCell h.1 a v, fun c hc => ?_⟩
    rcases mem_insertCell hc with rfl | hc
    · exact ⟨ha, hv⟩
    · exact h.2 c hc

/-! ## The frame buffer -/

theorem readPixel_writePixel (f : Frame) (x y x' y' : Nat) (c : Byte) :
    readPixel (writePixel f x y c) x' y' = if x' = x ∧ y' = y then c else readPixel f x' y' := by
  have row : frameRow (writePixel f x y c) y' =
      if y' = y then writeCell .frame (frameRow f y) x c else frameRow f y' := by
    unfold writePixel
    split
    · rename_i hrow
      split_ifs with hy
      · subst hy; rw [hrow]; simp [frameRow, lookupCell_eraseCell_same]
      · simp [frameRow, lookupCell_eraseCell_other f hy]
    · rename_i p row hrow
      split_ifs with hy
      · subst hy; rw [hrow]; simp [frameRow, lookupCell_insertCell_same]
      · simp [frameRow, lookupCell_insertCell_other f _ hy]
  unfold readPixel
  rw [row]
  by_cases hy : y' = y
  · subst hy; simp [readCell_writeCell]
  · simp [hy]

theorem frameRow_wf {f : Frame} (h : Frame.wf f = true) (y : Nat) :
    Memory.wf .frame (frameRow f y) = true ∧ ∀ c ∈ frameRow f y, c.2 < 64 := by
  unfold frameRow
  cases hl : lookupCell f y with
  | none => simp
  | some row =>
    have hm : ∃ k, (k, row) ∈ f := by
      clear h
      induction f with
      | nil => simp at hl
      | cons d rest ih =>
        simp only [lookupCell] at hl
        split_ifs at hl
        · obtain rfl := Option.some.inj hl
          exact ⟨d.1, List.mem_cons_self⟩
        · obtain ⟨k, hk⟩ := ih hl
          exact ⟨k, List.mem_cons_of_mem _ hk⟩
    obtain ⟨k, hk⟩ := hm
    simp only [Frame.wf, Bool.and_eq_true, List.all_eq_true, decide_eq_true_eq] at h
    have := h.2 _ hk
    simp only [Option.getD_some]
    exact ⟨this.1.2, this.2⟩

/-- Storing a colour index at a pixel of the screen keeps the frame's canonical form. -/
theorem Frame.wf_writePixel {f : Frame} (h : Frame.wf f = true) {x y : Nat} (hx : x < 256) (hy : y < 240)
    {c : Byte} (hc : c < 64) : Frame.wf (writePixel f x y c) = true := by
  have hrow := frameRow_wf h y
  have hwf := Memory.wf_writeCell hrow.1 (a := x) (by simp [spaceHolds, hx]) c
  have h64 : ∀ d ∈ writeCell .frame (frameRow f y) x c, d.2 < 64 := by
    intro d hd
    unfold writeCell at hd
    split_ifs at hd
    · exact hrow.2 d (mem_eraseCell hd).1
    · rcases mem_insertCell hd with rfl | hd
      · exact hc
      · exact hrow.2 d hd
  simp only [Frame.wf, Bool.and_eq_true, List.all_eq_true, decide_eq_true_eq] at h ⊢
  unfold writePixel
  split
  · exact ⟨rising_eraseCell h.1 y, fun d hd => h.2 d (mem_eraseCell hd).1⟩
  · rename_i p row heq
    refine ⟨rising_insertCell h.1 y _, fun d hd => ?_⟩
    rcases mem_insertCell hd with rfl | hd
    · rw [heq] at hwf h64
      exact ⟨⟨⟨hy, by simp⟩, hwf⟩, h64⟩
    · exact h.2 d hd

end Sys2Proof.Machine
end

