-- ==== Sys2Proof/Laws/Word.lean ====
section
/-! SUPPORT. The laws of the byte-order helpers: a Word is its two bytes (`20_memory.md` R76). -/

namespace Sys2Proof

theorem getLsbD_mkWord (h l : Byte) (i : Nat) :
    (mkWord h l).getLsbD i = if i < 8 then l.getLsbD i else h.getLsbD (i - 8) :=
  BitVec.getLsbD_append

@[simp] theorem mkWord_hiByte_loByte (w : Word) : mkWord (hiByte w) (loByte w) = w := by
  refine BitVec.eq_of_getLsbD_eq fun i hi => ?_
  rw [getLsbD_mkWord]
  unfold hiByte loByte
  split_ifs with h
  · simp [h]
  · simp [show i - 8 < 8 by omega, show 8 + (i - 8) = i by omega]

@[simp] theorem hiByte_mkWord (h l : Byte) : hiByte (mkWord h l) = h := by
  refine BitVec.eq_of_getLsbD_eq fun i hi => ?_
  unfold hiByte
  rw [BitVec.getLsbD_extractLsb', getLsbD_mkWord]
  simp [hi, show ¬ 8 + i < 8 by omega]

@[simp] theorem loByte_mkWord (h l : Byte) : loByte (mkWord h l) = l := by
  refine BitVec.eq_of_getLsbD_eq fun i hi => ?_
  unfold loByte
  rw [BitVec.getLsbD_extractLsb', getLsbD_mkWord]
  simp [hi]

theorem zext16_toNat (b : Byte) : (zext16 b).toNat = b.toNat := by
  unfold zext16; rw [BitVec.toNat_setWidth]; omega

end Sys2Proof
end

