-- ==== Sys2Proof/Laws/Ops.lean ====
section
/-! SUPPORT. The laws of the bus, the stack, the fetch and the exception sequence: what each operation leaves alone, and
what it does where the address has storage, so that later proofs cite these and unfold none of them. -/

namespace Sys2Proof.Machine

/-- The stack cell is in page 1, so it is internal RAM. -/
theorem stackAddr_toNat (sp : Byte) : (stackAddr sp).toNat = 256 + sp.toNat := by
  unfold stackAddr Config.stackPage
  rw [BitVec.toNat_add, zext16_toNat]
  have : sp.toNat < 256 := sp.isLt
  simp; omega

/-! ## Regions and storage -/

theorem region_ram {a : Word} (h : a.toNat ≤ 0x1FFF) : region a = .ram := by simp [region, h]

theorem storageCell_ram {s : State} {a : Word} (h : a.toNat ≤ 0x1FFF) :
    storageCell s a = some (a.toNat % 2048) := by simp [storageCell, region_ram h, ramCell, Config.ramSize]

theorem region_cartridge {a : Word} (h : 0x4020 ≤ a.toNat) : region a = .cartridge := by
  unfold region; split_ifs <;> first | omega | rfl

theorem storageCell_prg {s : State} {a : Word} (h : 0x8000 ≤ a.toNat) :
    storageCell s a = some (prgCell s.cart.prgSize a) := by
  simp [storageCell, region_cartridge (show 0x4020 ≤ a.toNat by omega), cartCell, h]

theorem prgCell_range (n : PrgSize) (a : Word) : 0x8000 ≤ prgCell n a ∧ prgCell n a < 0x8000 + prgLength n := by
  unfold prgCell
  have : (a - 0x8000).toNat % prgLength n < prgLength n := Nat.mod_lt _ (by cases n <;> decide)
  omega

/-- Storage depends on the address, the cartridge and the parameters only. -/
theorem storageCell_congr {s t : State} (hc : t.cart = s.cart) (hf : t.cfg = s.cfg) (a : Word) :
    storageCell t a = storageCell s a := by
  simp [storageCell, cartCell, hc, hf]

/-- Every storage cell is a cell the memory has. -/
theorem storageCell_holds {s : State} {a : Word} {k : Nat} (h : storageCell s a = some k) :
    spaceHolds .cpu k = true := by
  have ha : a.toNat < 65536 := a.isLt
  unfold storageCell at h
  split at h
  · obtain rfl := Option.some.inj h
    have : ramCell a < 2048 := Nat.mod_lt _ (by decide)
    simp [spaceHolds, this]
  · unfold cartCell at h
    split_ifs at h with h1 h2
    · obtain rfl := Option.some.inj h
      have := prgCell_range s.cart.prgSize a
      have hl : prgLength s.cart.prgSize ≤ 32768 := by cases s.cart.prgSize <;> decide
      simp [spaceHolds]; omega
    · obtain rfl := Option.some.inj h
      simp [spaceHolds]; omega
  all_goals simp at h

/-! ## Bus reads -/

/-- What a bus read can change: the latch, and of the units what the reads of video registers 2 and 7 and of the two
controller ports change. -/
theorem regionRead_frame (a : Word) (s : State) :
    (regionRead a s).state.cpu = s.cpu ∧ (regionRead a s).state.mem = s.mem ∧
      (regionRead a s).state.audio = s.audio ∧ (regionRead a s).state.cart = s.cart ∧
      (regionRead a s).state.cfg = s.cfg ∧ (regionRead a s).state.hostCalls = s.hostCalls := by
  unfold regionRead videoRegRead ioRead mapperRead
  repeat' split
  all_goals simp

@[simp] theorem busRead_cpu (a : Word) (s : State) : (busRead a s).state.cpu = s.cpu := (regionRead_frame a s).1
@[simp] theorem busRead_mem (a : Word) (s : State) : (busRead a s).state.mem = s.mem := (regionRead_frame a s).2.1
@[simp] theorem busRead_audio (a : Word) (s : State) : (busRead a s).state.audio = s.audio :=
  (regionRead_frame a s).2.2.1
@[simp] theorem busRead_cart (a : Word) (s : State) : (busRead a s).state.cart = s.cart :=
  (regionRead_frame a s).2.2.2.1
@[simp] theorem busRead_cfg (a : Word) (s : State) : (busRead a s).state.cfg = s.cfg :=
  (regionRead_frame a s).2.2.2.2.1
@[simp] theorem busRead_hostCalls (a : Word) (s : State) : (busRead a s).state.hostCalls = s.hostCalls :=
  (regionRead_frame a s).2.2.2.2.2

/-- A bus read of an address with storage gives the stored byte and changes the latch alone. -/
theorem busRead_storage {s : State} {a : Word} {k : Nat} (h : storageCell s a = some k) :
    busRead a s = { value := readCell .cpu s.mem k, state := s.setLatch (readCell .cpu s.mem k) } := by
  unfold storageCell at h
  unfold busRead regionRead
  split at h
  · rename_i hr; obtain rfl := Option.some.inj h; simp [hr]
  · rename_i hr; simp [hr, mapperRead, h]
  all_goals simp at h

theorem busRead_stored {s : State} {a : Word} {b : Byte} (h : storedByte s a = some b) :
    busRead a s = { value := b, state := s.setLatch b } := by
  unfold storedByte at h
  split at h
  · rename_i k hk; rw [busRead_storage hk, Option.some.inj h]
  · simp at h

/-- Outside the video registers and the controller ports a bus read changes the latch alone. -/
theorem busRead_quiet {a : Word} (s : State) (hv : region a ≠ .video) (h6 : a ≠ 0x4016) (h7 : a ≠ 0x4017) :
    (busRead a s).state = s.setLatch (busRead a s).value := by
  unfold busRead regionRead
  split
  · rfl
  · contradiction
  · simp only [ioRead, h6, h7, if_false]; split <;> rfl
  · rfl
  · simp only [mapperRead]; split <;> rfl

/-- A read never raises the interrupt line. -/
theorem busRead_intLine {a : Word} {s : State} (h : (busRead a s).state.bus.intLine = true) :
    s.bus.intLine = true := by
  revert h
  unfold busRead regionRead videoRegRead ioRead mapperRead
  repeat' split
  all_goals simp

/-! ## Bus writes -/

@[simp] theorem oamCopy_cpu (n : Nat) (a : Word) (s : State) : (oamCopy n a s).cpu = s.cpu := by
  induction n generalizing a s with
  | zero => rfl
  | succ n ih => simp [oamCopy, ih]
@[simp] theorem oamCopy_mem (n : Nat) (a : Word) (s : State) : (oamCopy n a s).mem = s.mem := by
  induction n generalizing a s with
  | zero => rfl
  | succ n ih => simp [oamCopy, ih]
@[simp] theorem oamCopy_audio (n : Nat) (a : Word) (s : State) : (oamCopy n a s).audio = s.audio := by
  induction n generalizing a s with
  | zero => rfl
  | succ n ih => simp [oamCopy, ih]
@[simp] theorem oamCopy_cart (n : Nat) (a : Word) (s : State) : (oamCopy n a s).cart = s.cart := by
  induction n generalizing a s with
  | zero => rfl
  | succ n ih => simp [oamCopy, ih]
@[simp] theorem oamCopy_cfg (n : Nat) (a : Word) (s : State) : (oamCopy n a s).cfg = s.cfg := by
  induction n generalizing a s with
  | zero => rfl
  | succ n ih => simp [oamCopy, ih]
@[simp] theorem oamCopy_hostCalls (n : Nat) (a : Word) (s : State) :
    (oamCopy n a s).hostCalls = s.hostCalls := by
  induction n generalizing a s with
  | zero => rfl
  | succ n ih => simp [oamCopy, ih]

theorem oamCopy_intLine {n : Nat} {a : Word} {s : State} (h : (oamCopy n a s).bus.intLine = true) :
    s.bus.intLine = true := by
  induction n generalizing a s with
  | zero => exact h
  | succ n ih => exact busRead_intLine (by simpa using ih h)

@[simp] theorem oamDma_cpu (p : Byte) (s : State) : (oamDma p s).cpu = s.cpu := oamCopy_cpu _ _ _
@[simp] theorem oamDma_mem (p : Byte) (s : State) : (oamDma p s).mem = s.mem := oamCopy_mem _ _ _
@[simp] theorem oamDma_audio (p : Byte) (s : State) : (oamDma p s).audio = s.audio := oamCopy_audio _ _ _
@[simp] theorem oamDma_cart (p : Byte) (s : State) : (oamDma p s).cart = s.cart := oamCopy_cart _ _ _
@[simp] theorem oamDma_cfg (p : Byte) (s : State) : (oamDma p s).cfg = s.cfg := oamCopy_cfg _ _ _
@[simp] theorem oamDma_hostCalls (p : Byte) (s : State) : (oamDma p s).hostCalls = s.hostCalls :=
  oamCopy_hostCalls _ _ _
theorem oamDma_intLine {p : Byte} {s : State} (h : (oamDma p s).bus.intLine = true) : s.bus.intLine = true :=
  oamCopy_intLine h

/-! What a bus write leaves alone, always: the CPU, the cartridge, the parameters and the host's calls. -/

@[simp] theorem ioWrite_cpu (a : Word) (v : Byte) (s : State) : (ioWrite a v s).cpu = s.cpu := by
  unfold ioWrite
  by_cases h : a = 0x4014
  · rw [if_pos h, oamDma_cpu]
  · rw [if_neg h]
    by_cases h6 : a = 0x4016
    · rw [if_pos h6, State.setInput_cpu]
    · rw [if_neg h6, State.setAudio_cpu]
@[simp] theorem mapperWrite_cpu (a : Word) (v : Byte) (s : State) : (mapperWrite a v s).cpu = s.cpu := by
  unfold mapperWrite; split_ifs <;> rfl
@[simp] theorem busWrite_cpu (a : Word) (v : Byte) (s : State) : (busWrite a v s).cpu = s.cpu := by
  unfold busWrite regionWrite
  cases region a <;> simp

@[simp] theorem ioWrite_cart (a : Word) (v : Byte) (s : State) : (ioWrite a v s).cart = s.cart := by
  unfold ioWrite
  by_cases h : a = 0x4014
  · rw [if_pos h, oamDma_cart]
  · rw [if_neg h]
    by_cases h6 : a = 0x4016
    · rw [if_pos h6, State.setInput_cart]
    · rw [if_neg h6, State.setAudio_cart]
@[simp] theorem mapperWrite_cart (a : Word) (v : Byte) (s : State) : (mapperWrite a v s).cart = s.cart := by
  unfold mapperWrite; split_ifs <;> rfl
@[simp] theorem busWrite_cart (a : Word) (v : Byte) (s : State) : (busWrite a v s).cart = s.cart := by
  unfold busWrite regionWrite
  cases region a <;> simp

@[simp] theorem ioWrite_cfg (a : Word) (v : Byte) (s : State) : (ioWrite a v s).cfg = s.cfg := by
  unfold ioWrite
  by_cases h : a = 0x4014
  · rw [if_pos h, oamDma_cfg]
  · rw [if_neg h]
    by_cases h6 : a = 0x4016
    · rw [if_pos h6, State.setInput_cfg]
    · rw [if_neg h6, State.setAudio_cfg]
@[simp] theorem mapperWrite_cfg (a : Word) (v : Byte) (s : State) : (mapperWrite a v s).cfg = s.cfg := by
  unfold mapperWrite; split_ifs <;> rfl
@[simp] theorem busWrite_cfg (a : Word) (v : Byte) (s : State) : (busWrite a v s).cfg = s.cfg := by
  unfold busWrite regionWrite
  cases region a <;> simp

@[simp] theorem ioWrite_hostCalls (a : Word) (v : Byte) (s : State) : (ioWrite a v s).hostCalls = s.hostCalls := by
  unfold ioWrite
  by_cases h : a = 0x4014
  · rw [if_pos h, oamDma_hostCalls]
  · rw [if_neg h]
    by_cases h6 : a = 0x4016
    · rw [if_pos h6, State.setInput_hostCalls]
    · rw [if_neg h6, State.setAudio_hostCalls]
@[simp] theorem mapperWrite_hostCalls (a : Word) (v : Byte) (s : State) : (mapperWrite a v s).hostCalls = s.hostCalls := by
  unfold mapperWrite; split_ifs <;> rfl
@[simp] theorem busWrite_hostCalls (a : Word) (v : Byte) (s : State) : (busWrite a v s).hostCalls = s.hostCalls := by
  unfold busWrite regionWrite
  cases region a <;> simp

/-- The storage after a bus write: the byte is stored where the address has storage that takes writes (below 0x8000),
and nothing of the storage changes otherwise. -/
theorem busWrite_mem (a : Word) (v : Byte) (s : State) :
    (busWrite a v s).mem =
      match storageCell s a with
      | some k => if a.toNat < 0x8000 then writeCell .cpu s.mem k v else s.mem
      | none => s.mem := by
  unfold busWrite regionWrite storageCell
  cases hr : region a
  · have h : a.toNat < 0x8000 := by
      unfold region at hr
      split_ifs at hr with h1
      omega
    simp [h]
  · simp
  · simp only [ioWrite]
    split_ifs <;> simp
  · simp
  · simp only [mapperWrite, cartCell]
    by_cases h : 0x8000 ≤ a.toNat
    · simp [h, Nat.not_lt.2 h]
    · by_cases h2 : 0x6000 ≤ a.toNat ∧ s.cfg.prgRam = true
      · simp [h, h2, Nat.lt_of_not_le h]
      · simp [h, h2]

/-- A write to internal RAM: the cell and the latch, nothing else. -/
theorem busWrite_ram {a : Word} (h : a.toNat ≤ 0x1FFF) (v : Byte) (s : State) :
    busWrite a v s = (s.setLatch v).setMem (writeCell .cpu s.mem (a.toNat % 2048) v) := by
  simp [busWrite, regionWrite, region_ram h, ramCell, Config.ramSize]

/-- A write never raises the interrupt line. -/
theorem busWrite_intLine {a : Word} {v : Byte} {s : State} (h : (busWrite a v s).bus.intLine = true) :
    s.bus.intLine = true := by
  revert h
  unfold busWrite regionWrite
  split
  · simp
  · simp
  · unfold ioWrite
    split_ifs
    · intro h; simpa using oamDma_intLine h
    · simp
    · simp
  · simp
  · unfold mapperWrite; split_ifs <;> simp

/-! ## The stack -/

/-- `Push` in full: the cell at `0x0100 + SP`, the latch, and `SP` one lower. -/
theorem push_eq (v : Byte) (s : State) :
    push v s = ((s.setLatch v).setMem (writeCell .cpu s.mem (256 + s.cpu.sp.toNat) v)).setSp (s.cpu.sp - 1) := by
  have hb : s.cpu.sp.toNat < 256 := s.cpu.sp.isLt
  have ht := stackAddr_toNat s.cpu.sp
  unfold push
  rw [busWrite_ram (by omega), ht, Nat.mod_eq_of_lt (by omega)]

/-- The stored byte `Pull` reads. -/
def stackByte (m : Memory) (sp : Byte) : Byte := readCell .cpu m (256 + sp.toNat)

/-- `Pull` in full: the byte at `0x0100 + (SP + 1)`, the latch, and `SP` one higher. -/
theorem pull_eq (s : State) :
    pull s = { value := stackByte s.mem (s.cpu.sp + 1),
               state := (s.setSp (s.cpu.sp + 1)).setLatch (stackByte s.mem (s.cpu.sp + 1)) } := by
  have hb : (s.cpu.sp + 1).toNat < 256 := (s.cpu.sp + 1).isLt
  have ht := stackAddr_toNat (s.cpu.sp + 1)
  have hc : storageCell (s.setSp (s.cpu.sp + 1)) (stackAddr (s.cpu.sp + 1)) = some (256 + (s.cpu.sp + 1).toNat) := by
    rw [storageCell_ram (by omega), ht, Nat.mod_eq_of_lt (by omega)]
  unfold pull
  rw [busRead_storage hc]
  rfl

/-- Two pushed bytes lie in two different cells, so the second push leaves the first byte alone. -/
theorem stackByte_push_ne {m : Memory} {p q : Byte} (h : p ≠ q) (v : Byte) :
    stackByte (writeCell .cpu m (256 + q.toNat) v) p = stackByte m p := by
  unfold stackByte
  refine readCell_writeCell_other .cpu m v fun e => h ?_
  exact BitVec.eq_of_toNat_eq (by omega)

@[simp] theorem stackByte_push_same (m : Memory) (p : Byte) (v : Byte) :
    stackByte (writeCell .cpu m (256 + p.toNat) v) p = v := by
  simp [stackByte]

/-- A push leaves cartridge storage alone. -/
theorem readCell_push {m : Memory} {k : Nat} (hk : 512 ≤ k) (p v : Byte) :
    readCell .cpu (writeCell .cpu m (256 + p.toNat) v) k = readCell .cpu m k := by
  have : p.toNat < 256 := p.isLt
  exact readCell_writeCell_other .cpu m v (by omega)

/-! ## Exceptions -/

/-- The cell below the current one, for the three bytes an exception pushes. -/
theorem readVector {s : State} {a : Word} (h : 0x8000 ≤ a.toNat) (h1 : 0x8000 ≤ (a + 1).toNat) :
    read16 a s =
      { value := mkWord (readCell .cpu s.mem (prgCell s.cart.prgSize (a + 1)))
                   (readCell .cpu s.mem (prgCell s.cart.prgSize a)),
        state := s.setLatch (readCell .cpu s.mem (prgCell s.cart.prgSize (a + 1))) } := by
  unfold read16 readPair
  simp only [busRead_storage (storageCell_prg h)]
  rw [busRead_storage (s := s.setLatch _) (storageCell_prg h1)]
  rfl

/-- The memory after an exception's three pushes. -/
def exceptionMem (ret : Word) (brk : Bool) (s : State) : Memory :=
  writeCell .cpu
    (writeCell .cpu
      (writeCell .cpu s.mem (256 + s.cpu.sp.toNat) (hiByte ret))
      (256 + (s.cpu.sp - 1).toNat) (loByte ret))
    (256 + (s.cpu.sp - 1 - 1).toNat) (packP s.cpu.flags brk)

/-- TAKING AN EXCEPTION in full, for a vector in cartridge storage: three stack cells, `SP` three lower, `I`, the latch, the
line where it is acknowledged, and `PC` at the address the vector holds. -/
theorem takeException_eq {vector : Word} (h : 0x8000 ≤ vector.toNat) (h1 : 0x8000 ≤ (vector + 1).toNat) (ret : Word)
    (brk ack : Bool) (s : State) :
    takeException vector ret brk ack s =
      { s with
        cpu := { s.cpu with
          pc := mkWord (readCell .cpu s.mem (prgCell s.cart.prgSize (vector + 1)))
                  (readCell .cpu s.mem (prgCell s.cart.prgSize vector))
          sp := s.cpu.sp - 1 - 1 - 1
          flags := { s.cpu.flags with i := true } }
        bus := { intLine := if ack then false else s.bus.intLine
                 latch := readCell .cpu s.mem (prgCell s.cart.prgSize (vector + 1)) }
        mem := exceptionMem ret brk s } := by
  have hm : ∀ n a, readCell .cpu (exceptionMem ret brk s) (prgCell n a) = readCell .cpu s.mem (prgCell n a) := by
    intro n a
    have := (prgCell_range n a).1
    unfold exceptionMem
    rw [readCell_push (by omega), readCell_push (by omega), readCell_push (by omega)]
  unfold takeException pushWord
  simp only [push_eq, readVector h h1]
  cases ack
  · simp only [State.setFlags, State.setSp, State.setMem, State.setLatch, State.setPc, Bool.false_eq_true, if_false]
    simp only [show writeCell .cpu _ _ _ = exceptionMem ret brk s from rfl, hm]
  · simp only [State.setFlags, State.setSp, State.setMem, State.setLatch, State.setPc, State.setIntLine, if_true]
    simp only [show writeCell .cpu _ _ _ = exceptionMem ret brk s from rfl, hm]

/-- RETURNING FROM AN EXCEPTION in full: the flags and the return address from the three stack cells above `SP`. -/
theorem returnFromException_eq (s : State) :
    returnFromException s =
      { s with
        cpu := { s.cpu with
          pc := mkWord (stackByte s.mem (s.cpu.sp + 1 + 1 + 1)) (stackByte s.mem (s.cpu.sp + 1 + 1))
          sp := s.cpu.sp + 1 + 1 + 1
          flags := unpackP (stackByte s.mem (s.cpu.sp + 1)) }
        bus := { s.bus with latch := stackByte s.mem (s.cpu.sp + 1 + 1 + 1) } } := by
  unfold returnFromException pullWord
  simp only [pull_eq]
  rfl

/-! ## The fetch -/

@[simp] theorem readBytes_cpu (n : Nat) (a : Word) (s : State) : (readBytes n a s).state.cpu = s.cpu := by
  induction n generalizing a s with
  | zero => rfl
  | succ n ih => simp [readBytes, ih]
@[simp] theorem readBytes_mem (n : Nat) (a : Word) (s : State) : (readBytes n a s).state.mem = s.mem := by
  induction n generalizing a s with
  | zero => rfl
  | succ n ih => simp [readBytes, ih]
@[simp] theorem readBytes_audio (n : Nat) (a : Word) (s : State) : (readBytes n a s).state.audio = s.audio := by
  induction n generalizing a s with
  | zero => rfl
  | succ n ih => simp [readBytes, ih]
@[simp] theorem readBytes_cart (n : Nat) (a : Word) (s : State) : (readBytes n a s).state.cart = s.cart := by
  induction n generalizing a s with
  | zero => rfl
  | succ n ih => simp [readBytes, ih]
@[simp] theorem readBytes_cfg (n : Nat) (a : Word) (s : State) : (readBytes n a s).state.cfg = s.cfg := by
  induction n generalizing a s with
  | zero => rfl
  | succ n ih => simp [readBytes, ih]
@[simp] theorem readBytes_hostCalls (n : Nat) (a : Word) (s : State) :
    (readBytes n a s).state.hostCalls = s.hostCalls := by
  induction n generalizing a s with
  | zero => rfl
  | succ n ih => simp [readBytes, ih]
@[simp] theorem readBytes_length (n : Nat) (a : Word) (s : State) : (readBytes n a s).bytes.length = n := by
  induction n generalizing a s with
  | zero => rfl
  | succ n ih => simp [readBytes, ih]

/-- Bytes read where they are stored: the bytes, and the latch at the last of them. -/
theorem readBytes_stored {bytes : List Byte} {s : State} {a : Word}
    (h : ∀ k, k < bytes.length → storedByte s (a + BitVec.ofNat 16 k) = some (bytes.getD k 0)) (l : Byte) :
    readBytes bytes.length a (s.setLatch l) = { bytes := bytes, state := s.setLatch (bytes.getLastD l) } := by
  induction bytes generalizing a l with
  | nil => rfl
  | cons b rest ih =>
    have h0 : storedByte (s.setLatch l) a = some b :=
      show storedByte s a = some b by simpa using h 0 (by simp)
    have hr : ∀ k, k < rest.length → storedByte s (a + 1 + BitVec.ofNat 16 k) = some (rest.getD k 0) := by
      intro k hk
      have hk1 := h (k + 1) (by simpa using hk)
      rw [show (b :: rest).getD (k + 1) 0 = rest.getD k 0 from by simp] at hk1
      rw [← hk1, BitVec.add_assoc]
      congr 2
      apply BitVec.eq_of_toNat_eq
      simp [BitVec.toNat_add]
      omega
    unfold readBytes
    rw [show (b :: rest).length = rest.length + 1 from rfl]
    simp only
    rw [busRead_stored h0]
    simp only
    have hi := ih hr b
    have e : (s.setLatch l).setLatch b = s.setLatch b := rfl
    rw [e, hi]
    cases rest with
    | nil => rfl
    | cons c rest => rfl

theorem readBytes_intLine {n : Nat} {a : Word} {s : State} (h : (readBytes n a s).state.bus.intLine = true) :
    s.bus.intLine = true := by
  induction n generalizing a s with
  | zero => exact h
  | succ n ih => exact busRead_intLine (ih h)

/-- What a fetch that gives an instruction did: the bytes it read decode to it, and it changed no CPU field and no
storage. -/
theorem fetch_instr {s t : State} {i : Instr} (h : fetch s = .instr i t) :
    ∃ sh, opcodeShape (busRead s.cpu.pc s).value = some sh ∧
      t = (readBytes (sh.length - 1) (s.cpu.pc + 1) (busRead s.cpu.pc s).state).state := by
  unfold fetch at h
  simp only at h
  split at h
  · simp at h
  · rename_i sh hsh
    split at h
    · injection h with _ ht
      exact ⟨sh, hsh, ht.symm⟩
    · simp at h

theorem fetch_instr_cpu {s t : State} {i : Instr} (h : fetch s = .instr i t) : t.cpu = s.cpu := by
  obtain ⟨sh, _, rfl⟩ := fetch_instr h; simp
theorem fetch_instr_mem {s t : State} {i : Instr} (h : fetch s = .instr i t) : t.mem = s.mem := by
  obtain ⟨sh, _, rfl⟩ := fetch_instr h; simp
theorem fetch_instr_audio {s t : State} {i : Instr} (h : fetch s = .instr i t) : t.audio = s.audio := by
  obtain ⟨sh, _, rfl⟩ := fetch_instr h; simp
theorem fetch_instr_cart {s t : State} {i : Instr} (h : fetch s = .instr i t) : t.cart = s.cart := by
  obtain ⟨sh, _, rfl⟩ := fetch_instr h; simp
theorem fetch_instr_cfg {s t : State} {i : Instr} (h : fetch s = .instr i t) : t.cfg = s.cfg := by
  obtain ⟨sh, _, rfl⟩ := fetch_instr h; simp
theorem fetch_instr_hostCalls {s t : State} {i : Instr} (h : fetch s = .instr i t) : t.hostCalls = s.hostCalls := by
  obtain ⟨sh, _, rfl⟩ := fetch_instr h; simp

/-! ## Ticks and host calls -/

@[simp] theorem tickUnits_cpu (n : Nat) (s : State) : (tickUnits n s).cpu = s.cpu := rfl
@[simp] theorem tickUnits_mem (n : Nat) (s : State) : (tickUnits n s).mem = s.mem := rfl
@[simp] theorem tickUnits_cart (n : Nat) (s : State) : (tickUnits n s).cart = s.cart := rfl
@[simp] theorem tickUnits_cfg (n : Nat) (s : State) : (tickUnits n s).cfg = s.cfg := rfl
@[simp] theorem tickUnits_input (n : Nat) (s : State) : (tickUnits n s).input = s.input := rfl
@[simp] theorem tickUnits_hostCalls (n : Nat) (s : State) : (tickUnits n s).hostCalls = s.hostCalls := rfl
@[simp] theorem tickUnits_latch (n : Nat) (s : State) : (tickUnits n s).bus.latch = s.bus.latch := rfl

/-- What a host call changes: a port's buttons, or the sample stream. -/
theorem hostCall_frame (c : HostCall) (s : State) :
    (hostCall c s).cpu = s.cpu ∧ (hostCall c s).mem = s.mem ∧ (hostCall c s).cart = s.cart ∧
      (hostCall c s).cfg = s.cfg ∧ (hostCall c s).bus = s.bus ∧ (hostCall c s).video = s.video := by
  cases c with
  | setButtons p b => cases p <;> simp [hostCall, setButtons]
  | takeSamples n => simp [hostCall, takeSamples]

theorem hostCallsOf_frame (cs : List HostCall) (s : State) :
    (hostCallsOf cs s).cpu = s.cpu ∧ (hostCallsOf cs s).mem = s.mem ∧ (hostCallsOf cs s).cart = s.cart ∧
      (hostCallsOf cs s).cfg = s.cfg ∧ (hostCallsOf cs s).bus = s.bus ∧ (hostCallsOf cs s).video = s.video := by
  induction cs generalizing s with
  | nil => simp [hostCallsOf]
  | cons c rest ih =>
    obtain ⟨h1, h2, h3, h4, h5, h6⟩ := ih (hostCall c s)
    obtain ⟨g1, g2, g3, g4, g5, g6⟩ := hostCall_frame c s
    exact ⟨h1.trans g1, h2.trans g2, h3.trans g3, h4.trans g4, h5.trans g5, h6.trans g6⟩

theorem takeHostCalls_frame (s : State) :
    (takeHostCalls s).cpu = s.cpu ∧ (takeHostCalls s).mem = s.mem ∧ (takeHostCalls s).cart = s.cart ∧
      (takeHostCalls s).cfg = s.cfg ∧ (takeHostCalls s).bus = s.bus ∧ (takeHostCalls s).video = s.video := by
  unfold takeHostCalls
  split
  · simp
  · exact hostCallsOf_frame _ _

@[simp] theorem takeHostCalls_cpu (s : State) : (takeHostCalls s).cpu = s.cpu := (takeHostCalls_frame s).1
@[simp] theorem takeHostCalls_mem (s : State) : (takeHostCalls s).mem = s.mem := (takeHostCalls_frame s).2.1
@[simp] theorem takeHostCalls_cart (s : State) : (takeHostCalls s).cart = s.cart := (takeHostCalls_frame s).2.2.1
@[simp] theorem takeHostCalls_cfg (s : State) : (takeHostCalls s).cfg = s.cfg := (takeHostCalls_frame s).2.2.2.1
@[simp] theorem takeHostCalls_bus (s : State) : (takeHostCalls s).bus = s.bus := (takeHostCalls_frame s).2.2.2.2.1
@[simp] theorem takeHostCalls_video (s : State) : (takeHostCalls s).video = s.video :=
  (takeHostCalls_frame s).2.2.2.2.2

/-- A machine the host never calls is left as it is. -/
theorem takeHostCalls_none {s : State} (h : s.hostCalls = []) : takeHostCalls s = s := by
  simp [takeHostCalls, h]

/-- The calls of a boundary are made one after the other. -/
theorem hostCallsOf_foldl (cs : List HostCall) (s : State) :
    hostCallsOf cs s = cs.foldl (fun t c => hostCall c t) s := by
  induction cs generalizing s with
  | nil => rfl
  | cons c rest ih => exact ih _

/-! ## The interrupt line and the transfer, exactly -/

/-- The line after a bus read: lowered at video register 2 and its mirrors, else as before (R264, R327). -/
theorem busRead_line (a : Word) (s : State) :
    (busRead a s).state.bus.intLine =
      (s.bus.intLine && !(decide (0x2000 ≤ a.toNat) && decide (a.toNat ≤ 0x3FFF) && a.toNat % 8 == 2)) := by
  unfold busRead regionRead region
  by_cases h1 : a.toNat ≤ 0x1FFF
  · have : ¬ 0x2000 ≤ a.toNat := by omega
    simp [h1, this]
  · by_cases h2 : a.toNat ≤ 0x3FFF
    · have : 0x2000 ≤ a.toNat := by omega
      simp only [h1, h2, if_true, if_false, this, decide_true, Bool.true_and]
      unfold videoRegRead
      split <;> rename_i h
      · simp [h]
      · simp [h]
      · simp [h]
      · have : (a.toNat % 8 == 2) = false := by simpa using by assumption
        simp [this]
    · simp only [h1, h2, if_false]
      split_ifs <;> simp [ioRead, mapperRead]
      · split_ifs <;> rfl
      · split <;> rfl

/-- No bus read moves the sprite table's index (R326). -/
@[simp] theorem busRead_oamAddr (a : Word) (s : State) :
    (busRead a s).state.video.oamAddr = s.video.oamAddr := by
  unfold busRead regionRead videoRegRead ioRead mapperRead
  split
  · rfl
  · dsimp only; split <;> rfl
  · simp only; split_ifs <;> rfl
  · rfl
  · split <;> rfl

/-- A write of the transfer register is the loop over the page, with the latch at the page number (R63, R446). -/
theorem busWrite_dma (p : Byte) (s : State) : busWrite 0x4014 p s = oamCopy 256 (mkWord p 0) (s.setLatch p) := by
  unfold busWrite regionWrite
  rw [show region 0x4014 = .io from rfl]
  simp only [ioWrite, if_true, oamDma]

/-- The loop of the transfer in two parts: a proof may take its last byte off. -/
theorem oamCopy_add (m n : Nat) (a : Word) (s : State) :
    oamCopy (m + n) a s = oamCopy n (a + BitVec.ofNat 16 m) (oamCopy m a s) := by
  induction m generalizing a s with
  | zero => simp [oamCopy]
  | succ m ih =>
    rw [Nat.add_right_comm]
    show oamCopy (m + n) (a + 1) _ = oamCopy n _ (oamCopy m (a + 1) _)
    rw [ih, show a + 1 + BitVec.ofNat 16 m = a + BitVec.ofNat 16 (m + 1) from by
      rw [BitVec.add_assoc]; congr 1; apply BitVec.eq_of_toNat_eq; simp [BitVec.toNat_add]; omega]

end Sys2Proof.Machine
end

