-- ==== Sys2Proof/Laws/Video.lean ====
section
/-! SUPPORT. The laws of the video unit: its register writes and its tick keep its memories canonical, and what a tick does
to the position. -/

namespace Sys2Proof.Machine

/-! ## Palette entries are colour indices -/

theorem and_3F_lt (v : Byte) : v &&& 0x3F < 64 := by
  have : (v &&& 0x3F#8).toNat ≤ 63 := by
    rw [BitVec.toNat_and]; exact Nat.and_le_right
  rw [BitVec.lt_def]; simpa using Nat.lt_succ_of_le this

theorem and_30_lt {v : Byte} (h : v < 64) : v &&& 0x30 < 64 := by
  rw [BitVec.lt_def] at h ⊢
  rw [BitVec.toNat_and]
  exact lt_of_le_of_lt Nat.and_le_left h

theorem lookupCell_mem {α : Type} {m : List (Nat × α)} {a : Nat} {v : α} (h : lookupCell m a = some v) :
    (a, v) ∈ m := by
  induction m with
  | nil => simp at h
  | cons c rest ih =>
    obtain ⟨k, w⟩ := c
    simp only [lookupCell] at h
    split_ifs at h with hk
    · subst hk; obtain rfl := Option.some.inj h; exact List.mem_cons_self
    · exact List.mem_cons_of_mem _ (ih h)

/-- A palette read is a colour index. -/
theorem palByte_lt {u : Video} (h : (u.pal.all fun c => decide (c.2 < 64)) = true) (k : Nat) : palByte u k < 64 := by
  unfold palByte readCell
  split
  · rename_i v hv
    simpa using List.all_eq_true.1 h _ (lookupCell_mem hv)
  · exact and_3F_lt _

/-! ## Canonical memories -/

theorem Video.canonical_iff (cart : Cart) (u : Video) :
    u.canonical cart = true ↔
      Memory.wf .oam u.oam = true ∧ Memory.wf .nameTable u.nt = true ∧ Memory.wf .palette u.pal = true ∧
        (u.pal.all fun c => decide (c.2 < 64)) = true ∧ Memory.wf (chrSpace cart) u.chr = true ∧
        Frame.wf u.fb = true ∧ ∀ f, u.frameOut = some f → Frame.wf f = true := by
  unfold Video.canonical
  cases u.frameOut <;> simp [and_assoc]

theorem ntIndex_lt (m : Mirroring) (a : Nat) : ntIndex m a < 2048 := by
  unfold ntIndex
  cases m <;> simp only <;> omega

theorem palIndex_lt (a : Nat) : palIndex a < 32 := by
  unfold palIndex
  simp only
  split_ifs <;> omega

theorem oamStore_canonical {cart : Cart} {u : Video} (h : u.canonical cart = true) (v : Byte) :
    (oamStore u v).canonical cart = true := by
  rw [Video.canonical_iff] at h ⊢
  refine ⟨Memory.wf_writeCell h.1 ?_ _, h.2⟩
  simpa [spaceHolds] using u.oamAddr.isLt

theorem writePal_lt {m : Memory} (h : (m.all fun c => decide (c.2 < 64)) = true) (k : Nat) {v : Byte} (hv : v < 64) :
    ((writeCell .palette m k v).all fun c => decide (c.2 < 64)) = true := by
  rw [List.all_eq_true] at h ⊢
  intro c hc
  unfold writeCell at hc
  split_ifs at hc
  · exact h c (mem_eraseCell hc).1
  · rcases mem_insertCell hc with rfl | hc
    · simpa using hv
    · exact h c hc

theorem videoMemWrite_canonical {cart : Cart} {u : Video} (h : u.canonical cart = true) (a : Nat) (v : Byte) :
    (videoMemWrite cart u a v).canonical cart = true := by
  unfold videoMemWrite
  rw [Video.canonical_iff] at h
  obtain ⟨h1, h2, h3, h4, h5, h6⟩ := h
  simp only
  split_ifs with ha hw hb
  · rw [Video.canonical_iff]
    refine ⟨h1, h2, h3, h4, Memory.wf_writeCell h5 ?_ _, h6⟩
    simp [chrSpace, hw, spaceHolds, ha]
  · exact (Video.canonical_iff _ _).2 ⟨h1, h2, h3, h4, h5, h6⟩
  · rw [Video.canonical_iff]
    refine ⟨h1, Memory.wf_writeCell h2 ?_ _, h3, h4, h5, h6⟩
    simp [spaceHolds, ntIndex_lt]
  · rw [Video.canonical_iff]
    refine ⟨h1, h2, Memory.wf_writeCell h3 ?_ _, writePal_lt h4 _ (and_3F_lt v), h5, h6⟩
    simp [spaceHolds, palIndex_lt]

/-- Every register write keeps the unit's memories canonical. -/
theorem videoRegWrite_canonical {cart : Cart} {u : Video} (h : u.canonical cart = true) (r : Nat) (v : Byte) :
    (videoRegWrite cart u r v).canonical cart = true := by
  unfold videoRegWrite
  split
  · exact h
  · exact h
  · exact h
  · exact oamStore_canonical h v
  · unfold scrollWrite; split <;> exact h
  · unfold addrWrite; split <;> exact h
  · exact videoMemWrite_canonical h _ _
  · exact h

theorem pixelColour_lt {cart : Cart} {u : Video} (h : u.canonical cart = true) (x y : Nat) :
    pixelColour cart u x y < 64 := by
  have hp := palByte_lt ((Video.canonical_iff _ _).1 h).2.2.2.1
  unfold pixelColour
  dsimp only
  split <;> split <;> exact hp _

theorem renderPixel_canonical {cart : Cart} {u : Video} (h : u.canonical cart = true) {x y : Nat} (hx : x < 256)
    (hy : y < 240) : (renderPixel cart u x y).canonical cart = true := by
  have hc := pixelColour_lt h x y
  rw [Video.canonical_iff] at h ⊢
  obtain ⟨h1, h2, h3, h4, h5, h6, h7⟩ := h
  refine ⟨h1, h2, h3, h4, h5, Frame.wf_writePixel h6 hx hy ?_, h7⟩
  split
  · exact and_30_lt hc
  · exact hc

theorem tickEvent_canonical {cfg : Cfg} {cart : Cart} {t : TickState} (h : t.unit.canonical cart = true) :
    (tickEvent cfg cart t).unit.canonical cart = true := by
  unfold tickEvent
  simp only
  split_ifs with h1 h2 h3 h4 h5 h6 h7
  · exact renderPixel_canonical h (by omega) h1
  · exact h
  · exact h
  · rw [Video.canonical_iff] at h ⊢
    obtain ⟨h1, h2, h3, h4, h5, h6, h7⟩ := h
    refine ⟨h1, h2, h3, h4, h5, h6, fun f hf => ?_⟩
    obtain rfl := Option.some.inj hf
    exact h6
  · exact h
  · exact h
  · exact h
  · exact h

theorem advanceDot_canonical {cart : Cart} {u : Video} (h : u.canonical cart = true) :
    (advanceDot u).canonical cart = true := by
  unfold advanceDot; split <;> exact h

/-- `n` video ticks keep the unit's memories canonical. -/
theorem videoTicks_canonical {cfg : Cfg} {cart : Cart} (n : Nat) {t : TickState} (h : t.unit.canonical cart = true) :
    (videoTicks cfg cart n t).unit.canonical cart = true := by
  induction n generalizing t with
  | zero => exact h
  | succ n ih => exact ih (advanceDot_canonical (tickEvent_canonical h))

/-! ## The position and the frame count -/

/-- The event of a tick leaves the position alone and counts a frame exactly at (240, 0). -/
theorem tickEvent_position (cfg : Cfg) (cart : Cart) (t : TickState) :
    (tickEvent cfg cart t).unit.scanline = t.unit.scanline ∧ (tickEvent cfg cart t).unit.dot = t.unit.dot ∧
      (tickEvent cfg cart t).unit.frameCount =
        t.unit.frameCount + if t.unit.scanline = 240 ∧ t.unit.dot = 0 then 1 else 0 := by
  refine ⟨?_, ?_, ?_⟩
  · unfold tickEvent
    dsimp only
    repeat' split
    all_goals rfl
  · unfold tickEvent
    dsimp only
    repeat' split
    all_goals rfl
  · unfold tickEvent Config.postLine Config.vblLine Config.preLine
    dsimp only
    repeat' split
    all_goals first
      | rfl
      | omega

/-- One dot on: in range, and one further in the traversal. -/
theorem advanceDot_position {u : Video} (h : u.inRange = true) :
    (advanceDot u).inRange = true ∧ (advanceDot u).position = (u.position + 1) % 89342 ∧
      (advanceDot u).frameCount = u.frameCount := by
  unfold Video.inRange at h ⊢
  unfold Video.position advanceDot Config.dotsPerLine Config.linesPerFrame
  simp only [Bool.and_eq_true, decide_eq_true_eq] at h ⊢
  split_ifs <;> simp <;> omega

/-- One tick: in range, one position further, and one frame more exactly from position 81840, which is (240, 0). -/
theorem videoTick_position (cfg : Cfg) (cart : Cart) {t : TickState} (h : t.unit.inRange = true) :
    (videoTick cfg cart t).unit.inRange = true ∧
      (videoTick cfg cart t).unit.position = (t.unit.position + 1) % 89342 ∧
      (videoTick cfg cart t).unit.frameCount = t.unit.frameCount + if t.unit.position = 81840 then 1 else 0 := by
  have e := tickEvent_position cfg cart t
  have hr : (tickEvent cfg cart t).unit.inRange = true := by
    unfold Video.inRange at *; rw [e.1, e.2.1]; exact h
  have ep : (tickEvent cfg cart t).unit.position = t.unit.position := by
    unfold Video.position; rw [e.1, e.2.1]
  have a := advanceDot_position hr
  refine ⟨a.1, by rw [← ep]; exact a.2.1, ?_⟩
  rw [show (videoTick cfg cart t).unit.frameCount = _ from a.2.2, e.2.2]
  congr 1
  unfold Video.inRange at h
  unfold Video.position
  simp at h
  split_ifs <;> omega

/-- `n` video ticks are the tick repeated (R300). -/
theorem videoTicks_iterate (cfg : Cfg) (cart : Cart) (n : Nat) (t : TickState) :
    videoTicks cfg cart n t = Nat.iterate (videoTick cfg cart) n t := by
  induction n generalizing t with
  | zero => rfl
  | succ n ih => exact ih _

end Sys2Proof.Machine
end

