-- ==== Sys2Proof/Laws/Canonical.lean ====
section
/-! SUPPORT. Every operation that touches a memory keeps the canonical form: the two bus accesses, the transfer, the placing of a
byte, and the memories a cartridge and the launch parameters give; and the memory at reset has it. -/

namespace Sys2Proof.Machine

/-! ## The storage behind the CPU address space -/

/-- A storage cell behind an address below 0x8000 is one this machine has; PRG cells are too, since the offset is reduced. -/
theorem cpuCellExists_storageCell {s : State} {a : Word} {k : Nat} (h : storageCell s a = some k) :
    cpuCellExists s.cfg s.cart k = true := by
  unfold storageCell at h
  split at h
  · obtain rfl := Option.some.inj h
    have : ramCell a < 2048 := Nat.mod_lt _ (by decide)
    simp [cpuCellExists, this]
  · unfold cartCell at h
    split_ifs at h with h1 h2
    · obtain rfl := Option.some.inj h
      have := prgCell_range s.cart.prgSize a
      simp [cpuCellExists, this.1, this.2]
    · obtain rfl := Option.some.inj h
      simp [cpuCellExists, h2.1, h2.2, Nat.lt_of_not_le h1]
  all_goals simp at h

theorem memCanonical_writeCell {cfg : Cfg} {cart : Cart} {m : Memory} (h : memCanonical cfg cart m = true) {k : Nat}
    (hs : spaceHolds .cpu k = true) (he : cpuCellExists cfg cart k = true) (v : Byte) :
    memCanonical cfg cart (writeCell .cpu m k v) = true := by
  unfold memCanonical at *
  rw [Bool.and_eq_true, List.all_eq_true] at *
  refine ⟨Memory.wf_writeCell h.1 hs v, fun c hc => ?_⟩
  unfold writeCell at hc
  split_ifs at hc
  · exact h.2 c (mem_eraseCell hc).1
  · rcases mem_insertCell hc with rfl | hc
    · exact he
    · exact h.2 c hc

theorem placeByte_memCanonical {s : State} (h : memCanonical s.cfg s.cart s.mem = true) (a : Word) (b : Byte) :
    memCanonical s.cfg s.cart (placeByte a b s).mem = true := by
  unfold placeByte
  split
  · rename_i k hk
    exact memCanonical_writeCell h (storageCell_holds hk) (cpuCellExists_storageCell hk) b
  · exact h

/-! ## Bus accesses -/

/-- A bus read keeps every memory canonical. -/
theorem busRead_canonical {s : State} (h : s.canonical = true) (a : Word) : (busRead a s).state.canonical = true := by
  unfold State.canonical at *
  rw [Bool.and_eq_true] at *
  simp only [busRead_mem, busRead_cart, busRead_cfg]
  refine ⟨h.1, ?_⟩
  show (regionRead a s).state.video.canonical s.cart = true
  unfold regionRead
  cases region a
  · exact h.2
  · simp only [videoRegRead]; split <;> exact h.2
  · simp only [ioRead]; split_ifs <;> exact h.2
  · exact h.2
  · simp only [mapperRead]; split <;> exact h.2

theorem oamCopy_canonical {s : State} (h : s.canonical = true) (n : Nat) (a : Word) :
    (oamCopy n a s).canonical = true := by
  induction n generalizing a s with
  | zero => exact h
  | succ n ih =>
    refine ih ?_ _
    have hr := busRead_canonical h a
    unfold State.canonical at *
    rw [Bool.and_eq_true] at *
    exact ⟨hr.1, oamStore_canonical hr.2 _⟩

/-- A bus write keeps every memory canonical. -/
theorem busWrite_canonical {s : State} (h : s.canonical = true) (a : Word) (v : Byte) :
    (busWrite a v s).canonical = true := by
  have hd := oamCopy_canonical (s := s.setLatch v) h 256 (mkWord v 0)
  unfold State.canonical at *
  rw [Bool.and_eq_true] at *
  refine ⟨?_, ?_⟩
  · simp only [busWrite_mem, busWrite_cart, busWrite_cfg]
    split
    · rename_i k hk
      split
      · exact memCanonical_writeCell h.1 (storageCell_holds hk) (cpuCellExists_storageCell hk) v
      · exact h.1
    · exact h.1
  · rw [busWrite_cart]
    unfold busWrite regionWrite
    cases region a
    · exact h.2
    · exact videoRegWrite_canonical h.2 _ _
    · simp only [ioWrite]
      split_ifs
      · simpa [oamDma] using hd.2
      · exact h.2
      · exact h.2
    · exact h.2
    · simp only [mapperWrite]; split_ifs <;> exact h.2

/-! ## The memories a machine is built with -/

/-- `cellsFrom` lists rising addresses of its range, and nothing that reads the same unlisted. -/
theorem cellsFrom_mem {sp : Space} {base : Nat} {bytes : List Byte} {c : Host.Cell} (h : c ∈ cellsFrom sp base bytes) :
    base ≤ c.1 ∧ c.1 < base + bytes.length ∧ unlisted sp c.1 ≠ some c.2 := by
  unfold cellsFrom at h
  rw [List.mem_filterMap] at h
  obtain ⟨⟨b, k⟩, hk, hc⟩ := h
  split_ifs at hc with hu
  obtain rfl := Option.some.inj hc
  have := List.mem_zipIdx hk
  exact ⟨this.1, this.2.1, hu⟩

theorem cellsFrom_cons (sp : Space) (base : Nat) (b : Byte) (bytes : List Byte) :
    cellsFrom sp base (b :: bytes) =
      if unlisted sp base = some b then cellsFrom sp (base + 1) bytes else (base, b) :: cellsFrom sp (base + 1) bytes := by
  unfold cellsFrom
  rw [List.zipIdx_cons, List.filterMap_cons]
  split_ifs <;> rfl

theorem cellsFrom_rising (sp : Space) (base : Nat) (bytes : List Byte) : rising (cellsFrom sp base bytes) = true := by
  induction bytes generalizing base with
  | nil => rfl
  | cons b bytes ih =>
    rw [cellsFrom_cons]
    split_ifs
    · exact ih _
    · exact rising_of_lt (fun d hd => by have := (cellsFrom_mem hd).1; exact this) (ih _)

/-- What `cellsFrom` lists is canonical where its range lies in the memory. -/
theorem cellsFrom_wf {sp : Space} {base : Nat} {bytes : List Byte}
    (h : ∀ k, base ≤ k → k < base + bytes.length → spaceHolds sp k = true) :
    Memory.wf sp (cellsFrom sp base bytes) = true := by
  rw [Memory.wf_iff]
  refine ⟨cellsFrom_rising sp base bytes, fun c hc => ?_⟩
  have := cellsFrom_mem hc
  exact ⟨h _ this.1 this.2.1, this.2.2⟩

/-- A cell of the range reads as its byte. -/
theorem readCell_cellsFrom {sp : Space} {base : Nat} {bytes : List Byte} {k : Nat} (hk : k < bytes.length) :
    readCell sp (cellsFrom sp base bytes) (base + k) = bytes.getD k 0 := by
  induction bytes generalizing base k with
  | nil => simp at hk
  | cons b bytes ih =>
    have none_before : ∀ m n, m < n → lookupCell (cellsFrom sp n bytes) m = none := by
      intro m n hmn
      by_contra hne
      obtain ⟨v, hv⟩ := Option.ne_none_iff_exists'.1 hne
      have := (cellsFrom_mem (lookupCell_mem hv)).1
      simp at this
      omega
    rw [cellsFrom_cons]
    cases k with
    | zero =>
      split_ifs with hu
      · simp [readCell, none_before base (base + 1) (by omega), hu]
      · simp [readCell, lookupCell]
    | succ k =>
      have hk' : k < bytes.length := by simpa using hk
      have e : base + (k + 1) = base + 1 + k := by omega
      have := ih (base := base + 1) hk'
      split_ifs with hu
      · rw [e, this]; simp
      · rw [show readCell sp ((base, b) :: cellsFrom sp (base + 1) bytes) (base + (k + 1)) =
            readCell sp (cellsFrom sp (base + 1) bytes) (base + (k + 1)) by
          simp only [readCell, lookupCell]; rw [if_neg (by omega)]]
        rw [e, this]; simp

/-- The memory at reset has the canonical form. -/
theorem reset_mem_wf : Memory.wf .cpu State.reset.mem = true := rfl

end Sys2Proof.Machine
end

