-- ==== Sys2Proof/Laws/Decode.lean ====
section
/-! SUPPORT. The laws of the decoder: what it answers for each of the three formats and for a byte that is no opcode
(`30_encoding.md` R101, R112). -/

namespace Sys2Proof

theorem decode_f1 {op : Byte} {i : Instr} (h : opcodeShape op = some (.f1 i)) (rest : List Byte) :
    decode (op :: rest) = .ok i rest := by simp [decode, h]

theorem decode_f2 {op : Byte} {f : Byte → Instr} (h : opcodeShape op = some (.f2 f)) (b1 : Byte) (rest : List Byte) :
    decode (op :: b1 :: rest) = .ok (f b1) rest := by simp [decode, h]

theorem decode_f3 {op : Byte} {f : Word → Instr} (h : opcodeShape op = some (.f3 f)) (b1 b2 : Byte)
    (rest : List Byte) : decode (op :: b1 :: b2 :: rest) = .ok (f (mkWord b2 b1)) rest := by simp [decode, h]

theorem decode_f3_word {op : Byte} {f : Word → Instr} (h : opcodeShape op = some (.f3 f)) (w : Word)
    (rest : List Byte) : decode (op :: loByte w :: hiByte w :: rest) = .ok (f w) rest := by
  rw [decode_f3 h, mkWord_hiByte_loByte]

theorem decode_illegal {op : Byte} (h : opcodeShape op = none) (rest : List Byte) :
    decode (op :: rest) = .reject (.illegalOpcode op) := by simp [decode, h]

/-- What an accepted byte sequence looks like: one of the three formats. -/
theorem decode_ok {bytes rest : List Byte} {i : Instr} (h : decode bytes = .ok i rest) :
    (∃ op, opcodeShape op = some (.f1 i) ∧ bytes = op :: rest) ∨
      (∃ op f b1, opcodeShape op = some (.f2 f) ∧ i = f b1 ∧ bytes = op :: b1 :: rest) ∨
      (∃ op f b1 b2, opcodeShape op = some (.f3 f) ∧ i = f (mkWord b2 b1) ∧ bytes = op :: b1 :: b2 :: rest) := by
  unfold decode at h
  split at h
  · simp at h
  · rename_i op tail
    split at h
    · simp at h
    · rename_i j hj
      injection h with h1 h2; subst h1; subst h2
      exact .inl ⟨op, hj, rfl⟩
    · rename_i f hf
      split at h
      · rename_i b1 rest'
        injection h with h1 h2; subst h2
        exact .inr (.inl ⟨op, f, b1, hf, h1.symm, rfl⟩)
      · simp at h
    · rename_i f hf
      split at h
      · rename_i b1 b2 rest'
        injection h with h1 h2; subst h2
        exact .inr (.inr ⟨op, f, b1, b2, hf, h1.symm, rfl⟩)
      · simp at h

end Sys2Proof
end

