-- ==== Sys2Proof/Laws/Operands.lean ====
section
/-! SUPPORT. The laws of the operand forms: resolving an address and reading an operand are bus reads, so they leave the
CPU, the storage, the audio unit, the cartridge and the parameters alone. -/

namespace Sys2Proof.Machine

/-! ## `movePc` -/

@[simp] theorem movePc_pc (n : Nat) (s : State) : (movePc n s).cpu.pc = s.cpu.pc + BitVec.ofNat 16 n := rfl
@[simp] theorem movePc_sp (n : Nat) (s : State) : (movePc n s).cpu.sp = s.cpu.sp := rfl
@[simp] theorem movePc_a (n : Nat) (s : State) : (movePc n s).cpu.a = s.cpu.a := rfl
@[simp] theorem movePc_x (n : Nat) (s : State) : (movePc n s).cpu.x = s.cpu.x := rfl
@[simp] theorem movePc_y (n : Nat) (s : State) : (movePc n s).cpu.y = s.cpu.y := rfl
@[simp] theorem movePc_flags (n : Nat) (s : State) : (movePc n s).cpu.flags = s.cpu.flags := rfl
@[simp] theorem movePc_cyc (n : Nat) (s : State) : (movePc n s).cpu.cyc = s.cpu.cyc := rfl
@[simp] theorem movePc_fault (n : Nat) (s : State) : (movePc n s).cpu.fault = s.cpu.fault := rfl
@[simp] theorem movePc_cfg (n : Nat) (s : State) : (movePc n s).cfg = s.cfg := rfl
@[simp] theorem movePc_cart (n : Nat) (s : State) : (movePc n s).cart = s.cart := rfl
@[simp] theorem movePc_bus (n : Nat) (s : State) : (movePc n s).bus = s.bus := rfl
@[simp] theorem movePc_mem (n : Nat) (s : State) : (movePc n s).mem = s.mem := rfl
@[simp] theorem movePc_video (n : Nat) (s : State) : (movePc n s).video = s.video := rfl
@[simp] theorem movePc_audio (n : Nat) (s : State) : (movePc n s).audio = s.audio := rfl
@[simp] theorem movePc_input (n : Nat) (s : State) : (movePc n s).input = s.input := rfl
@[simp] theorem movePc_hostCalls (n : Nat) (s : State) : (movePc n s).hostCalls = s.hostCalls := rfl

/-! ## Reading a word -/

@[simp] theorem readPair_cpu (lo hi : Word) (s : State) : (readPair lo hi s).state.cpu = s.cpu := by simp [readPair]
@[simp] theorem readPair_mem (lo hi : Word) (s : State) : (readPair lo hi s).state.mem = s.mem := by simp [readPair]
@[simp] theorem readPair_audio (lo hi : Word) (s : State) : (readPair lo hi s).state.audio = s.audio := by
  simp [readPair]
@[simp] theorem readPair_cart (lo hi : Word) (s : State) : (readPair lo hi s).state.cart = s.cart := by
  simp [readPair]
@[simp] theorem readPair_cfg (lo hi : Word) (s : State) : (readPair lo hi s).state.cfg = s.cfg := by simp [readPair]
@[simp] theorem readPair_hostCalls (lo hi : Word) (s : State) :
    (readPair lo hi s).state.hostCalls = s.hostCalls := by simp [readPair]

/-- A word from two addresses with storage: the two bytes, little-endian, and the latch. -/
theorem readPair_stored {lo hi : Word} {l h : Byte} {s : State} (hl : storedByte s lo = some l)
    (hh : storedByte s hi = some h) : readPair lo hi s = { value := mkWord h l, state := s.setLatch h } := by
  have hh' : storedByte (s.setLatch l) hi = some h := hh
  unfold readPair
  simp only [busRead_stored hl]
  rw [busRead_stored hh']
  rfl

/-- A zero-page address has storage. -/
theorem storedByte_zeroPage (s : State) (z : Byte) :
    storedByte s (zext16 z) = some (readCell .cpu s.mem z.toNat) := by
  have hz : z.toNat < 256 := z.isLt
  have ht := zext16_toNat z
  unfold storedByte
  rw [storageCell_ram (by omega), ht, Nat.mod_eq_of_lt (by omega)]

/-- A zero-page pointer in full: both bytes from the zero page, and the latch. -/
theorem read16zp_eq (z : Byte) (s : State) :
    read16zp z s =
      { value := mkWord (readCell .cpu s.mem (z + 1).toNat) (readCell .cpu s.mem z.toNat),
        state := s.setLatch (readCell .cpu s.mem (z + 1).toNat) } := by
  exact readPair_stored (storedByte_zeroPage s z) (storedByte_zeroPage s (z + 1))

/-! ## Effective addresses -/

/-- Resolving an address can change the latch alone: its pointer reads are in the zero page. -/
theorem resolve_state (m : MemMode) (s : State) : ∃ b, (resolve m s).state = s.setLatch b := by
  cases m <;> simp only [resolve, indexed, read16zp_eq]
  all_goals first | exact ⟨s.bus.latch, rfl⟩ | exact ⟨_, rfl⟩

@[simp] theorem resolve_cpu (m : MemMode) (s : State) : (resolve m s).state.cpu = s.cpu := by
  obtain ⟨b, h⟩ := resolve_state m s; rw [h]; rfl
@[simp] theorem resolve_mem (m : MemMode) (s : State) : (resolve m s).state.mem = s.mem := by
  obtain ⟨b, h⟩ := resolve_state m s; rw [h]; rfl
@[simp] theorem resolve_audio (m : MemMode) (s : State) : (resolve m s).state.audio = s.audio := by
  obtain ⟨b, h⟩ := resolve_state m s; rw [h]; rfl
@[simp] theorem resolve_video (m : MemMode) (s : State) : (resolve m s).state.video = s.video := by
  obtain ⟨b, h⟩ := resolve_state m s; rw [h]; rfl
@[simp] theorem resolve_input (m : MemMode) (s : State) : (resolve m s).state.input = s.input := by
  obtain ⟨b, h⟩ := resolve_state m s; rw [h]; rfl
@[simp] theorem resolve_cart (m : MemMode) (s : State) : (resolve m s).state.cart = s.cart := by
  obtain ⟨b, h⟩ := resolve_state m s; rw [h]; rfl
@[simp] theorem resolve_cfg (m : MemMode) (s : State) : (resolve m s).state.cfg = s.cfg := by
  obtain ⟨b, h⟩ := resolve_state m s; rw [h]; rfl
@[simp] theorem resolve_hostCalls (m : MemMode) (s : State) : (resolve m s).state.hostCalls = s.hostCalls := by
  obtain ⟨b, h⟩ := resolve_state m s; rw [h]; rfl
@[simp] theorem resolve_intLine (m : MemMode) (s : State) :
    (resolve m s).state.bus.intLine = s.bus.intLine := by
  obtain ⟨b, h⟩ := resolve_state m s; rw [h]; rfl

/-! ## Operands -/

@[simp] theorem readSource_cpu (src : Source) (s : State) : (readSource src s).state.cpu = s.cpu := by
  cases src <;> simp [readSource]
@[simp] theorem readSource_mem (src : Source) (s : State) : (readSource src s).state.mem = s.mem := by
  cases src <;> simp [readSource]
@[simp] theorem readSource_audio (src : Source) (s : State) : (readSource src s).state.audio = s.audio := by
  cases src <;> simp [readSource]
@[simp] theorem readSource_cart (src : Source) (s : State) : (readSource src s).state.cart = s.cart := by
  cases src <;> simp [readSource]
@[simp] theorem readSource_cfg (src : Source) (s : State) : (readSource src s).state.cfg = s.cfg := by
  cases src <;> simp [readSource]
@[simp] theorem readSource_hostCalls (src : Source) (s : State) :
    (readSource src s).state.hostCalls = s.hostCalls := by
  cases src <;> simp [readSource]

theorem Cpu.eta_pc (s : State) (v : Word) : (s.setPc v).cpu = { s.cpu with pc := v } := rfl

end Sys2Proof.Machine
end

