-- ==== Sys2Proof/Laws/PerInstr.lean ====
section
/-! SUPPORT. Statements about every instruction as syntax, one lemma per constructor of `Instr`. -/

namespace Sys2Proof.Laws.RoundTrip

/-- The decoder reads the encoded instruction back, whatever bytes follow it. -/
def Statement (i : Instr) : Prop := ∀ rest : List Byte, decode (encode i ++ rest) = .ok i rest

theorem ldaImm (b : Byte) : Statement (.ldaImm b) := decode_f2 (op := 0xA9) rfl b
theorem ldaZp (b : Byte) : Statement (.ldaZp b) := decode_f2 (op := 0xA5) rfl b
theorem ldaZpx (b : Byte) : Statement (.ldaZpx b) := decode_f2 (op := 0xB5) rfl b
theorem ldaAbs (w : Word) : Statement (.ldaAbs w) := decode_f3_word (op := 0xAD) rfl w
theorem ldaAbx (w : Word) : Statement (.ldaAbx w) := decode_f3_word (op := 0xBD) rfl w
theorem ldaAby (w : Word) : Statement (.ldaAby w) := decode_f3_word (op := 0xB9) rfl w
theorem ldaIzx (b : Byte) : Statement (.ldaIzx b) := decode_f2 (op := 0xA1) rfl b
theorem ldaIzy (b : Byte) : Statement (.ldaIzy b) := decode_f2 (op := 0xB1) rfl b
theorem ldxImm (b : Byte) : Statement (.ldxImm b) := decode_f2 (op := 0xA2) rfl b
theorem ldxZp (b : Byte) : Statement (.ldxZp b) := decode_f2 (op := 0xA6) rfl b
theorem ldxZpy (b : Byte) : Statement (.ldxZpy b) := decode_f2 (op := 0xB6) rfl b
theorem ldxAbs (w : Word) : Statement (.ldxAbs w) := decode_f3_word (op := 0xAE) rfl w
theorem ldxAby (w : Word) : Statement (.ldxAby w) := decode_f3_word (op := 0xBE) rfl w
theorem ldyImm (b : Byte) : Statement (.ldyImm b) := decode_f2 (op := 0xA0) rfl b
theorem ldyZp (b : Byte) : Statement (.ldyZp b) := decode_f2 (op := 0xA4) rfl b
theorem ldyZpx (b : Byte) : Statement (.ldyZpx b) := decode_f2 (op := 0xB4) rfl b
theorem ldyAbs (w : Word) : Statement (.ldyAbs w) := decode_f3_word (op := 0xAC) rfl w
theorem ldyAbx (w : Word) : Statement (.ldyAbx w) := decode_f3_word (op := 0xBC) rfl w
theorem staZp (b : Byte) : Statement (.staZp b) := decode_f2 (op := 0x85) rfl b
theorem staZpx (b : Byte) : Statement (.staZpx b) := decode_f2 (op := 0x95) rfl b
theorem staAbs (w : Word) : Statement (.staAbs w) := decode_f3_word (op := 0x8D) rfl w
theorem staAbx (w : Word) : Statement (.staAbx w) := decode_f3_word (op := 0x9D) rfl w
theorem staAby (w : Word) : Statement (.staAby w) := decode_f3_word (op := 0x99) rfl w
theorem staIzx (b : Byte) : Statement (.staIzx b) := decode_f2 (op := 0x81) rfl b
theorem staIzy (b : Byte) : Statement (.staIzy b) := decode_f2 (op := 0x91) rfl b
theorem stxZp (b : Byte) : Statement (.stxZp b) := decode_f2 (op := 0x86) rfl b
theorem stxZpy (b : Byte) : Statement (.stxZpy b) := decode_f2 (op := 0x96) rfl b
theorem stxAbs (w : Word) : Statement (.stxAbs w) := decode_f3_word (op := 0x8E) rfl w
theorem styZp (b : Byte) : Statement (.styZp b) := decode_f2 (op := 0x84) rfl b
theorem styZpx (b : Byte) : Statement (.styZpx b) := decode_f2 (op := 0x94) rfl b
theorem styAbs (w : Word) : Statement (.styAbs w) := decode_f3_word (op := 0x8C) rfl w
theorem tax : Statement .tax := decode_f1 (op := 0xAA) rfl
theorem tay : Statement .tay := decode_f1 (op := 0xA8) rfl
theorem txa : Statement .txa := decode_f1 (op := 0x8A) rfl
theorem tya : Statement .tya := decode_f1 (op := 0x98) rfl
theorem tsx : Statement .tsx := decode_f1 (op := 0xBA) rfl
theorem txs : Statement .txs := decode_f1 (op := 0x9A) rfl
theorem pha : Statement .pha := decode_f1 (op := 0x48) rfl
theorem php : Statement .php := decode_f1 (op := 0x08) rfl
theorem pla : Statement .pla := decode_f1 (op := 0x68) rfl
theorem plp : Statement .plp := decode_f1 (op := 0x28) rfl
theorem andImm (b : Byte) : Statement (.andImm b) := decode_f2 (op := 0x29) rfl b
theorem andZp (b : Byte) : Statement (.andZp b) := decode_f2 (op := 0x25) rfl b
theorem andZpx (b : Byte) : Statement (.andZpx b) := decode_f2 (op := 0x35) rfl b
theorem andAbs (w : Word) : Statement (.andAbs w) := decode_f3_word (op := 0x2D) rfl w
theorem andAbx (w : Word) : Statement (.andAbx w) := decode_f3_word (op := 0x3D) rfl w
theorem andAby (w : Word) : Statement (.andAby w) := decode_f3_word (op := 0x39) rfl w
theorem andIzx (b : Byte) : Statement (.andIzx b) := decode_f2 (op := 0x21) rfl b
theorem andIzy (b : Byte) : Statement (.andIzy b) := decode_f2 (op := 0x31) rfl b
theorem oraImm (b : Byte) : Statement (.oraImm b) := decode_f2 (op := 0x09) rfl b
theorem oraZp (b : Byte) : Statement (.oraZp b) := decode_f2 (op := 0x05) rfl b
theorem oraZpx (b : Byte) : Statement (.oraZpx b) := decode_f2 (op := 0x15) rfl b
theorem oraAbs (w : Word) : Statement (.oraAbs w) := decode_f3_word (op := 0x0D) rfl w
theorem oraAbx (w : Word) : Statement (.oraAbx w) := decode_f3_word (op := 0x1D) rfl w
theorem oraAby (w : Word) : Statement (.oraAby w) := decode_f3_word (op := 0x19) rfl w
theorem oraIzx (b : Byte) : Statement (.oraIzx b) := decode_f2 (op := 0x01) rfl b
theorem oraIzy (b : Byte) : Statement (.oraIzy b) := decode_f2 (op := 0x11) rfl b
theorem eorImm (b : Byte) : Statement (.eorImm b) := decode_f2 (op := 0x49) rfl b
theorem eorZp (b : Byte) : Statement (.eorZp b) := decode_f2 (op := 0x45) rfl b
theorem eorZpx (b : Byte) : Statement (.eorZpx b) := decode_f2 (op := 0x55) rfl b
theorem eorAbs (w : Word) : Statement (.eorAbs w) := decode_f3_word (op := 0x4D) rfl w
theorem eorAbx (w : Word) : Statement (.eorAbx w) := decode_f3_word (op := 0x5D) rfl w
theorem eorAby (w : Word) : Statement (.eorAby w) := decode_f3_word (op := 0x59) rfl w
theorem eorIzx (b : Byte) : Statement (.eorIzx b) := decode_f2 (op := 0x41) rfl b
theorem eorIzy (b : Byte) : Statement (.eorIzy b) := decode_f2 (op := 0x51) rfl b
theorem bitZp (b : Byte) : Statement (.bitZp b) := decode_f2 (op := 0x24) rfl b
theorem bitAbs (w : Word) : Statement (.bitAbs w) := decode_f3_word (op := 0x2C) rfl w
theorem adcImm (b : Byte) : Statement (.adcImm b) := decode_f2 (op := 0x69) rfl b
theorem adcZp (b : Byte) : Statement (.adcZp b) := decode_f2 (op := 0x65) rfl b
theorem adcZpx (b : Byte) : Statement (.adcZpx b) := decode_f2 (op := 0x75) rfl b
theorem adcAbs (w : Word) : Statement (.adcAbs w) := decode_f3_word (op := 0x6D) rfl w
theorem adcAbx (w : Word) : Statement (.adcAbx w) := decode_f3_word (op := 0x7D) rfl w
theorem adcAby (w : Word) : Statement (.adcAby w) := decode_f3_word (op := 0x79) rfl w
theorem adcIzx (b : Byte) : Statement (.adcIzx b) := decode_f2 (op := 0x61) rfl b
theorem adcIzy (b : Byte) : Statement (.adcIzy b) := decode_f2 (op := 0x71) rfl b
theorem sbcImm (b : Byte) : Statement (.sbcImm b) := decode_f2 (op := 0xE9) rfl b
theorem sbcZp (b : Byte) : Statement (.sbcZp b) := decode_f2 (op := 0xE5) rfl b
theorem sbcZpx (b : Byte) : Statement (.sbcZpx b) := decode_f2 (op := 0xF5) rfl b
theorem sbcAbs (w : Word) : Statement (.sbcAbs w) := decode_f3_word (op := 0xED) rfl w
theorem sbcAbx (w : Word) : Statement (.sbcAbx w) := decode_f3_word (op := 0xFD) rfl w
theorem sbcAby (w : Word) : Statement (.sbcAby w) := decode_f3_word (op := 0xF9) rfl w
theorem sbcIzx (b : Byte) : Statement (.sbcIzx b) := decode_f2 (op := 0xE1) rfl b
theorem sbcIzy (b : Byte) : Statement (.sbcIzy b) := decode_f2 (op := 0xF1) rfl b
theorem cmpImm (b : Byte) : Statement (.cmpImm b) := decode_f2 (op := 0xC9) rfl b
theorem cmpZp (b : Byte) : Statement (.cmpZp b) := decode_f2 (op := 0xC5) rfl b
theorem cmpZpx (b : Byte) : Statement (.cmpZpx b) := decode_f2 (op := 0xD5) rfl b
theorem cmpAbs (w : Word) : Statement (.cmpAbs w) := decode_f3_word (op := 0xCD) rfl w
theorem cmpAbx (w : Word) : Statement (.cmpAbx w) := decode_f3_word (op := 0xDD) rfl w
theorem cmpAby (w : Word) : Statement (.cmpAby w) := decode_f3_word (op := 0xD9) rfl w
theorem cmpIzx (b : Byte) : Statement (.cmpIzx b) := decode_f2 (op := 0xC1) rfl b
theorem cmpIzy (b : Byte) : Statement (.cmpIzy b) := decode_f2 (op := 0xD1) rfl b
theorem cpxImm (b : Byte) : Statement (.cpxImm b) := decode_f2 (op := 0xE0) rfl b
theorem cpxZp (b : Byte) : Statement (.cpxZp b) := decode_f2 (op := 0xE4) rfl b
theorem cpxAbs (w : Word) : Statement (.cpxAbs w) := decode_f3_word (op := 0xEC) rfl w
theorem cpyImm (b : Byte) : Statement (.cpyImm b) := decode_f2 (op := 0xC0) rfl b
theorem cpyZp (b : Byte) : Statement (.cpyZp b) := decode_f2 (op := 0xC4) rfl b
theorem cpyAbs (w : Word) : Statement (.cpyAbs w) := decode_f3_word (op := 0xCC) rfl w
theorem incZp (b : Byte) : Statement (.incZp b) := decode_f2 (op := 0xE6) rfl b
theorem incZpx (b : Byte) : Statement (.incZpx b) := decode_f2 (op := 0xF6) rfl b
theorem incAbs (w : Word) : Statement (.incAbs w) := decode_f3_word (op := 0xEE) rfl w
theorem incAbx (w : Word) : Statement (.incAbx w) := decode_f3_word (op := 0xFE) rfl w
theorem inx : Statement .inx := decode_f1 (op := 0xE8) rfl
theorem iny : Statement .iny := decode_f1 (op := 0xC8) rfl
theorem decZp (b : Byte) : Statement (.decZp b) := decode_f2 (op := 0xC6) rfl b
theorem decZpx (b : Byte) : Statement (.decZpx b) := decode_f2 (op := 0xD6) rfl b
theorem decAbs (w : Word) : Statement (.decAbs w) := decode_f3_word (op := 0xCE) rfl w
theorem decAbx (w : Word) : Statement (.decAbx w) := decode_f3_word (op := 0xDE) rfl w
theorem dex : Statement .dex := decode_f1 (op := 0xCA) rfl
theorem dey : Statement .dey := decode_f1 (op := 0x88) rfl
theorem aslZp (b : Byte) : Statement (.aslZp b) := decode_f2 (op := 0x06) rfl b
theorem aslZpx (b : Byte) : Statement (.aslZpx b) := decode_f2 (op := 0x16) rfl b
theorem aslAbs (w : Word) : Statement (.aslAbs w) := decode_f3_word (op := 0x0E) rfl w
theorem aslAbx (w : Word) : Statement (.aslAbx w) := decode_f3_word (op := 0x1E) rfl w
theorem aslAcc : Statement .aslAcc := decode_f1 (op := 0x0A) rfl
theorem lsrZp (b : Byte) : Statement (.lsrZp b) := decode_f2 (op := 0x46) rfl b
theorem lsrZpx (b : Byte) : Statement (.lsrZpx b) := decode_f2 (op := 0x56) rfl b
theorem lsrAbs (w : Word) : Statement (.lsrAbs w) := decode_f3_word (op := 0x4E) rfl w
theorem lsrAbx (w : Word) : Statement (.lsrAbx w) := decode_f3_word (op := 0x5E) rfl w
theorem lsrAcc : Statement .lsrAcc := decode_f1 (op := 0x4A) rfl
theorem rolZp (b : Byte) : Statement (.rolZp b) := decode_f2 (op := 0x26) rfl b
theorem rolZpx (b : Byte) : Statement (.rolZpx b) := decode_f2 (op := 0x36) rfl b
theorem rolAbs (w : Word) : Statement (.rolAbs w) := decode_f3_word (op := 0x2E) rfl w
theorem rolAbx (w : Word) : Statement (.rolAbx w) := decode_f3_word (op := 0x3E) rfl w
theorem rolAcc : Statement .rolAcc := decode_f1 (op := 0x2A) rfl
theorem rorZp (b : Byte) : Statement (.rorZp b) := decode_f2 (op := 0x66) rfl b
theorem rorZpx (b : Byte) : Statement (.rorZpx b) := decode_f2 (op := 0x76) rfl b
theorem rorAbs (w : Word) : Statement (.rorAbs w) := decode_f3_word (op := 0x6E) rfl w
theorem rorAbx (w : Word) : Statement (.rorAbx w) := decode_f3_word (op := 0x7E) rfl w
theorem rorAcc : Statement .rorAcc := decode_f1 (op := 0x6A) rfl
theorem jmpAbs (w : Word) : Statement (.jmpAbs w) := decode_f3_word (op := 0x4C) rfl w
theorem jmpInd (w : Word) : Statement (.jmpInd w) := decode_f3_word (op := 0x6C) rfl w
theorem jsr (w : Word) : Statement (.jsr w) := decode_f3_word (op := 0x20) rfl w
theorem rts : Statement .rts := decode_f1 (op := 0x60) rfl
theorem bpl (b : Byte) : Statement (.bpl b) := decode_f2 (op := 0x10) rfl b
theorem bmi (b : Byte) : Statement (.bmi b) := decode_f2 (op := 0x30) rfl b
theorem bvc (b : Byte) : Statement (.bvc b) := decode_f2 (op := 0x50) rfl b
theorem bvs (b : Byte) : Statement (.bvs b) := decode_f2 (op := 0x70) rfl b
theorem bcc (b : Byte) : Statement (.bcc b) := decode_f2 (op := 0x90) rfl b
theorem bcs (b : Byte) : Statement (.bcs b) := decode_f2 (op := 0xB0) rfl b
theorem bne (b : Byte) : Statement (.bne b) := decode_f2 (op := 0xD0) rfl b
theorem beq (b : Byte) : Statement (.beq b) := decode_f2 (op := 0xF0) rfl b
theorem clc : Statement .clc := decode_f1 (op := 0x18) rfl
theorem sec : Statement .sec := decode_f1 (op := 0x38) rfl
theorem cli : Statement .cli := decode_f1 (op := 0x58) rfl
theorem sei : Statement .sei := decode_f1 (op := 0x78) rfl
theorem clv : Statement .clv := decode_f1 (op := 0xB8) rfl
theorem cld : Statement .cld := decode_f1 (op := 0xD8) rfl
theorem sed : Statement .sed := decode_f1 (op := 0xF8) rfl
theorem nop : Statement .nop := decode_f1 (op := 0xEA) rfl
theorem brk : Statement .brk := decode_f1 (op := 0x00) rfl
theorem rti : Statement .rti := decode_f1 (op := 0x40) rfl

end Sys2Proof.Laws.RoundTrip
end

