-- ==== Sys2Proof/Laws/Step.lean ====
section
/-! SUPPORT. What a step can do, said once: the inversion of `step`, and the principle that what bus reads, bus writes and
changes of the CPU's own registers keep, every instruction keeps. -/

namespace Sys2Proof.Machine

/-! ## What every instruction keeps -/

/-- A property of states that the elementary operations of an instruction keep: a change of the CPU's registers that keeps
the fault record and does not turn `cyc` back, a bus read, and a bus write. -/
structure Kept (P : State → Prop) : Prop where
  cpu : ∀ (s : State) (c : Cpu), c.fault = s.cpu.fault → s.cpu.cyc ≤ c.cyc → P s → P { s with cpu := c }
  read : ∀ (a : Word) (s : State), P s → P (busRead a s).state
  write : ∀ (a : Word) (v : Byte) (s : State), P s → P (busWrite a v s)

namespace Kept

variable {P : State → Prop} (K : Kept P)
include K

/-- A change of registers and flags. -/
theorem reg (s : State) (c : Cpu) (h : P s) (hf : c.fault = s.cpu.fault := by rfl)
    (hc : c.cyc = s.cpu.cyc := by rfl) : P { s with cpu := c } := K.cpu s c hf (Nat.le_of_eq hc.symm) h

theorem add (n : Nat) {s : State} (h : P s) : P (s.addCycles n) := K.cpu s _ rfl (Nat.le_add_right _ _) h

theorem movePc (n : Nat) {s : State} (h : P s) : P (movePc n s) := K.reg s _ h

theorem readPair {lo hi : Word} {s : State} (h : P s) : P (readPair lo hi s).state := K.read _ _ (K.read _ _ h)

theorem resolve {m : MemMode} {s : State} (h : P s) : P (resolve m s).state := by
  cases m <;> first | exact h | exact K.readPair h

theorem readSource {src : Source} {s : State} (h : P s) : P (readSource src s).state := by
  cases src with
  | imm b => exact h
  | mem m => exact K.read _ _ (K.resolve h)

theorem push {v : Byte} {s : State} (h : P s) : P (push v s) :=
  K.reg (busWrite (stackAddr s.cpu.sp) v s) _ (K.write _ _ _ h) (by simp) (by simp)
theorem pull {s : State} (h : P s) : P (pull s).state := K.read _ _ (K.reg s _ h)

theorem readInstr {src : Source} {op : Byte → State → State} {s : State} (hop : ∀ v t, P t → P (op v t)) (h : P s) :
    P (readInstr src op s) := K.add _ (hop _ _ (K.readSource (K.movePc _ h)))

theorem storeInstr {m : MemMode} {v : Byte} {s : State} (h : P s) : P (storeInstr m v s) :=
  K.add _ (K.write _ _ _ (K.resolve (K.movePc _ h)))

theorem rmwInstr {m : MemMode} {op : Byte → Flags → Result} {s : State} (h : P s) : P (rmwInstr m op s) :=
  K.add _ (K.reg _ _ (K.write _ _ _ (K.read _ _ (K.resolve (K.movePc _ h)))))

theorem impliedInstr {n : Nat} {op : State → State} {s : State} (hop : ∀ t, P t → P (op t)) (h : P s) :
    P (impliedInstr n op s) := K.add _ (hop _ (K.movePc _ h))

theorem branchInstr {b : Bool} {o : Byte} {s : State} (h : P s) : P (branchInstr b o s) := K.add _ (K.reg s _ h)

theorem breakException {s : State} (h : P s) : P (breakException s) :=
  K.add _ (K.reg _ _ (K.readPair (K.reg _ _ (K.push (K.push (K.push (K.movePc _ h)))))))

theorem returnFromException {s : State} (h : P s) : P (returnFromException s) :=
  K.reg _ _ (K.pull (K.pull (K.reg _ _ (K.pull h))))

theorem interruptEntry {s : State} (hline : ∀ s, P s → P (s.setIntLine false)) (h : P s) : P (interruptEntry s) :=
  K.add _ (K.reg _ _ (K.readPair (hline _ (K.reg _ _ (K.push (K.push (K.push h)))))))

/-- EVERY INSTRUCTION KEEPS WHAT THE ELEMENTARY OPERATIONS KEEP. -/
theorem exec {i : Instr} {s t : State} (he : exec i s = .next t) (h : P s) : P t := by
  cases i
  case ldaImm | ldaZp | ldaZpx | ldaAbs | ldaAbx | ldaAby | ldaIzx | ldaIzy | ldxImm | ldxZp | ldxZpy | ldxAbs |
      ldxAby | ldyImm | ldyZp | ldyZpx | ldyAbs | ldyAbx | andImm | andZp | andZpx | andAbs | andAbx | andAby |
      andIzx | andIzy | oraImm | oraZp | oraZpx | oraAbs | oraAbx | oraAby | oraIzx | oraIzy | eorImm | eorZp |
      eorZpx | eorAbs | eorAbx | eorAby | eorIzx | eorIzy | bitZp | bitAbs | adcImm | adcZp | adcZpx | adcAbs |
      adcAbx | adcAby | adcIzx | adcIzy | sbcImm | sbcZp | sbcZpx | sbcAbs | sbcAbx | sbcAby | sbcIzx | sbcIzy |
      cmpImm | cmpZp | cmpZpx | cmpAbs | cmpAbx | cmpAby | cmpIzx | cmpIzy | cpxImm | cpxZp | cpxAbs | cpyImm |
      cpyZp | cpyAbs =>
    injection he with he; subst he; exact K.readInstr (fun _ t h => K.reg t _ h) h
  case staZp | staZpx | staAbs | staAbx | staAby | staIzx | staIzy | stxZp | stxZpy | stxAbs | styZp | styZpx |
      styAbs =>
    injection he with he; subst he; exact K.storeInstr h
  case incZp | incZpx | incAbs | incAbx | decZp | decZpx | decAbs | decAbx | aslZp | aslZpx | aslAbs | aslAbx |
      lsrZp | lsrZpx | lsrAbs | lsrAbx | rolZp | rolZpx | rolAbs | rolAbx | rorZp | rorZpx | rorAbs |
      rorAbx =>
    injection he with he; subst he; exact K.rmwInstr h
  case tax | tay | txa | tya | tsx | txs | inx | iny | dex | dey | clc | sec | cli | sei | clv | cld | sed | aslAcc |
      lsrAcc | rolAcc |
      rorAcc =>
    injection he with he; subst he; exact K.impliedInstr (fun t h => K.reg t _ h) h
  case bpl | bmi | bvc | bvs | bcc | bcs | bne | beq =>
    injection he with he; subst he; exact K.branchInstr h
  case nop =>
    injection he with he; subst he; exact K.impliedInstr (fun _ h => h) h
  case pha | php =>
    injection he with he; subst he; exact K.impliedInstr (fun _ h => K.push h) h
  case pla |
      plp =>
    injection he with he; subst he; exact K.impliedInstr (fun t h => K.reg (Machine.pull t).state _ (K.pull h)) h
  case jmpAbs =>
    injection he with he; subst he; exact K.add _ (K.reg s _ h)
  case jmpInd =>
    injection he with he; subst he; exact K.add _ (K.reg _ _ (K.readPair (K.movePc _ h)))
  case jsr =>
    injection he with he; subst he; exact K.add _ (K.reg _ _ (K.push (K.push (K.movePc _ h))))
  case rts =>
    injection he with he; subst he; exact K.impliedInstr (fun _ h => K.reg _ _ (K.pull (K.pull h))) h
  case brk =>
    injection he with he; subst he; exact K.breakException h
  case rti =>
    injection he with he; subst he; exact K.impliedInstr (fun _ h => K.returnFromException h) h

end Kept

/-! ## The host's calls -/

/-- What every host call keeps, and the change of the queue itself, the calls of a boundary keep. -/
theorem takeHostCalls_keeps {P : State → Prop} (hc : ∀ c s, P s → P (hostCall c s))
    (hq : ∀ s l, P s → P { s with hostCalls := l }) {s : State} (h : P s) : P (takeHostCalls s) := by
  have all : ∀ cs s, P s → P (hostCallsOf cs s) := by
    intro cs
    induction cs with
    | nil => exact fun s h => h
    | cons c rest ih => exact fun s h => ih _ (hc c s h)
  unfold takeHostCalls
  split
  · exact h
  · exact all _ _ (hq _ _ h)

/-! ## The inversion of a step -/

/-- The two ways a step gives a next state: the interrupt entry, or one fetched instruction; the units' ticks follow. -/
theorem step_next {s s' : State} (h : step s = .next s') :
    s.cpu.fault = none ∧
      ((interruptTaken (takeHostCalls s) = true ∧
          s' = tickUnits Config.intCycles (interruptEntry (takeHostCalls s))) ∨
        (interruptTaken (takeHostCalls s) = false ∧
          ∃ i t u, fetch (takeHostCalls s) = .instr i t ∧ exec i t = .next u ∧
            s' = tickUnits (u.cpu.cyc - t.cpu.cyc) u)) := by
  unfold step at h
  split at h
  · simp at h
  · rename_i hf
    refine ⟨hf, ?_⟩
    unfold advance at h
    split at h
    · rename_i hi
      injection h with h
      exact .inl ⟨hi, h.symm⟩
    · rename_i hi
      refine .inr ⟨by simpa using hi, ?_⟩
      split at h
      · simp at h
      · rename_i i t hfe
        split at h
        · rename_i u hu
          injection h with h
          exact ⟨i, t, u, hfe, hu, h.symm⟩
        · simp at h
        · simp at h

/-- A step keeps what bus accesses, register changes, an acknowledged line, host calls and the units' ticks keep. -/
theorem step_keeps {P : State → Prop} (K : Kept P) (hline : ∀ s, P s → P (s.setIntLine false))
    (hhost : ∀ s, P s → P (takeHostCalls s)) (htick : ∀ n s, P s → P (tickUnits n s)) {s s' : State}
    (h : step s = .next s') (hs : P s) : P s' := by
  obtain ⟨_, ⟨_, rfl⟩ | ⟨_, i, t, u, hf, he, rfl⟩⟩ := step_next h
  · exact htick _ _ (K.interruptEntry hline (hhost _ hs))
  · refine htick _ _ (K.exec he ?_)
    obtain ⟨sh, _, rfl⟩ := fetch_instr hf
    have hb : ∀ (n : Nat) (a : Word) (s : State), P s → P (readBytes n a s).state := by
      intro n
      induction n with
      | zero => exact fun a s h => h
      | succ n ih => exact fun a s h => ih _ _ (K.read _ _ h)
    exact hb _ _ _ (K.read _ _ (hhost _ hs))

/-- What a step raising a fault says: the machine was faulted, or it fetched an illegal opcode byte. -/
theorem step_fault {s : State} {f : Fault} (h : step s = .fault f) :
    (∃ r, s.cpu.fault = some r ∧ f = .decodeError r.opcode r.address s) ∨
      (s.cpu.fault = none ∧ interruptTaken (takeHostCalls s) = false ∧
        ((∃ op t, fetch (takeHostCalls s) = .illegal op t ∧
            f = .decodeError op s.cpu.pc (raiseDecodeError op t)) ∨
          ∃ i t, fetch (takeHostCalls s) = .instr i t ∧ exec i t = .fault f)) := by
  unfold step at h
  split at h
  · rename_i r hr
    injection h with h
    exact .inl ⟨r, hr, h.symm⟩
  · rename_i hf
    refine .inr ⟨hf, ?_⟩
    unfold advance at h
    split at h
    · simp at h
    · rename_i hi
      refine ⟨by simpa using hi, ?_⟩
      split at h
      · rename_i op t ho
        injection h with h
        refine .inl ⟨op, t, ho, ?_⟩
        rw [← h]; simp
      · rename_i i t hfe
        split at h
        · simp at h
        · rename_i r hr
          injection h with h
          exact .inr ⟨i, t, hfe, by rw [hr, h]⟩
        · simp at h

end Sys2Proof.Machine
end

