-- ==== Sys2Proof/Tests/Slice0.lean ====
section
/-! SUPPORT. The model's own tests: the well-formedness checks on ill-formed terms; the decoding of a word of every constructor,
written out from `spec/opcode_table.json`; single steps whose expected results are the vectors of `spec/95_test_vectors.md`
(each test names its vector); and, for every statement that has hypotheses, a state and operands that meet them. -/

namespace Sys2Proof.Tests

-- One test after the other: each waits for the kernel, and waiting tests in parallel would each hold a thread.
set_option Elab.async false

open Sys2Proof.Machine Sys2Proof.Claims

/-! ## Well-formedness -/

/-- D33: SAMPLE_DIV is at least 1. -/
theorem test_wf_refuses_sample_div_0 : Cfg.wf { Cfg.default with sampleDiv := 0 } = false := by decide
/-- D21: VBL_DOT is 0 or 1. -/
theorem test_wf_refuses_vbl_dot_2 : Cfg.wf { Cfg.default with vblDot := 2 } = false := by decide
theorem test_wf_accepts_vbl_dot_1 : Cfg.wf { Cfg.default with vblDot := 1 } = true := by decide
theorem test_wf_accepts_default : Cfg.default.wf = true := by decide

/-- A cartridge with 16384 PRG bytes and no CHR, which R440 accepts. -/
def goodCartridge : Cartridge :=
  { mapperId := 0, prg := List.replicate 16384 0xEA, chr := [], mirroring := .vertical }

/-- V12.3: the four refusals of R263. -/
theorem test_wf_refuses_mapper_1 : Cartridge.check { goodCartridge with mapperId := 1 } = some .mapperId := by
  simp [Cartridge.check]
theorem test_wf_refuses_prg_8192 :
    Cartridge.check { goodCartridge with prg := List.replicate 8192 0 } = some .prgSize := by
  unfold Cartridge.check goodCartridge; simp only [List.length_replicate]; rfl
theorem test_wf_refuses_chr_4096 :
    Cartridge.check { goodCartridge with chr := List.replicate 4096 0 } = some .chrSize := by
  unfold Cartridge.check goodCartridge; simp only [List.length_replicate]; rfl
theorem test_wf_refuses_four_screen : Cartridge.check { goodCartridge with mirroring := .fourScreen } = some .mirroring := by
  unfold Cartridge.check goodCartridge; simp only [List.length_replicate]; rfl
theorem test_wf_accepts_16k : Cartridge.wf goodCartridge = true := by
  unfold Cartridge.wf Cartridge.check goodCartridge; simp only [List.length_replicate]; rfl
theorem test_wf_accepts_32k_and_chr :
    Cartridge.wf { goodCartridge with prg := List.replicate 32768 0, chr := List.replicate 8192 0 } = true := by
  unfold Cartridge.wf Cartridge.check goodCartridge; simp only [List.length_replicate]; rfl
/-- Every term of `Instr` is well formed: its fields have no ill-formed value (R101, R261). -/
theorem test_wf_every_instruction (i : Instr) : i.wf = true := rfl

/-! ## Decoding: a word of every constructor, from the opcode table -/

/-- Every listed word decodes to the instruction beside it, with nothing left over. -/
def decodesTo (l : List (List Byte × Instr)) : Bool := l.all fun c => decide (decode c.1 = .ok c.2 [])

/-- ORA: R166, the encodings it lists, with operand bytes 0x34 and 0x12. -/
theorem test_decode_ora : decodesTo
    [([0x01, 0x34], .oraIzx 0x34), ([0x05, 0x34], .oraZp 0x34), ([0x09, 0x34], .oraImm 0x34),
     ([0x0D, 0x34, 0x12], .oraAbs 0x1234), ([0x11, 0x34], .oraIzy 0x34), ([0x15, 0x34], .oraZpx 0x34),
     ([0x19, 0x34, 0x12], .oraAby 0x1234), ([0x1D, 0x34, 0x12], .oraAbx 0x1234)] = true := by decide +kernel

/-- ASL: R187, the encodings it lists, with operand bytes 0x34 and 0x12. -/
theorem test_decode_asl : decodesTo
    [([0x06, 0x34], .aslZp 0x34), ([0x0A], .aslAcc), ([0x0E, 0x34, 0x12], .aslAbs 0x1234),
     ([0x16, 0x34], .aslZpx 0x34), ([0x1E, 0x34, 0x12], .aslAbx 0x1234)] = true := by decide +kernel

/-- JSR: R198, the encodings it lists, with operand bytes 0x34 and 0x12. -/
theorem test_decode_jsr : decodesTo
    [([0x20, 0x34, 0x12], .jsr 0x1234)] = true := by decide +kernel

/-- AND: R165, the encodings it lists, with operand bytes 0x34 and 0x12. -/
theorem test_decode_and : decodesTo
    [([0x21, 0x34], .andIzx 0x34), ([0x25, 0x34], .andZp 0x34), ([0x29, 0x34], .andImm 0x34),
     ([0x2D, 0x34, 0x12], .andAbs 0x1234), ([0x31, 0x34], .andIzy 0x34), ([0x35, 0x34], .andZpx 0x34),
     ([0x39, 0x34, 0x12], .andAby 0x1234), ([0x3D, 0x34, 0x12], .andAbx 0x1234)] = true := by decide +kernel

/-- BIT: R168, the encodings it lists, with operand bytes 0x34 and 0x12. -/
theorem test_decode_bit : decodesTo
    [([0x24, 0x34], .bitZp 0x34), ([0x2C, 0x34, 0x12], .bitAbs 0x1234)] = true := by decide +kernel

/-- ROL: R189, the encodings it lists, with operand bytes 0x34 and 0x12. -/
theorem test_decode_rol : decodesTo
    [([0x26, 0x34], .rolZp 0x34), ([0x2A], .rolAcc), ([0x2E, 0x34, 0x12], .rolAbs 0x1234),
     ([0x36, 0x34], .rolZpx 0x34), ([0x3E, 0x34, 0x12], .rolAbx 0x1234)] = true := by decide +kernel

/-- EOR: R167, the encodings it lists, with operand bytes 0x34 and 0x12. -/
theorem test_decode_eor : decodesTo
    [([0x41, 0x34], .eorIzx 0x34), ([0x45, 0x34], .eorZp 0x34), ([0x49, 0x34], .eorImm 0x34),
     ([0x4D, 0x34, 0x12], .eorAbs 0x1234), ([0x51, 0x34], .eorIzy 0x34), ([0x55, 0x34], .eorZpx 0x34),
     ([0x59, 0x34, 0x12], .eorAby 0x1234), ([0x5D, 0x34, 0x12], .eorAbx 0x1234)] = true := by decide +kernel

/-- LSR: R188, the encodings it lists, with operand bytes 0x34 and 0x12. -/
theorem test_decode_lsr : decodesTo
    [([0x46, 0x34], .lsrZp 0x34), ([0x4A], .lsrAcc), ([0x4E, 0x34, 0x12], .lsrAbs 0x1234),
     ([0x56, 0x34], .lsrZpx 0x34), ([0x5E, 0x34, 0x12], .lsrAbx 0x1234)] = true := by decide +kernel

/-- JMP: R197, the encodings it lists, with operand bytes 0x34 and 0x12. -/
theorem test_decode_jmp : decodesTo
    [([0x4C, 0x34, 0x12], .jmpAbs 0x1234), ([0x6C, 0x34, 0x12], .jmpInd 0x1234)] = true := by decide +kernel

/-- ADC: R169, the encodings it lists, with operand bytes 0x34 and 0x12. -/
theorem test_decode_adc : decodesTo
    [([0x61, 0x34], .adcIzx 0x34), ([0x65, 0x34], .adcZp 0x34), ([0x69, 0x34], .adcImm 0x34),
     ([0x6D, 0x34, 0x12], .adcAbs 0x1234), ([0x71, 0x34], .adcIzy 0x34), ([0x75, 0x34], .adcZpx 0x34),
     ([0x79, 0x34, 0x12], .adcAby 0x1234), ([0x7D, 0x34, 0x12], .adcAbx 0x1234)] = true := by decide +kernel

/-- ROR: R190, the encodings it lists, with operand bytes 0x34 and 0x12. -/
theorem test_decode_ror : decodesTo
    [([0x66, 0x34], .rorZp 0x34), ([0x6A], .rorAcc), ([0x6E, 0x34, 0x12], .rorAbs 0x1234),
     ([0x76, 0x34], .rorZpx 0x34), ([0x7E, 0x34, 0x12], .rorAbx 0x1234)] = true := by decide +kernel

/-- STA: R144, the encodings it lists, with operand bytes 0x34 and 0x12. -/
theorem test_decode_sta : decodesTo
    [([0x81, 0x34], .staIzx 0x34), ([0x85, 0x34], .staZp 0x34), ([0x8D, 0x34, 0x12], .staAbs 0x1234),
     ([0x91, 0x34], .staIzy 0x34), ([0x95, 0x34], .staZpx 0x34), ([0x99, 0x34, 0x12], .staAby 0x1234),
     ([0x9D, 0x34, 0x12], .staAbx 0x1234)] = true := by decide +kernel

/-- STY: R146, the encodings it lists, with operand bytes 0x34 and 0x12. -/
theorem test_decode_sty : decodesTo
    [([0x84, 0x34], .styZp 0x34), ([0x8C, 0x34, 0x12], .styAbs 0x1234), ([0x94, 0x34], .styZpx 0x34)] = true := by decide +kernel

/-- STX: R145, the encodings it lists, with operand bytes 0x34 and 0x12. -/
theorem test_decode_stx : decodesTo
    [([0x86, 0x34], .stxZp 0x34), ([0x8E, 0x34, 0x12], .stxAbs 0x1234), ([0x96, 0x34], .stxZpy 0x34)] = true := by decide +kernel

/-- LDY: R143, the encodings it lists, with operand bytes 0x34 and 0x12. -/
theorem test_decode_ldy : decodesTo
    [([0xA0, 0x34], .ldyImm 0x34), ([0xA4, 0x34], .ldyZp 0x34), ([0xAC, 0x34, 0x12], .ldyAbs 0x1234),
     ([0xB4, 0x34], .ldyZpx 0x34), ([0xBC, 0x34, 0x12], .ldyAbx 0x1234)] = true := by decide +kernel

/-- LDA: R141, the encodings it lists, with operand bytes 0x34 and 0x12. -/
theorem test_decode_lda : decodesTo
    [([0xA1, 0x34], .ldaIzx 0x34), ([0xA5, 0x34], .ldaZp 0x34), ([0xA9, 0x34], .ldaImm 0x34),
     ([0xAD, 0x34, 0x12], .ldaAbs 0x1234), ([0xB1, 0x34], .ldaIzy 0x34), ([0xB5, 0x34], .ldaZpx 0x34),
     ([0xB9, 0x34, 0x12], .ldaAby 0x1234), ([0xBD, 0x34, 0x12], .ldaAbx 0x1234)] = true := by decide +kernel

/-- LDX: R142, the encodings it lists, with operand bytes 0x34 and 0x12. -/
theorem test_decode_ldx : decodesTo
    [([0xA2, 0x34], .ldxImm 0x34), ([0xA6, 0x34], .ldxZp 0x34), ([0xAE, 0x34, 0x12], .ldxAbs 0x1234),
     ([0xB6, 0x34], .ldxZpy 0x34), ([0xBE, 0x34, 0x12], .ldxAby 0x1234)] = true := by decide +kernel

/-- CPY: R173, the encodings it lists, with operand bytes 0x34 and 0x12. -/
theorem test_decode_cpy : decodesTo
    [([0xC0, 0x34], .cpyImm 0x34), ([0xC4, 0x34], .cpyZp 0x34), ([0xCC, 0x34, 0x12], .cpyAbs 0x1234)] = true := by decide +kernel

/-- CMP: R171, the encodings it lists, with operand bytes 0x34 and 0x12. -/
theorem test_decode_cmp : decodesTo
    [([0xC1, 0x34], .cmpIzx 0x34), ([0xC5, 0x34], .cmpZp 0x34), ([0xC9, 0x34], .cmpImm 0x34),
     ([0xCD, 0x34, 0x12], .cmpAbs 0x1234), ([0xD1, 0x34], .cmpIzy 0x34), ([0xD5, 0x34], .cmpZpx 0x34),
     ([0xD9, 0x34, 0x12], .cmpAby 0x1234), ([0xDD, 0x34, 0x12], .cmpAbx 0x1234)] = true := by decide +kernel

/-- DEC: R184, the encodings it lists, with operand bytes 0x34 and 0x12. -/
theorem test_decode_dec : decodesTo
    [([0xC6, 0x34], .decZp 0x34), ([0xCE, 0x34, 0x12], .decAbs 0x1234), ([0xD6, 0x34], .decZpx 0x34),
     ([0xDE, 0x34, 0x12], .decAbx 0x1234)] = true := by decide +kernel

/-- CPX: R172, the encodings it lists, with operand bytes 0x34 and 0x12. -/
theorem test_decode_cpx : decodesTo
    [([0xE0, 0x34], .cpxImm 0x34), ([0xE4, 0x34], .cpxZp 0x34), ([0xEC, 0x34, 0x12], .cpxAbs 0x1234)] = true := by decide +kernel

/-- SBC: R170, the encodings it lists, with operand bytes 0x34 and 0x12. -/
theorem test_decode_sbc : decodesTo
    [([0xE1, 0x34], .sbcIzx 0x34), ([0xE5, 0x34], .sbcZp 0x34), ([0xE9, 0x34], .sbcImm 0x34),
     ([0xED, 0x34, 0x12], .sbcAbs 0x1234), ([0xF1, 0x34], .sbcIzy 0x34), ([0xF5, 0x34], .sbcZpx 0x34),
     ([0xF9, 0x34, 0x12], .sbcAby 0x1234), ([0xFD, 0x34, 0x12], .sbcAbx 0x1234)] = true := by decide +kernel

/-- INC: R181, the encodings it lists, with operand bytes 0x34 and 0x12. -/
theorem test_decode_inc : decodesTo
    [([0xE6, 0x34], .incZp 0x34), ([0xEE, 0x34, 0x12], .incAbs 0x1234), ([0xF6, 0x34], .incZpx 0x34),
     ([0xFE, 0x34, 0x12], .incAbx 0x1234)] = true := by decide +kernel

/-- The one-byte instructions that have one encoding (R151 to R160, R182 to R186, R199, R217 to R226). -/
theorem test_decode_one_byte : decodesTo
    [([0x00], .brk), ([0x08], .php), ([0x18], .clc), ([0x28], .plp), ([0x38], .sec), ([0x40], .rti),
     ([0x48], .pha), ([0x58], .cli), ([0x60], .rts), ([0x68], .pla), ([0x78], .sei), ([0x88], .dey),
     ([0x8A], .txa), ([0x98], .tya), ([0x9A], .txs), ([0xA8], .tay), ([0xAA], .tax), ([0xB8], .clv),
     ([0xBA], .tsx), ([0xC8], .iny), ([0xCA], .dex), ([0xD8], .cld), ([0xE8], .inx), ([0xEA], .nop),
     ([0xF8], .sed)] = true := by decide +kernel

/-- The branches (R201 to R208). -/
theorem test_decode_branches : decodesTo
    [([0x10, 0x34], .bpl 0x34), ([0x30, 0x34], .bmi 0x34), ([0x50, 0x34], .bvc 0x34),
     ([0x70, 0x34], .bvs 0x34), ([0x90, 0x34], .bcc 0x34), ([0xB0, 0x34], .bcs 0x34),
     ([0xD0, 0x34], .bne 0x34), ([0xF0, 0x34], .beq 0x34)] = true := by decide +kernel

/-- R112: a byte that is no opcode, and an operand byte missing. -/
theorem test_decode_refuses :
    decode [0x02, 0x00] = .reject (.illegalOpcode 0x02) ∧ decode [0xAD, 0x34] = .reject (.missingOperand 0xAD) ∧
      decode [] = .reject .noBytes := by decide

/-- Bits numbered as the opcode table numbers them; the bits the table does not give are 0. -/
theorem test_decode_table_word :
    decodeTableWord 8 0xA9 = some (.ldaImm 0) ∧ decodeTableWord 24 0x1234AD = some (.ldaAbs 0x1234) ∧
      decodeTableWord 8 0x02 = none := by decide

/-! ## Single steps -/

/-- The CPU at power-on with `PC` at the code (95_test_vectors.md, "Conventions"). -/
def base : Cpu := { State.reset.cpu with pc := 0x8000 }

/-- Bytes stored at addresses. -/
def placed (cells : List (Word × Byte)) (s : State) : State := cells.foldl (fun t c => placeByte c.1 c.2 t) s

/-- A machine with a CPU, its code at `PC` and some stored bytes. -/
def machine (code : List Byte) (c : Cpu) (cells : List (Word × Byte)) : State :=
  placed cells (placeBytes code c.pc { State.reset with cpu := c })

/-- The state after one step. -/
def after (s : State) : Option State :=
  match step s with
  | .next t => some t
  | .fault _ => none
  | .refused _ => none

/-- One step gives that CPU and leaves those bytes stored. -/
def runs (code : List Byte) (c : Cpu) (cells : List (Word × Byte)) (c' : Cpu) (stored : List (Word × Byte)) : Bool :=
  match after (machine code c cells) with
  | some t => decide (t.cpu = c') && stored.all fun k => storedByte t k.1 == some k.2
  | none => false

/-- `withFetchWord` makes the very next step run the instruction: NOP, a load and JSR as the first instruction after reset. -/
theorem test_with_fetch_word_runs_first :
    ((after (State.reset.withFetchWord 8 0xEA)).map fun t => (t.cpu.pc, t.cpu.cyc)) = some (0x0001, 2) ∧
      ((after (State.reset.withFetchWord 16 0x5AA9)).map fun t => (t.cpu.a, t.cpu.pc)) = some (0x5A, 0x0002) ∧
      ((after (State.reset.withFetchWord 24 0x123420)).map fun t => (t.cpu.pc, t.cpu.sp)) = some (0x1234, 0xFB) := by
  decide +kernel

/-- `withFetchWord` changes no register: `PC` of the reset state lies in storage already. -/
theorem test_with_fetch_word_keeps_cpu : (State.reset.withFetchWord 8 0xEA).cpu = State.reset.cpu := by decide +kernel

/-- V1.6: `LDA $12FF,X`. -/
theorem test_V1_6_lda :
    runs [0xBD, 0xFF, 0x12] { base with x := 0x01 } [(0x0300, 0x22)]
      { base with pc := 0x8003, x := 0x01, a := 0x22, cyc := 5 } [] = true := by decide +kernel

/-- V1.8: `LDA ($FF,X)`. -/
theorem test_V1_8_lda :
    runs [0xA1, 0xFF] { base with x := 0x00 } [(0x00FF, 0x34), (0x0000, 0x02), (0x0234, 0x24)]
      { base with pc := 0x8002, x := 0x00, a := 0x24, cyc := 6 } [] = true := by decide +kernel

/-- V1.11: `LDX $10,Y`. -/
theorem test_V1_11_ldx :
    runs [0xB6, 0x10] { base with y := 0xFF } [(0x000F, 0x80)]
      { base with pc := 0x8002, y := 0xFF, x := 0x80, flags := { Flags.reset with n := true }, cyc := 4 }
      [] = true := by decide +kernel

/-- V1.12: `LDX $12FF,Y`. -/
theorem test_V1_12_ldx :
    runs [0xBE, 0xFF, 0x12] { base with x := 0x55, y := 0x01 } [(0x0300, 0x00)]
      { base with pc := 0x8003, x := 0x00, y := 0x01, flags := { Flags.reset with z := true }, cyc := 5 }
      [] = true := by decide +kernel

/-- V1.13: `LDY $1280,X`. -/
theorem test_V1_13_ldy :
    runs [0xBC, 0x80, 0x12] { base with x := 0x80 } [(0x0300, 0x7E)]
      { base with pc := 0x8003, x := 0x80, y := 0x7E, cyc := 5 } [] = true := by decide +kernel

/-- V1.14: `STA $0800`. -/
theorem test_V1_14_sta :
    runs [0x8D, 0x00, 0x08] { base with a := 0x42 } [] { base with pc := 0x8003, a := 0x42, cyc := 4 }
      [(0x0000, 0x42)] = true := by decide +kernel

/-- V1.17: `STA ($20),Y`. -/
theorem test_V1_17_sta :
    runs [0x91, 0x20] { base with a := 0x45, y := 0x01 } [(0x0020, 0x00), (0x0021, 0x03)]
      { base with pc := 0x8002, a := 0x45, y := 0x01, cyc := 6 } [(0x0301, 0x45)] = true := by decide +kernel

/-- V1.19: `STX $FF,Y`. -/
theorem test_V1_19_stx :
    runs [0x96, 0xFF] { base with x := 0x33, y := 0x02 } [] { base with pc := 0x8002, x := 0x33, y := 0x02, cyc := 4 }
      [(0x0001, 0x33)] = true := by decide +kernel

/-- V1.20: `STY $10,X`. -/
theorem test_V1_20_sty :
    runs [0x94, 0x10] { base with y := 0x80, x := 0x05 } [] { base with pc := 0x8002, y := 0x80, x := 0x05, cyc := 4 }
      [(0x0015, 0x80)] = true := by decide +kernel

/-- V2.1: `TAX`. -/
theorem test_V2_1_tax :
    runs [0xAA] { base with a := 0x00, x := 0x55 } []
      { base with pc := 0x8001, a := 0x00, x := 0x00, flags := { Flags.reset with z := true }, cyc := 2 }
      [] = true := by decide +kernel

/-- V2.2: `TAY`. -/
theorem test_V2_2_tay :
    runs [0xA8] { base with a := 0x80 } []
      { base with pc := 0x8001, a := 0x80, y := 0x80, flags := { Flags.reset with n := true }, cyc := 2 }
      [] = true := by decide +kernel

/-- V2.3: `TXA`. -/
theorem test_V2_3_txa :
    runs [0x8A] { base with x := 0x7F, a := 0x80, flags := { Flags.reset with n := true } } []
      { base with pc := 0x8001, x := 0x7F, a := 0x7F, flags := { Flags.reset with n := false }, cyc := 2 }
      [] = true := by decide +kernel

/-- V2.4: `TYA`. -/
theorem test_V2_4_tya :
    runs [0x98] { base with y := 0xFF } []
      { base with pc := 0x8001, y := 0xFF, a := 0xFF, flags := { Flags.reset with n := true }, cyc := 2 }
      [] = true := by decide +kernel

/-- V2.5: `TSX`. -/
theorem test_V2_5_tsx :
    runs [0xBA] base [] { base with pc := 0x8001, x := 0xFD, flags := { Flags.reset with n := true }, cyc := 2 }
      [] = true := by decide +kernel

/-- V2.6: `TXS`. -/
theorem test_V2_6_txs :
    runs [0x9A] { base with x := 0x00 } []
      { base with pc := 0x8001, x := 0x00, sp := 0x00, flags := { Flags.reset with n := false, z := false }, cyc := 2 }
      [] = true := by decide +kernel

/-- V2.8: `PHA`. -/
theorem test_V2_8_pha :
    runs [0x48] { base with a := 0x5B, sp := 0x00 } [] { base with pc := 0x8001, a := 0x5B, sp := 0xFF, cyc := 3 }
      [(0x0100, 0x5B)] = true := by decide +kernel

/-- V2.9: `PLA`. -/
theorem test_V2_9_pla :
    runs [0x68] { base with sp := 0xFF } [(0x0100, 0x80)]
      { base with pc := 0x8001, sp := 0x00, a := 0x80, flags := { Flags.reset with n := true }, cyc := 4 }
      [] = true := by decide +kernel

/-- V2.11: `PHP`. -/
theorem test_V2_11_php :
    runs [0x08] { base with flags := { Flags.reset with n := true, v := true, d := true, i := true, z := true, c := true } }
      []
      { base with pc := 0x8001, sp := 0xFC, flags := { Flags.reset with n := true, v := true, d := true, i := true, z := true, c := true }, cyc := 3 }
      [(0x01FD, 0xFF)] = true := by decide +kernel

/-- V2.12: `PHP`. -/
theorem test_V2_12_php :
    runs [0x08] { base with flags := { Flags.reset with i := false } } []
      { base with pc := 0x8001, sp := 0xFC, flags := { Flags.reset with i := false }, cyc := 3 }
      [(0x01FD, 0x30)] = true := by decide +kernel

/-- V2.13: `PLP`. -/
theorem test_V2_13_plp :
    runs [0x28] { base with sp := 0xFC, flags := { Flags.reset with i := false } } [(0x01FD, 0xFF)]
      { base with pc := 0x8001, sp := 0xFD, flags := { Flags.reset with i := true, n := true, v := true, d := true, z := true, c := true }, cyc := 4 }
      [] = true := by decide +kernel

/-- V2.14: `PLP`. -/
theorem test_V2_14_plp :
    runs [0x28] { base with sp := 0xFC, flags := { Flags.reset with n := true, c := true } } [(0x01FD, 0x00)]
      { base with pc := 0x8001, sp := 0xFD, flags := { Flags.reset with n := false, c := false, i := false }, cyc := 4 }
      [] = true := by decide +kernel

/-- V3.1: `AND #$0F`. -/
theorem test_V3_1_and :
    runs [0x29, 0x0F] { base with a := 0xF0 } []
      { base with pc := 0x8002, a := 0x00, flags := { Flags.reset with z := true }, cyc := 2 }
      [] = true := by decide +kernel

/-- V3.2: `ORA $10`. -/
theorem test_V3_2_ora :
    runs [0x05, 0x10] { base with a := 0x01 } [(0x0010, 0x80)]
      { base with pc := 0x8002, a := 0x81, flags := { Flags.reset with n := true }, cyc := 3 }
      [] = true := by decide +kernel

/-- V3.4: `EOR ($10,X)`. -/
theorem test_V3_4_eor :
    runs [0x41, 0x10] { base with a := 0x0F, x := 0x02 } [(0x0012, 0x00), (0x0013, 0x03), (0x0300, 0xF0)]
      { base with pc := 0x8002, a := 0xFF, x := 0x02, flags := { Flags.reset with n := true }, cyc := 6 }
      [] = true := by decide +kernel

/-- V3.5: `BIT $10`. -/
theorem test_V3_5_bit :
    runs [0x24, 0x10] { base with a := 0x01 } [(0x0010, 0xC0)]
      { base with pc := 0x8002, a := 0x01, flags := { Flags.reset with n := true, v := true, z := true }, cyc := 3 }
      [] = true := by decide +kernel

/-- V3.6: `BIT $0010`. -/
theorem test_V3_6_bit :
    runs [0x2C, 0x10, 0x00] { base with a := 0xFF, flags := { Flags.reset with n := true, v := true } }
      [(0x0010, 0x3F)]
      { base with pc := 0x8003, a := 0xFF, flags := { Flags.reset with n := false, v := false }, cyc := 4 }
      [] = true := by decide +kernel

/-- V3.9: `ADC #$00`. -/
theorem test_V3_9_adc :
    runs [0x69, 0x00] { base with a := 0x7F, flags := { Flags.reset with c := true } } []
      { base with pc := 0x8002, a := 0x80, flags := { Flags.reset with c := false, n := true, v := true }, cyc := 2 }
      [] = true := by decide +kernel

/-- V3.12: `ADC $12FF,X`. -/
theorem test_V3_12_adc :
    runs [0x7D, 0xFF, 0x12] { base with a := 0x01, x := 0x01 } [(0x0300, 0x02)]
      { base with pc := 0x8003, a := 0x03, x := 0x01, cyc := 5 } [] = true := by decide +kernel

/-- V3.14: `SBC #$B0`. -/
theorem test_V3_14_sbc :
    runs [0xE9, 0xB0] { base with a := 0x50, flags := { Flags.reset with c := true } } []
      { base with pc := 0x8002, a := 0xA0, flags := { Flags.reset with c := false, n := true, v := true }, cyc := 2 }
      [] = true := by decide +kernel

/-- V3.15: `SBC #$00`. -/
theorem test_V3_15_sbc :
    runs [0xE9, 0x00] { base with a := 0x00, flags := { Flags.reset with c := false } } []
      { base with pc := 0x8002, a := 0xFF, flags := { Flags.reset with c := false, n := true }, cyc := 2 }
      [] = true := by decide +kernel

/-- V3.20: `CMP #$41`. -/
theorem test_V3_20_cmp :
    runs [0xC9, 0x41] { base with a := 0x40 } []
      { base with pc := 0x8002, a := 0x40, flags := { Flags.reset with n := true }, cyc := 2 }
      [] = true := by decide +kernel

/-- V3.21: `CMP #$00`. -/
theorem test_V3_21_cmp :
    runs [0xC9, 0x00] { base with a := 0x80 } []
      { base with pc := 0x8002, a := 0x80, flags := { Flags.reset with n := true, c := true }, cyc := 2 }
      [] = true := by decide +kernel

/-- V3.23: `CPX $10`. -/
theorem test_V3_23_cpx :
    runs [0xE4, 0x10] { base with x := 0x05 } [(0x0010, 0x04)]
      { base with pc := 0x8002, x := 0x05, flags := { Flags.reset with c := true }, cyc := 3 }
      [] = true := by decide +kernel

/-- V3.24: `CPY #$FF`. -/
theorem test_V3_24_cpy :
    runs [0xC0, 0xFF] { base with y := 0x00, flags := { Flags.reset with c := true, z := true, n := true } } []
      { base with pc := 0x8002, y := 0x00, flags := { Flags.reset with c := false, z := false, n := false }, cyc := 2 }
      [] = true := by decide +kernel

/-- V4.2: `INC $1200,X`. -/
theorem test_V4_2_inc :
    runs [0xFE, 0x00, 0x12] { base with x := 0x01 } [(0x0201, 0x7F)]
      { base with pc := 0x8003, x := 0x01, flags := { Flags.reset with n := true }, cyc := 7 }
      [(0x0201, 0x80)] = true := by decide +kernel

/-- V4.3: `DEC $10`. -/
theorem test_V4_3_dec :
    runs [0xC6, 0x10] base [(0x0010, 0x00)]
      { base with pc := 0x8002, flags := { Flags.reset with n := true }, cyc := 5 }
      [(0x0010, 0xFF)] = true := by decide +kernel

/-- V4.5: `INX`. -/
theorem test_V4_5_inx :
    runs [0xE8] { base with x := 0xFF } []
      { base with pc := 0x8001, x := 0x00, flags := { Flags.reset with z := true }, cyc := 2 }
      [] = true := by decide +kernel

/-- V4.6: `INY`. -/
theorem test_V4_6_iny :
    runs [0xC8] { base with y := 0x7F } []
      { base with pc := 0x8001, y := 0x80, flags := { Flags.reset with n := true }, cyc := 2 }
      [] = true := by decide +kernel

/-- V4.7: `DEX`. -/
theorem test_V4_7_dex :
    runs [0xCA] { base with x := 0x00 } []
      { base with pc := 0x8001, x := 0xFF, flags := { Flags.reset with n := true }, cyc := 2 }
      [] = true := by decide +kernel

/-- V4.8: `DEY`. -/
theorem test_V4_8_dey :
    runs [0x88] { base with y := 0x01 } []
      { base with pc := 0x8001, y := 0x00, flags := { Flags.reset with z := true }, cyc := 2 }
      [] = true := by decide +kernel

/-- V4.9: `ASL A`. -/
theorem test_V4_9_asl :
    runs [0x0A] { base with a := 0x80 } []
      { base with pc := 0x8001, a := 0x00, flags := { Flags.reset with z := true, c := true }, cyc := 2 }
      [] = true := by decide +kernel

/-- V4.10: `ASL $10,X`. -/
theorem test_V4_10_asl :
    runs [0x16, 0x10] { base with x := 0x01 } [(0x0011, 0x41)]
      { base with pc := 0x8002, x := 0x01, flags := { Flags.reset with n := true }, cyc := 6 }
      [(0x0011, 0x82)] = true := by decide +kernel

/-- V4.11: `LSR A`. -/
theorem test_V4_11_lsr :
    runs [0x4A] { base with a := 0x01, flags := { Flags.reset with n := true } } []
      { base with pc := 0x8001, a := 0x00, flags := { Flags.reset with n := false, z := true, c := true }, cyc := 2 }
      [] = true := by decide +kernel

/-- V4.12: `LSR $0210`. -/
theorem test_V4_12_lsr :
    runs [0x4E, 0x10, 0x02] base [(0x0210, 0xFE)] { base with pc := 0x8003, cyc := 6 }
      [(0x0210, 0x7F)] = true := by decide +kernel

/-- V4.13: `ROL A`. -/
theorem test_V4_13_rol :
    runs [0x2A] { base with a := 0x80, flags := { Flags.reset with c := true } } []
      { base with pc := 0x8001, a := 0x01, flags := { Flags.reset with c := true }, cyc := 2 }
      [] = true := by decide +kernel

/-- V4.14: `ROL $10`. -/
theorem test_V4_14_rol :
    runs [0x26, 0x10] { base with flags := { Flags.reset with c := false } } [(0x0010, 0x40)]
      { base with pc := 0x8002, flags := { Flags.reset with c := false, n := true }, cyc := 5 }
      [(0x0010, 0x80)] = true := by decide +kernel

/-- V4.15: `ROR A`. -/
theorem test_V4_15_ror :
    runs [0x6A] { base with a := 0x01, flags := { Flags.reset with c := true } } []
      { base with pc := 0x8001, a := 0x80, flags := { Flags.reset with c := true, n := true }, cyc := 2 }
      [] = true := by decide +kernel

/-- V4.16: `ROR $1200,X`. -/
theorem test_V4_16_ror :
    runs [0x7E, 0x00, 0x12] { base with x := 0x02, flags := { Flags.reset with c := false } } [(0x0202, 0x01)]
      { base with pc := 0x8003, x := 0x02, flags := { Flags.reset with c := true, z := true }, cyc := 7 }
      [(0x0202, 0x00)] = true := by decide +kernel

/-- V5.1: `JMP $1234`. -/
theorem test_V5_1_jmp :
    runs [0x4C, 0x34, 0x12] base [] { base with pc := 0x1234, cyc := 3 } [] = true := by decide +kernel

/-- V5.3: `JMP ($02FF)`. -/
theorem test_V5_3_jmp :
    runs [0x6C, 0xFF, 0x02] base [(0x02FF, 0x78), (0x0200, 0x56), (0x0300, 0x99)] { base with pc := 0x5678, cyc := 5 }
      [] = true := by decide +kernel

/-- V5.5: `JSR $9000`. -/
theorem test_V5_5_jsr :
    runs [0x20, 0x00, 0x90] { base with sp := 0x00 } [] { base with pc := 0x9000, sp := 0xFE, cyc := 6 }
      [(0x0100, 0x80), (0x01FF, 0x02)] = true := by decide +kernel

/-- V5.7: `RTS`. -/
theorem test_V5_7_rts :
    runs [0x60] { base with sp := 0xFB } [(0x01FC, 0xFF), (0x01FD, 0xFF)]
      { base with pc := 0x0000, sp := 0xFD, cyc := 6 } [] = true := by decide +kernel

/-- V5.8: `BPL $8012`. -/
theorem test_V5_8_bpl :
    runs [0x10, 0x10] { base with flags := { Flags.reset with n := false } } []
      { base with pc := 0x8012, flags := { Flags.reset with n := false }, cyc := 3 } [] = true := by decide +kernel

/-- V5.9: `BPL $8012`. -/
theorem test_V5_9_bpl :
    runs [0x10, 0x10] { base with flags := { Flags.reset with n := true } } []
      { base with pc := 0x8002, flags := { Flags.reset with n := true }, cyc := 2 } [] = true := by decide +kernel

/-- V5.10: `BMI $8012`. -/
theorem test_V5_10_bmi :
    runs [0x30, 0x10] { base with flags := { Flags.reset with n := true } } []
      { base with pc := 0x8012, flags := { Flags.reset with n := true }, cyc := 3 } [] = true := by decide +kernel

/-- V5.11: `BMI $8012`. -/
theorem test_V5_11_bmi :
    runs [0x30, 0x10] { base with flags := { Flags.reset with n := false } } []
      { base with pc := 0x8002, flags := { Flags.reset with n := false }, cyc := 2 } [] = true := by decide +kernel

/-- V5.12: `BVC $8012`. -/
theorem test_V5_12_bvc :
    runs [0x50, 0x10] { base with flags := { Flags.reset with v := false } } []
      { base with pc := 0x8012, flags := { Flags.reset with v := false }, cyc := 3 } [] = true := by decide +kernel

/-- V5.13: `BVC $8012`. -/
theorem test_V5_13_bvc :
    runs [0x50, 0x10] { base with flags := { Flags.reset with v := true } } []
      { base with pc := 0x8002, flags := { Flags.reset with v := true }, cyc := 2 } [] = true := by decide +kernel

/-- V5.14: `BVS $8012`. -/
theorem test_V5_14_bvs :
    runs [0x70, 0x10] { base with flags := { Flags.reset with v := true } } []
      { base with pc := 0x8012, flags := { Flags.reset with v := true }, cyc := 3 } [] = true := by decide +kernel

/-- V5.15: `BVS $8012`. -/
theorem test_V5_15_bvs :
    runs [0x70, 0x10] { base with flags := { Flags.reset with v := false } } []
      { base with pc := 0x8002, flags := { Flags.reset with v := false }, cyc := 2 } [] = true := by decide +kernel

/-- V5.18: `BCS $8012`. -/
theorem test_V5_18_bcs :
    runs [0xB0, 0x10] { base with flags := { Flags.reset with c := true } } []
      { base with pc := 0x8012, flags := { Flags.reset with c := true }, cyc := 3 } [] = true := by decide +kernel

/-- V5.19: `BCS $8012`. -/
theorem test_V5_19_bcs :
    runs [0xB0, 0x10] { base with flags := { Flags.reset with c := false } } []
      { base with pc := 0x8002, flags := { Flags.reset with c := false }, cyc := 2 } [] = true := by decide +kernel

/-- V5.21: `BNE $8012`. -/
theorem test_V5_21_bne :
    runs [0xD0, 0x10] { base with flags := { Flags.reset with z := true } } []
      { base with pc := 0x8002, flags := { Flags.reset with z := true }, cyc := 2 } [] = true := by decide +kernel

/-- V5.23: `BEQ $8012`. -/
theorem test_V5_23_beq :
    runs [0xF0, 0x10] { base with flags := { Flags.reset with z := false } } []
      { base with pc := 0x8002, flags := { Flags.reset with z := false }, cyc := 2 } [] = true := by decide +kernel

/-- V5.25: `BNE $7F82`. -/
theorem test_V5_25_bne :
    runs [0xD0, 0x80] { base with flags := { Flags.reset with z := false } } []
      { base with pc := 0x7F82, flags := { Flags.reset with z := false }, cyc := 4 } [] = true := by decide +kernel

/-- V5.26: `BEQ $8081`. -/
theorem test_V5_26_beq :
    runs [0xF0, 0x7F] { base with flags := { Flags.reset with z := true } } []
      { base with pc := 0x8081, flags := { Flags.reset with z := true }, cyc := 3 } [] = true := by decide +kernel

/-- V5.27: `BCC $8100`. -/
theorem test_V5_27_bcc :
    runs [0x90, 0x02] { base with pc := 0x80FC, flags := { Flags.reset with c := false } } []
      { base with pc := 0x8100, flags := { Flags.reset with c := false }, cyc := 4 } [] = true := by decide +kernel

/-- V5.28: `BCC $8101`. -/
theorem test_V5_28_bcc :
    runs [0x90, 0x01] { base with pc := 0x80FE, flags := { Flags.reset with c := false } } []
      { base with pc := 0x8101, flags := { Flags.reset with c := false }, cyc := 3 } [] = true := by decide +kernel

/-- V6.1: `CLC`. -/
theorem test_V6_1_clc :
    runs [0x18] { base with flags := { Flags.reset with c := true } } []
      { base with pc := 0x8001, flags := { Flags.reset with c := false }, cyc := 2 } [] = true := by decide +kernel

/-- V6.2: `SEC`. -/
theorem test_V6_2_sec :
    runs [0x38] base [] { base with pc := 0x8001, flags := { Flags.reset with c := true }, cyc := 2 }
      [] = true := by decide +kernel

/-- V6.3: `CLI`. -/
theorem test_V6_3_cli :
    runs [0x58] base [] { base with pc := 0x8001, flags := { Flags.reset with i := false }, cyc := 2 }
      [] = true := by decide +kernel

/-- V6.4: `SEI`. -/
theorem test_V6_4_sei :
    runs [0x78] { base with flags := { Flags.reset with i := false } } []
      { base with pc := 0x8001, flags := { Flags.reset with i := true }, cyc := 2 } [] = true := by decide +kernel

/-- V6.5: `CLV`. -/
theorem test_V6_5_clv :
    runs [0xB8] { base with flags := { Flags.reset with v := true } } []
      { base with pc := 0x8001, flags := { Flags.reset with v := false }, cyc := 2 } [] = true := by decide +kernel

/-- V6.6: `CLD`. -/
theorem test_V6_6_cld :
    runs [0xD8] { base with flags := { Flags.reset with d := true } } []
      { base with pc := 0x8001, flags := { Flags.reset with d := false }, cyc := 2 } [] = true := by decide +kernel

/-- V6.7: `SED`. -/
theorem test_V6_7_sed :
    runs [0xF8] base [] { base with pc := 0x8001, flags := { Flags.reset with d := true }, cyc := 2 }
      [] = true := by decide +kernel

/-- V6.8: `NOP`. -/
theorem test_V6_8_nop :
    runs [0xEA] base [] { base with pc := 0x8001, cyc := 2 } [] = true := by decide +kernel

/-- V6.10: `BRK`. -/
theorem test_V6_10_brk :
    runs [0x00] { base with flags := { Flags.reset with i := true, n := true, d := true } }
      [(0xFFFE, 0x00), (0xFFFF, 0x90)]
      { base with pc := 0x9000, sp := 0xFA, flags := { Flags.reset with i := true, n := true, d := true }, cyc := 7 }
      [(0x01FB, 0xBC), (0x01FC, 0x02), (0x01FD, 0x80)] = true := by decide +kernel

/-- V6.12: `RTI`. -/
theorem test_V6_12_rti :
    runs [0x40] { base with sp := 0xFA } [(0x01FB, 0xFF), (0x01FC, 0x00), (0x01FD, 0x80)]
      { base with sp := 0xFD, flags := { Flags.reset with n := true, v := true, d := true, z := true, c := true }, cyc := 6 }
      [] = true := by decide +kernel

/-- V7.1: `LDA $2000`. -/
theorem test_V7_1_lda :
    runs [0xAD, 0x00, 0x20] base [] { base with pc := 0x8003, a := 0x20, cyc := 4 } [] = true := by decide +kernel

/-- V7.8: `LDA ($10),Y`. -/
theorem test_V7_8_lda :
    runs [0xB1, 0x10] { base with y := 0x00 } [(0x0010, 0x00), (0x0011, 0x20)]
      { base with pc := 0x8002, y := 0x00, a := 0x20, cyc := 5 } [] = true := by decide +kernel

/-- V7.9: `LDA $1FFF`. -/
theorem test_V7_9_lda :
    runs [0xAD, 0xFF, 0x1F] base [(0x07FF, 0x6B)] { base with pc := 0x8003, a := 0x6B, cyc := 4 }
      [] = true := by decide +kernel

/-- V12.1: the illegal byte 0x02, and the step after it. -/
theorem test_V12_1_decode_error :
    (match step (machine [0x02, 0xEA] base []) with
      | .fault (.decodeError op a t) =>
        decide (op = 0x02 ∧ a = 0x8000 ∧ t.cpu = { base with fault := some { opcode := 0x02, address := 0x8000 } } ∧
          t.bus.latch = 0x02)
      | _ => false) = true := by decide +kernel

/-- V13.1: with the line raised and `I` clear the step is the entry: 0x8001 and the status 0x20 are pushed. -/
theorem test_V13_1_interrupt_entry :
    (match after { machine [0xEA] { base with pc := 0x8001, flags := { Flags.reset with i := false } }
        [(0xFFFA, 0x00), (0xFFFB, 0x90)] with bus := { intLine := true, latch := 0 } } with
      | some t =>
        decide (t.cpu = { base with pc := 0x9000, sp := 0xFA, cyc := 7 } ∧ storedByte t 0x01FD = some 0x80 ∧
          storedByte t 0x01FC = some 0x01 ∧ storedByte t 0x01FB = some 0x20 ∧ t.bus.intLine = false)
      | none => false) = true := by decide +kernel

/-! ## Units -/

/-- V8.1: status read. -/
theorem test_V8_1_status_read :
    ((busRead 0x2002 { State.reset with
        bus := { intLine := true, latch := 0x20 }
        video := { State.reset.video with vbl := true, s0 := true, w := true } }).value = 0xC0) := by decide +kernel

/-- V8.4: a palette cell keeps six bits and `v` wraps. -/
theorem test_V8_4_palette_write :
    (let t := busWrite 0x2007 0xFF { State.reset with video := { State.reset.video with v := 0x3FFF } }
     (palByte t.video 0x1F, t.video.v)) = (0x3F, 0x0000) := by decide +kernel

/-- V8.6: name-table mirroring. -/
theorem test_V8_6_name_tables :
    [0x2000, 0x2400, 0x2800, 0x2C00, 0x3000, 0x2FFF].map (ntIndex .horizontal) = [0, 0, 0x400, 0x400, 0, 0x7FF] ∧
      [0x2000, 0x2400, 0x2800, 0x2C00, 0x3000, 0x2FFF].map (ntIndex .vertical) = [0, 0x400, 0, 0x400, 0, 0x7FF] := by
  decide

/-- V8.7: an attribute byte is stored without bits 4..2. -/
theorem test_V8_7_attribute_byte :
    (let t := busWrite 0x2004 0xFF { State.reset with video := { State.reset.video with oamAddr := 0x02 } }
     (oamByte t.video 2, t.video.oamAddr)) = (0xE3, 0x03) := by decide +kernel

/-- V9.1: a length loads only while the channel is enabled. -/
theorem test_V9_1_length_load :
    (busWrite 0x4003 0x18 State.reset).audio.pulse0.length = 0 ∧
      (busWrite 0x4003 0x18 (busWrite 0x4015 0x0F State.reset)).audio.pulse0.length = 2 ∧
      (busWrite 0x400F 0xF8 (busWrite 0x4015 0x0F State.reset)).audio.noise.length = 30 := by decide +kernel

/-- V9.5: the first two shifts of the noise register. -/
theorem test_V9_5_noise_register :
    lfsrNext 1 false = 0x4000 ∧ lfsrNext 0x4000 false = 0x2000 ∧ lfsrNext 0x0040 true = 0x4020 := by decide

/-- V10.1, V10.2: STA to the transfer register costs 517 from an even cycle and 518 from an odd one. -/
theorem test_V10_transfer_cost :
    dmaCycles 0x4014 4 { State.reset with cpu := { base with cyc := 2 } } + 4 = 517 ∧
      dmaCycles 0x4014 4 { State.reset with cpu := { base with cyc := 5 } } + 4 = 518 := by decide +kernel

/-- V11.1: the first two reads of port 0 with buttons A and Start. -/
theorem test_V11_1_controller :
    (let s := busWrite 0x4016 0 (busWrite 0x4016 1 (setButtons .p0 0x09 State.reset))
     let r := busRead 0x4016 (s.setLatch 0x40)
     (r.value, (busRead 0x4016 (r.state.setLatch 0x40)).value)) = (0x41, 0x40) := by decide +kernel

/-! ## Witnesses: the hypotheses of each statement are met together -/

/-- The code 0xA9 0x01 (`LDA #$01`) at 0x8000. -/
def loadOne : State := machine [0xA9, 0x01] base []

theorem stored_loadOne : StoredAt loadOne loadOne.cpu.pc [0xA9, 0x01] := by
  intro k hk
  have : k = 0 ∨ k = 1 := by simp at hk; omega
  rcases this with rfl | rfl <;> decide +kernel

theorem witness_accepted_bytes : decode [0xA9, 0x01, 0x07] = .ok (.ldaImm 0x01) [0x07] := by decide

theorem witness_step_runs_decoded :
    ∃ (s h u : State) (bytes : List Byte) (i : Instr),
      s.cpu.fault = none ∧ h = takeHostCalls s ∧
        (h.bus.intLine && (!h.cpu.flags.i || !h.cfg.intMaskable)) = false ∧ decode bytes = .ok i [] ∧
        StoredAt h h.cpu.pc bytes ∧ exec i { h with bus := { h.bus with latch := bytes.getLastD 0 } } = .next u :=
  ⟨loadOne, loadOne, _, [0xA9, 0x01], .ldaImm 0x01, rfl, rfl, rfl, rfl, stored_loadOne, rfl⟩

theorem witness_fetch :
    decode ((busRead loadOne.cpu.pc loadOne).value ::
      (readBytes 1 (loadOne.cpu.pc + 1) (busRead loadOne.cpu.pc loadOne).state).bytes) = .ok (.ldaImm 0x01) [] := by
  decide +kernel

/-- An illegal byte in PRG storage: `PC` is not at a video register. -/
theorem witness_illegal_opcode :
    ∃ (s h : State) (op : Byte),
      s.cpu.fault = none ∧ h = takeHostCalls s ∧
        (h.bus.intLine && (!h.cpu.flags.i || !h.cfg.intMaskable)) = false ∧ (busRead h.cpu.pc h).value = op ∧
        op ∈ illegalBytes ∧ region s.cpu.pc ≠ .video :=
  ⟨machine [0xFF] base [], machine [0xFF] base [], 0xFF, rfl, rfl, rfl, by decide +kernel, by decide, by decide⟩

/-- An illegal byte read from a video register. -/
theorem witness_illegal_opcode_at_register :
    ∃ (s h : State) (op : Byte),
      s.cpu.fault = none ∧ h = takeHostCalls s ∧
        (h.bus.intLine && (!h.cpu.flags.i || !h.cfg.intMaskable)) = false ∧ (busRead h.cpu.pc h).value = op ∧
        op ∈ illegalBytes ∧ region s.cpu.pc = .video :=
  ⟨{ State.reset with cpu := { base with pc := 0x2002 }, bus := { intLine := false, latch := 0x02 } },
    { State.reset with cpu := { base with pc := 0x2002 }, bus := { intLine := false, latch := 0x02 } }, 0x02,
    rfl, rfl, rfl, by decide +kernel, by decide, by decide⟩

/-- A machine that has faulted. -/
def faulted : State := { State.reset with cpu := { base with fault := some { opcode := 0x02, address := 0x8000 } } }

theorem witness_faulted : ∃ r, faulted.cpu.fault = some r := ⟨_, rfl⟩

/-- The line raised and `I` clear, at an illegal byte: the entry goes first. -/
def interrupted : State :=
  { machine [0x02] { base with flags := { Flags.reset with i := false } } [] with bus := { intLine := true, latch := 0 } }

theorem witness_step_completes :
    (interrupted.cpu.fault = none ∧
      (interrupted.bus.intLine && (!interrupted.cpu.flags.i || !interrupted.cfg.intMaskable)) = true) ∧
      (loadOne.cpu.fault = none ∧ (busRead loadOne.cpu.pc loadOne).value ∉ illegalBytes) ∧
      ∃ t, step loadOne = .next t :=
  ⟨⟨rfl, by decide +kernel⟩, ⟨rfl, by decide +kernel⟩, ⟨_, rfl⟩⟩

/-- The line not maskable and `I` set. -/
theorem witness_interrupt_entry :
    (interrupted.cpu.fault = none ∧ takeHostCalls interrupted = interrupted ∧ interrupted.bus.intLine = true ∧
      interrupted.cpu.flags.i = false) ∧
      ∃ s : State, s.cpu.fault = none ∧ takeHostCalls s = s ∧ s.bus.intLine = true ∧ s.cpu.flags.i = true ∧
        s.cfg.intMaskable = false :=
  ⟨⟨rfl, rfl, rfl, rfl⟩,
    { State.reset with cfg := { Cfg.default with intMaskable := false }, bus := { intLine := true, latch := 0 } },
    rfl, rfl, rfl, rfl, rfl⟩

/-- A member of each list of forms the line's statement goes through, at operands on both sides of its conditions. -/
theorem witness_life_of_the_line :
    (∃ i t, fetch loadOne = .instr i t) ∧
      (∃ op t, fetch (machine [0xFF] base []) = .illegal op t) ∧
      (∃ t, exec .nop interrupted = .next t ∧ t.bus.intLine = true) ∧
      (∃ r ∈ readForms 0xFA 0x3F, readsStatus r.src (past r.bytes.length interrupted) = true ∧
        ∃ t, exec r.instr interrupted = .next t ∧ t.bus.intLine = false) ∧
      (∃ r ∈ readForms 0xFB 0x3F, readsStatus r.src (past r.bytes.length interrupted) = false ∧
        ∃ t, exec r.instr interrupted = .next t ∧ t.bus.intLine = true) ∧
      (isVideoPage 0x1F = false ∧ isVideoPage 0x20 = true ∧ isVideoPage 0x3F = true ∧ isVideoPage 0x40 = false) ∧
      (∃ r ∈ staForms 0x14 0x40, (resolve r.mode (past r.bytes.length interrupted)).ea = 0x4014 ∧
        ∃ t, exec r.instr interrupted = .next t) ∧
      (∃ r ∈ incForms 0x14 0x40, (resolve r.mode (past r.bytes.length interrupted)).ea = 0x4014 ∧
        ∃ t, exec r.instr interrupted = .next t) ∧
      ∃ i ∈ otherForms 0x2002 0, i = .jmpInd 0x2002 ∧ ∃ t, exec i interrupted = .next t ∧ t.bus.intLine = false :=
  ⟨⟨_, _, rfl⟩, ⟨_, _, rfl⟩, ⟨_, rfl, rfl⟩,
    ⟨⟨.ldaAbs 0x3FFA, [0xAD, 0xFA, 0x3F], .mem (.abs 0x3FFA), 4, false⟩,
      by simp [readForms, loadLogicForms, ldaForms, mkWord], by decide, _, rfl, rfl⟩,
    ⟨⟨.ldaAbs 0x3FFB, [0xAD, 0xFB, 0x3F], .mem (.abs 0x3FFB), 4, false⟩,
      by simp [readForms, loadLogicForms, ldaForms, mkWord], by decide, _, rfl, rfl⟩,
    by decide,
    ⟨⟨.staAbs 0x4014, [0x8D, 0x14, 0x40], .abs 0x4014, 4⟩, by simp [staForms, mkWord], rfl, _, rfl⟩,
    ⟨⟨.incAbs 0x4014, [0xEE, 0x14, 0x40], .abs 0x4014, 6⟩, by simp [incForms, mkWord], rfl, _, rfl⟩,
    ⟨.jmpInd 0x2002, by simp [otherForms], rfl, _, rfl, rfl⟩⟩

theorem witness_arithmetic_laws :
    (∃ t, exec (.adcImm 0x80) State.reset = .next t) ∧ (∃ t, exec (.sbcImm 0x80) State.reset = .next t) ∧
      ∃ t, exec (.cmpImm 0x80) State.reset = .next t := ⟨⟨_, rfl⟩, ⟨_, rfl⟩, ⟨_, rfl⟩⟩

/-- The read forms, the stores, the read-modify-writes and each of their parts have members with any operand. -/
theorem witness_forms (b1 b2 : Byte) (s : State) :
    (∃ r ∈ ldaForms b1 b2, ∃ t, exec r.instr s = .next t) ∧ (∃ r ∈ adcForms b1 b2, ∃ t, exec r.instr s = .next t) ∧
      (∃ r ∈ ldxForms b1 b2, ∃ t, exec r.instr s = .next t) ∧ (∃ r ∈ ldyForms b1 b2, ∃ t, exec r.instr s = .next t) ∧
      (∃ r ∈ bitForms b1 b2, ∃ t, exec r.instr s = .next t) ∧ (∃ r ∈ cmpForms b1 b2, ∃ t, exec r.instr s = .next t) ∧
      (∃ r ∈ incForms b1 b2, ∃ t, exec r.instr s = .next t) ∧ ∃ r ∈ rorForms b1 b2, ∃ t, exec r.instr s = .next t :=
  ⟨⟨_, List.mem_cons_self, _, rfl⟩, ⟨_, List.mem_cons_self, _, rfl⟩, ⟨_, List.mem_cons_self, _, rfl⟩,
    ⟨_, List.mem_cons_self, _, rfl⟩, ⟨_, List.mem_cons_self, _, rfl⟩, ⟨_, List.mem_cons_self, _, rfl⟩,
    ⟨_, List.mem_cons_self, _, rfl⟩, ⟨_, List.mem_cons_self, _, rfl⟩⟩

/-- Stores to a RAM cell, to PRG storage, to a video register, to the transfer register and to no storage. -/
theorem witness_stores_frame :
    (∃ r ∈ storeForms 0x10 0x02, (∃ t, exec r.instr State.reset = .next t) ∧
        (resolve r.mode (past r.bytes.length State.reset)).ea = 0x0210) ∧
      (0x8000 ≤ (0xFFFF : Word).toNat ∧ region 0xFFFF ≠ .video ∧ region 0xFFFF ≠ .io) ∧
      (storageCell State.reset 0x5FFF = none ∧ region 0x5FFF ≠ .video) ∧
      storageCell State.reset 0x0210 ≠ storageCell State.reset 0x0211 :=
  ⟨⟨⟨.staAbs 0x0210, [0x8D, 0x10, 0x02], .abs 0x0210, 4⟩,
      by simp [storeForms, staForms, mkWord], ⟨_, rfl⟩, rfl⟩, by decide, by decide, by decide⟩

theorem witness_stack_and_register_frame (s : State) :
    (∃ t, exec .pha s = .next t) ∧ (∃ t, exec .brk s = .next t) ∧ (∃ t, exec (.jsr 0x1234) s = .next t) ∧
      (∃ t, exec .pla s = .next t) ∧ (∃ t, exec (.jmpInd 0x02FF) s = .next t) ∧ (∃ t, exec .tax s = .next t) ∧
      ∀ k ∈ [(0 : Byte), 1, 2], storageCell State.reset 0x0200 ≠ some (stackCell (State.reset.cpu.sp - k)) :=
  ⟨⟨_, rfl⟩, ⟨_, rfl⟩, ⟨_, rfl⟩, ⟨_, rfl⟩, ⟨_, rfl⟩, ⟨_, rfl⟩, by decide⟩

/-- Jumps through a pointer, at the last byte of a page. -/
theorem witness_jump_indirect :
    ∃ (w : Word) (s : State) (l h : Access), w = 0x02FF ∧ l = busRead w (past 3 s) ∧
      h = busRead (mkWord (hiByte w) (BitVec.ofNat 8 ((w.toNat + 1) % 256))) l.state :=
  ⟨0x02FF, State.reset, _, _, rfl, rfl, rfl⟩

/-- Branches at the ends of the offset's range, and over a page. -/
theorem witness_branches :
    ∃ (s : State) (next : Word), next = BitVec.ofNat 16 ((s.cpu.pc.toNat + 2) % 65536) ∧
      BitVec.ofInt 16 ((next.toNat : Int) + signed8 0x7F) = 0x8081 ∧
      BitVec.ofInt 16 ((next.toNat : Int) + signed8 0x80) = 0x7F82 :=
  ⟨loadOne, 0x8002, by decide +kernel, by decide, by decide⟩

theorem witness_read_source (m : MemMode) (s : State) :
    ∃ (e : Resolved) (d : Access), e = resolve m s ∧ d = busRead e.ea e.state := ⟨_, _, rfl, rfl⟩

theorem witness_effective_addresses (b : Byte) (s : State) :
    ∃ (z : Nat) (lo hi : Byte), z = (b.toNat + s.cpu.x.toNat) % 256 ∧ lo = readCell .cpu s.mem z ∧
      hi = readCell .cpu s.mem ((z + 1) % 256) := ⟨_, _, _, rfl, rfl, rfl⟩

theorem witness_ram_mirrors :
    (0x1FFF : Word).toNat ≤ 0x1FFF ∧ (0x07FF : Word).toNat ≤ 0x1FFF ∧
      (0x1FFF : Word).toNat % 2048 = (0x07FF : Word).toNat % 2048 := by decide

/-- The ends of the three windows of cartridge space. -/
theorem witness_cartridge_space :
    (0x4020 ≤ (0x8000 : Word).toNat ∧ 0x8000 ≤ (0xFFFF : Word).toNat ∧ (0xBFFF : Word).toNat < 0xC000) ∧
      (∃ s : State, s.cart.prgSize = .k16) ∧
      (0x6000 ≤ (0x6000 : Word).toNat ∧ (0x7FFF : Word).toNat < 0x8000 ∧
        ∃ s : State, s.cfg.prgRam = true) ∧
      ((0x4020 : Word).toNat < 0x6000 ∧ (0x5FFF : Word).toNat < 0x6000 ∧ State.reset.cfg.prgRam = false) :=
  ⟨by decide, ⟨{ State.reset with cart := { Cart.blank with prgSize := .k16 } }, rfl⟩,
    ⟨by decide, by decide, { State.reset with cfg := { Cfg.default with prgRam := true } }, rfl⟩, by decide⟩

theorem witness_open_bus :
    (0x2000 ≤ (0x3FFE : Word).toNat ∧ (0x3FFE : Word).toNat ≤ 0x3FFF ∧ (0x3FFE : Word).toNat % 8 ∈ [0, 1, 3, 5, 6]) ∧
      (0x4000 ≤ (0x4014 : Word).toNat ∧ (0x4014 : Word).toNat ≤ 0x4014) ∧
      (0x4018 ≤ (0x401F : Word).toNat ∧ (0x401F : Word).toNat ≤ 0x401F) ∧
      (0x4020 ≤ (0x4020 : Word).toNat ∧ storageCell State.reset 0x4020 = none) ∧
      (0x2000 ≤ (0x3FFA : Word).toNat ∧ (0x3FFA : Word).toNat ≤ 0x3FFF ∧ (0x3FFA : Word).toNat % 8 = 2) ∧
      (0x2000 ≤ (0x3FFF : Word).toNat ∧ (0x3FFF : Word).toNat ≤ 0x3FFF ∧ (0x3FFF : Word).toNat % 8 = 7) ∧
      ∃ s : State, 0x3F00 ≤ s.video.v.toNat ∧ s.video.canonical s.cart = true :=
  ⟨by decide, by decide, by decide, by decide, by decide, by decide,
    { State.reset with video := { State.reset.video with v := 0x3F00 } }, by decide, by decide⟩

/-- A bit the latch gives and one it does not, in each partly open register. -/
theorem witness_open_bits :
    ((openBits State.reset 0x2002).getLsbD 4 = true ∧ (openBits State.reset 0x2002).getLsbD 5 = false) ∧
      ((openBits State.reset 0x4015).getLsbD 5 = true ∧ (openBits State.reset 0x4015).getLsbD 6 = false) ∧
      ((openBits State.reset 0x4017).getLsbD 5 = true ∧ (openBits State.reset 0x4017).getLsbD 4 = false) ∧
      (openBits State.reset 0x4014).getLsbD 0 = true ∧ (openBits State.reset 0x5FFF).getLsbD 0 = true ∧
      (openBits State.reset 0x1FFF).getLsbD 0 = false ∧ (openBits State.reset 0x8000).getLsbD 7 = false := by decide

/-- A cell of each kind behind a video address, at the ends of the kinds. -/
theorem witness_video_memory :
    videoCell .horizontal 0x1FFF = (.chrRam, 0x1FFF) ∧ videoCell .horizontal 0x2800 = (.nameTable, 0x400) ∧
      videoCell .vertical 0x3EFF = (.nameTable, 0x6FF) ∧ videoCell .vertical 0x3F10 = (.palette, 0) ∧
      videoCell .vertical 0x7FFF = (.palette, 0x1F) ∧ (0x2000 ≤ 0x2800 % 16384) ∧ Cart.blank.chrWritable = true ∧
      ∃ w, w = videoMemWrite Cart.blank State.reset.video 0x1FFF 1 :=
  ⟨by decide, by decide, by decide, by decide, by decide, by decide, rfl, _, rfl⟩

/-- An address of each video register, at the ends of the window. -/
theorem witness_video_registers :
    ∀ r < 8, ∃ a : Word, (0x2000 ≤ a.toNat ∧ a.toNat ≤ 0x3FFF ∧ a.toNat % 8 = r) ∧
      (a.toNat = 0x2000 + r ∨ a.toNat = 0x3FF8 + r) :=
  fun r hr => ⟨BitVec.ofNat 16 (0x3FF8 + r), by simp; omega, by simp; omega⟩

/-- The two sides of the palette boundary, with the address that comes next. -/
theorem witness_data_port :
    (∃ (s : State) (next : BitVec 14), s.video.v.toNat < 0x3F00 ∧
        next = BitVec.ofNat 14 ((s.video.v.toNat + if s.video.ctrl.getLsbD 2 then 32 else 1) % 16384)) ∧
      ∃ (s : State) (next : BitVec 14), 0x3F00 ≤ s.video.v.toNat ∧
        next = BitVec.ofNat 14 ((s.video.v.toNat + if s.video.ctrl.getLsbD 2 then 32 else 1) % 16384) :=
  ⟨⟨{ State.reset with video := { State.reset.video with v := 0x3EFF } }, _, by decide, rfl⟩,
    { State.reset with video := { State.reset.video with v := 0x3F00 } }, _, by decide, rfl⟩

/-- Page 2 is RAM: its bytes are stored bytes, whatever they are. -/
theorem witness_oam_dma :
    ∃ page : Nat → Byte, ∀ k, k < 256 → storedByte State.reset (mkWord 0x02 (BitVec.ofNat 8 k)) = some (page k) := by
  refine ⟨fun k => readCell .cpu State.reset.mem (512 + k), fun k hk => ?_⟩
  have h : (mkWord 0x02 (BitVec.ofNat 8 k)).toNat = 512 + k := by
    have : ∀ b : Byte, (mkWord 0x02 b).toNat = 512 + b.toNat := by decide +kernel
    rw [this]; simp; omega
  unfold storedByte
  rw [storageCell_ram (by omega), h, Nat.mod_eq_of_lt (by omega)]

theorem witness_video_position : State.reset.video.inRange = true ∧ Cfg.default.wf = true := by decide

/-- A position for each clause of the tick's events. -/
theorem witness_events_of_the_tick :
    ∃ at_ : Nat → Nat → Video,
      (at_ 240 0).inRange = true ∧ (at_ 241 Cfg.default.vblDot).inRange = true ∧ (at_ 261 0).inRange = true ∧
        (at_ 239 257).inRange = true ∧ (at_ 239 340).inRange = true ∧ (at_ 240 1).inRange = true ∧
        (at_ 260 340).inRange = true ∧ (at_ 261 340).inRange = true ∧
        ∀ y x, (at_ y x).scanline = y ∧ (at_ y x).dot = x :=
  ⟨fun y x => { State.reset.video with scanline := y, dot := x }, by decide, by decide, by decide, by decide, by decide,
    by decide, by decide, by decide, fun _ _ => ⟨rfl, rfl⟩⟩

/-- A unit at a pixel with every sprite at the top left corner and one opaque tile. -/
def drawing (y x : Nat) (mask : Byte) : Video :=
  { State.reset.video with
    scanline := y, dot := x + 1, mask := mask, oam := cellsFrom .oam 0 (List.replicate 256 0)
    chr := cellsFrom .chrRam 0 (List.replicate 16 0xFF) }

theorem witness_pixel :
    ((drawing 239 255 0).scanline = 239 ∧ (drawing 239 255 0).dot = 255 + 1 ∧
      shownSprites (drawing 239 255 0) 255 239 = []) ∧
      ((drawing 1 0 0x1E).scanline = 1 ∧ (drawing 1 0 0x1E).dot = 0 + 1 ∧
        shownSprites (drawing 1 0 0x1E) 0 1 = [] ++ 0 :: [1, 2, 3, 4, 5, 6, 7] ∧
        spritePixel Cart.blank (drawing 1 0 0x1E) 0 0 1 ≠ 0) := by decide +kernel

theorem witness_rendering_disabled :
    (drawing 239 255 0).mask.getLsbD 3 = false ∧ (drawing 239 255 0).mask.getLsbD 4 = false ∧
      (drawing 239 255 0).scanline ≤ 239 ∧ 1 ≤ (drawing 239 255 0).dot ∧ (drawing 239 255 0).dot ≤ 256 := by
  decide +kernel

/-- Background and sprite pixels are drawn in both of their cases. -/
theorem witness_pixel_sources :
    ((drawing 239 255 0).mask.getLsbD 3 = false ∧ (drawing 1 0 0x1E).mask.getLsbD 3 = true) ∧
      spriteBits Cart.blank (drawing 1 0 0x1E) 0 0 7 = 3 ∧ spriteBits Cart.blank (drawing 1 0 0x1E) 0 8 0 = 0 ∧
      spriteBits Cart.blank (drawing 1 0 0x1E) 0 (-1) 0 = 0 := by decide +kernel

theorem witness_audio_tick :
    (∃ cfg : Cfg, (State.reset.audio.apuCycle + 1) % cfg.sampleDiv ≠ 0) ∧
      State.reset.audio.noise.timer = 0 ∧ State.reset.audio.apuCycle % 2 = 0 ∧ Cfg.default.sampleCap = none ∧
      ∃ a : Audio, a.noise.timer ≠ 0 ∧ a.apuCycle % 2 = 1 :=
  ⟨⟨{ Cfg.default with sampleDiv := 2 }, by decide⟩, rfl, rfl, rfl,
    { State.reset.audio with noise := { State.reset.audio.noise with timer := 3 }, apuCycle := 7 }, by decide, rfl⟩

theorem witness_sequencer (a : Audio) : ∃ (q h : Audio) (n : Nat), q = quarterFrame a ∧ h = halfFrame a ∧ n = a.fsCount + 1 :=
  ⟨_, _, _, rfl, rfl, rfl⟩

theorem witness_samples :
    (State.reset.audio.apuCycle + 1) % Cfg.default.sampleDiv = 0 ∧ Cfg.default.mixer = .reference ∧
      Cfg.default.sampleCap = none ∧
      (∃ cfg : Cfg, cfg.sampleCap = some 0 ∧ 0 ≤ State.reset.audio.samplesRev.length ∧
        (State.reset.audio.apuCycle + 1) % cfg.sampleDiv = 0) ∧
      ∃ cfg : Cfg, cfg.sampleCap = some 1 ∧ State.reset.audio.samplesRev.length < 1 ∧
        (State.reset.audio.apuCycle + 1) % cfg.sampleDiv = 0 :=
  ⟨rfl, rfl, rfl, ⟨{ Cfg.default with sampleCap := some 0 }, rfl, Nat.zero_le _, rfl⟩,
    { Cfg.default with sampleCap := some 1 }, rfl, Nat.zero_lt_one, rfl⟩

/-- Both modes, at each clock of their sequences and at their ends; the clocks given change at 14913 and at 29829 or 37281. -/
theorem witness_length_counters :
    (∃ a : Audio, a.fsCount = 0 ∧ a.fsMode = false ∧
        ∀ n ∈ [14912, 14913, 29828, 29829, 29830], n ≤ if a.fsMode then 37282 else 29830) ∧
      (∃ a : Audio, a.fsCount = 0 ∧ a.fsMode = true ∧
        ∀ n ∈ [14912, 14913, 37280, 37281, 37282], n ≤ if a.fsMode then 37282 else 29830) ∧
      [14912, 14913, 29828, 29829, 29830].map (halfClocks false) = [0, 1, 1, 2, 2] ∧
      [14912, 14913, 37280, 37281, 37282].map (halfClocks true) = [0, 1, 1, 2, 2] :=
  ⟨⟨State.reset.audio, rfl, rfl, by decide⟩, ⟨{ State.reset.audio with fsMode := true }, rfl, rfl, by decide⟩, by decide,
    by decide⟩

theorem witness_controller :
    (0xFF : Byte).getLsbD 0 = true ∧ (0xFE : Byte).getLsbD 0 = false ∧
      ∃ h t, h = busWrite 0x4016 0xFF State.reset ∧ t = busWrite 0x4016 0xFE h := ⟨by decide, by decide, _, _, rfl, rfl⟩

theorem witness_port_read (s : State) :
    ∃ value, value = BitVec.ofNat 8 (s.bus.latch.toNat / 32 * 32 +
      (if s.input.strobe then s.input.pad0 else s.input.shift0).toNat % 2) := ⟨_, rfl⟩

theorem witness_host_calls :
    State.reset.hostCalls = [] ∧
      ∃ s : State, s.hostCalls = [.setButtons .p1 0x81, .takeSamples 1] :: [] :=
  ⟨rfl, { State.reset with hostCalls := [[.setButtons .p1 0x81, .takeSamples 1]] }, rfl⟩

/-- A store to the transfer register, for the long cost, and an instruction that is none. -/
theorem witness_cycles :
    (∃ t, step loadOne = .next t ∧ t.cpu.cyc = 2) ∧
      (∃ t, step (machine [0x8D, 0x14, 0x40] base []) = .next t ∧ t.cpu.cyc = 517) ∧
      ChargedTransfer (takeHostCalls (machine [0x8D, 0x14, 0x40] base [])) :=
  ⟨⟨_, rfl, by decide +kernel⟩, ⟨_, rfl, by decide +kernel⟩,
    by decide +kernel, rfl, 0x14, 0x40, _, ⟨.staAbs 0x4014, [0x8D, 0x14, 0x40], .abs 0x4014, 4⟩,
    by simp [storeForms, staForms, mkWord], rfl, rfl⟩

theorem witness_no_transfer : ¬ ChargedTransfer (takeHostCalls interrupted) := by
  rintro ⟨h, -⟩
  exact absurd h (by decide +kernel)

theorem witness_cartridge_fixed :
    ∃ s t : State, step s = .next t ∧ s.cart.chrWritable = false :=
  ⟨{ loadOne with cart := { Cart.blank with chrWritable := false } }, _, rfl, rfl⟩

/-- The three invariants hold of a state that takes a step. -/
theorem witness_invariants :
    loadOne.canonical = true ∧ loadOne.audio.sound = true ∧ loadOne.clocksAgree = true ∧ ∃ t, step loadOne = .next t :=
  ⟨by decide +kernel, by decide +kernel, by decide +kernel, _, rfl⟩

theorem witness_power_on (mem oam nt pal chr : Memory) :
    ∃ s, s = powerOn Cfg.default Cart.blank mem oam nt pal chr := ⟨_, rfl⟩

/-- An accepted cartridge of each pattern kind, with launch bytes for every memory. -/
theorem witness_construction :
    (∃ s, construct Cfg.default goodCartridge
        { ram0 := [1], prgRam0 := [6], oam0 := [4], nt0 := [5], pal0 := [2], chr0 := [3] } = .machine s) ∧
      ∃ s, construct { Cfg.default with prgRam := true } { goodCartridge with chr := List.replicate 8192 5 }
        { ram0 := [1], prgRam0 := [6], oam0 := [4], nt0 := [5], pal0 := [2], chr0 := [] } = .machine s := by
  constructor
  · have h : goodCartridge.check = none := by
      unfold Cartridge.check goodCartridge; simp only [List.length_replicate]; rfl
    exact ⟨_, by unfold construct; rw [h]⟩
  · have h : Cartridge.check { goodCartridge with chr := List.replicate 8192 5 } = none := by
      unfold Cartridge.check goodCartridge; simp only [List.length_replicate]; rfl
    exact ⟨_, by unfold construct; rw [h]⟩

end Sys2Proof.Tests
end

