-- ==== Sys2Proof/Proofs/Scope.lean ====
section
/-! PROOFS. Statements of `00_scope.md`: a step completes exactly where R12 says. The decoder and the fetch succeed on every byte
that is no illegal opcode, every instruction answers a next state, and no completed step touches the fault record. -/

namespace Sys2Proof.Machine

open Sys2Proof.Claims

/-! ## What the decoder and the fetch accept -/

/-- The matrix of R111 has no entry for a byte exactly where R112 lists it. -/
theorem opcodeShape_isNone_iff : ∀ op : Byte, (opcodeShape op).isNone = true ↔ op ∈ illegalBytes := by
  decide +kernel

theorem exists_opcodeShape {op : Byte} (h : op ∉ illegalBytes) : ∃ sh, opcodeShape op = some sh :=
  Option.ne_none_iff_exists'.1 fun hn => h ((opcodeShape_isNone_iff op).1 (Option.isNone_iff_eq_none.2 hn))

/-- An opcode with as many operand bytes as its shape asks for is an instruction, and no byte is left over. -/
theorem decode_of_length {op : Byte} {sh : Shape} {bytes : List Byte} (h : opcodeShape op = some sh)
    (hl : bytes.length = sh.length - 1) : ∃ i, decode (op :: bytes) = .ok i [] := by
  cases sh with
  | f1 i =>
    obtain rfl := List.length_eq_zero_iff.1 hl
    exact ⟨_, decode_f1 h []⟩
  | f2 f =>
    obtain ⟨b, rfl⟩ := List.length_eq_one_iff.1 hl
    exact ⟨_, decode_f2 h b []⟩
  | f3 f =>
    obtain ⟨b1, b2, rfl⟩ := List.length_eq_two.1 hl
    exact ⟨_, decode_f3 h b1 b2 []⟩

/-- The fetch gives what the decoder reads in the opcode byte and the operand bytes its shape asks for. -/
theorem fetch_of_decode {s : State} {sh : Shape} {i : Instr} {rest : List Byte}
    (hsh : opcodeShape (busRead s.cpu.pc s).value = some sh)
    (hi : decode ((busRead s.cpu.pc s).value ::
      (readBytes (sh.length - 1) (s.cpu.pc + 1) (busRead s.cpu.pc s).state).bytes) = .ok i rest) :
    fetch s = .instr i (readBytes (sh.length - 1) (s.cpu.pc + 1) (busRead s.cpu.pc s).state).state := by
  simp only [fetch, hsh, hi]

theorem fetch_of_legal {s : State} (h : (busRead s.cpu.pc s).value ∉ illegalBytes) : ∃ i t, fetch s = .instr i t := by
  obtain ⟨sh, hsh⟩ := exists_opcodeShape h
  obtain ⟨i, hi⟩ := decode_of_length hsh (readBytes_length (sh.length - 1) (s.cpu.pc + 1) (busRead s.cpu.pc s).state)
  exact ⟨i, _, fetch_of_decode hsh hi⟩

/-! ## Completion -/

/-- Every instruction answers a next state from every state. -/
theorem exec_next (i : Instr) (s : State) : ∃ u, exec i s = .next u := by
  cases i <;> exact ⟨_, rfl⟩

/-- `interruptTaken` is the test of R270 in the order the statements write it. -/
theorem interruptTaken_eq (s : State) :
    interruptTaken s = (s.bus.intLine && (!s.cpu.flags.i || !s.cfg.intMaskable)) := Bool.and_comm ..

theorem advance_of_interruptTaken {s : State} (h : interruptTaken s = true) :
    advance s = .next (tickUnits Config.intCycles (interruptEntry s)) := by
  simp [advance, h]

theorem advance_of_fetch {s t u : State} {i : Instr} (h : interruptTaken s = false) (hf : fetch s = .instr i t)
    (he : exec i t = .next u) : advance s = .next (tickUnits (u.cpu.cyc - t.cpu.cyc) u) := by
  simp [advance, h, hf, he]

/-- The CPU step completes where the interrupt entry is due or the byte at `PC` is an opcode (R12, R270). -/
theorem advance_next {s : State} (h : interruptTaken s = true ∨ (busRead s.cpu.pc s).value ∉ illegalBytes) :
    ∃ t, advance s = .next t := by
  cases hi : interruptTaken s with
  | true => exact ⟨_, advance_of_interruptTaken hi⟩
  | false =>
    obtain ⟨i, t, hf⟩ := fetch_of_legal (h.resolve_left (by simp [hi]))
    obtain ⟨u, hu⟩ := exec_next i t
    exact ⟨_, advance_of_fetch hi hf hu⟩

theorem step_of_not_faulted {s : State} (h : s.cpu.fault = none) : step s = advance (takeHostCalls s) := by
  simp [step, h]

/-! ## The fault record -/

/-- No bus access and no change of registers writes the fault record. -/
theorem kept_fault (r : Option DecodeErrorRecord) : Kept fun s => s.cpu.fault = r where
  cpu _ _ hc _ h := hc.trans h
  read a s h := by rw [busRead_cpu, h]
  write a v s h := by rw [busWrite_cpu, h]

/-- A step that completes leaves the fault record as it was. -/
theorem step_next_fault {s t : State} (h : step s = .next t) : t.cpu.fault = s.cpu.fault :=
  step_keeps (kept_fault s.cpu.fault) (fun _ h => h) (fun s h => by rw [takeHostCalls_cpu, h])
    (fun n s h => by rw [tickUnits_cpu, h]) h rfl

/-- Settles O8: the step completes by cases on the interrupt test, through the fetch and the totality of `exec`; the
converse is the inversion of `step` and the frame of the fault record. -/
theorem stepCompletesUnlessIllegal : Obligations.StepCompletesUnlessIllegal := by
  unfold Obligations.StepCompletesUnlessIllegal
  refine ⟨?_, fun s t hst => ?_⟩
  · rintro s _ hs rfl hcase
    rw [← interruptTaken_eq] at hcase
    obtain ⟨t, ht⟩ := advance_next hcase
    have hst : step s = .next t := (step_of_not_faulted hs).trans ht
    exact ⟨t, hst, (step_next_fault hst).trans hs⟩
  · obtain ⟨hs, _⟩ := step_next hst
    exact ⟨hs, (step_next_fault hst).trans hs⟩

end Sys2Proof.Machine
end

