-- ==== Sys2Proof/Proofs/State.lean ====
section
/-! PROOFS. Statements of `10_state.md`: the power-on values, what a step leaves of the parameters and the cartridge, and the
frame of the read instructions. -/

namespace Sys2Proof.Machine

open Sys2Proof.Claims

/-! ## Power-on -/

/-- The offset of R441 as the statements write it and as the model's `prgCell` does. -/
theorem prgByte_eq_readCell (s : State) {a : Word} (h : 0x8000 ≤ a.toNat) :
    prgByte s a = readCell .cpu s.mem (prgCell s.cart.prgSize a) := by
  have hle : (0x8000 : Word) ≤ a := h
  unfold prgByte prgCell
  rw [BitVec.toNat_sub_of_le hle]
  cases s.cart.prgSize <;> rfl

/-- Settles O58: every register has its value by definition of `powerOn`, and the two bytes `PC` is taken from are the PRG
bytes at the reset vector. -/
theorem powerOnValues : Obligations.PowerOnValues := by
  unfold Obligations.PowerOnValues
  rintro cfg cart mem oam nt pal chr s rfl
  refine ⟨rfl, rfl, rfl, rfl, ?_, rfl, rfl, rfl, rfl, rfl, rfl, rfl, rfl, fun _ _ => rfl⟩
  rw [prgByte_eq_readCell _ (by decide), prgByte_eq_readCell _ (by decide)]
  rfl

/-! ## What a bus read leaves of the video unit and the ports -/

/-- Of the video unit a bus read changes only what the reads of registers 2 and 7 change. -/
theorem busRead_sameBesideReads (a : Word) (s : State) : SameBesideReads s.video (busRead a s).state.video := by
  unfold busRead regionRead
  cases region a with
  | video => simp only [videoRegRead]; split <;> rfl
  | io => simp only [ioRead]; split_ifs <;> rfl
  | cartridge => simp only [mapperRead]; split <;> rfl
  | ram => rfl
  | unmapped => rfl

theorem busRead_chr (a : Word) (s : State) : (busRead a s).state.video.chr = s.video.chr :=
  (congrArg Video.chr (busRead_sameBesideReads a s) :)

/-- Of the controller ports a bus read changes the shift registers only. -/
theorem busRead_input (a : Word) (s : State) :
    (busRead a s).state.input.pad0 = s.input.pad0 ∧ (busRead a s).state.input.pad1 = s.input.pad1 ∧
      (busRead a s).state.input.strobe = s.input.strobe := by
  unfold busRead regionRead
  cases region a with
  | video => simp only [videoRegRead]; split <;> exact ⟨rfl, rfl, rfl⟩
  | io => simp only [ioRead]; split_ifs <;> exact ⟨rfl, rfl, rfl⟩
  | cartridge => simp only [mapperRead]; split <;> exact ⟨rfl, rfl, rfl⟩
  | ram => exact ⟨rfl, rfl, rfl⟩
  | unmapped => exact ⟨rfl, rfl, rfl⟩

/-! ## The cartridge is fixed -/

/-- Below 0x8000 an address is stored below 0x8000, so no PRG cell is behind it. -/
theorem storageCell_lt {s : State} {a : Word} {k : Nat} (h : storageCell s a = some k) (ha : a.toNat < 0x8000) :
    k < 0x8000 := by
  unfold storageCell at h
  split at h
  · obtain rfl := Option.some.inj h
    exact lt_trans (Nat.mod_lt _ (by decide)) (by decide : Config.ramSize < 0x8000)
  · unfold cartCell at h
    split_ifs at h
    · omega
    · obtain rfl := Option.some.inj h
      exact ha
  all_goals simp at h

/-- No bus write reaches a PRG cell (R443). -/
theorem readCell_busWrite_prg (a : Word) (v : Byte) (s : State) {k : Nat} (hk : 0x8000 ≤ k) :
    readCell .cpu (busWrite a v s).mem k = readCell .cpu s.mem k := by
  rw [busWrite_mem]
  split
  · rename_i j hj
    split_ifs with ha
    · exact readCell_writeCell_other .cpu s.mem v (by have := storageCell_lt hj ha; omega)
    · rfl
  · rfl

theorem videoMemWrite_chr {cart : Cart} (h : cart.chrWritable = false) (u : Video) (addr : Nat) (v : Byte) :
    (videoMemWrite cart u addr v).chr = u.chr := by
  unfold videoMemWrite
  simp only [h, Bool.false_eq_true, if_false]
  split_ifs <;> rfl

/-- No register write changes pattern memory that a cartridge filled (R332). -/
theorem videoRegWrite_chr {cart : Cart} (h : cart.chrWritable = false) (u : Video) (r : Nat) (v : Byte) :
    (videoRegWrite cart u r v).chr = u.chr := by
  unfold videoRegWrite
  split
  case h_5 => unfold scrollWrite; split <;> rfl
  case h_6 => unfold addrWrite; split <;> rfl
  case h_7 => exact videoMemWrite_chr h u _ v
  all_goals rfl

/-- The transfer writes the sprite table, never pattern memory (R446). -/
theorem oamCopy_chr (n : Nat) (a : Word) (s : State) : (oamCopy n a s).video.chr = s.video.chr := by
  induction n generalizing a s with
  | zero => rfl
  | succ n ih => exact (ih _ _).trans (busRead_chr a s)

theorem busWrite_chr {s : State} (h : s.cart.chrWritable = false) (a : Word) (v : Byte) :
    (busWrite a v s).video.chr = s.video.chr := by
  unfold busWrite regionWrite
  cases region a with
  | video => exact videoRegWrite_chr h s.video _ v
  | io =>
    simp only [ioWrite]
    split_ifs
    · exact oamCopy_chr _ _ _
    · rfl
    · rfl
  | cartridge => simp only [mapperWrite]; split_ifs <;> rfl
  | ram => rfl
  | unmapped => rfl

/-- The tick's events read pattern memory and never write it (R340 to R357). -/
theorem tickEvent_chr (cfg : Cfg) (cart : Cart) (t : TickState) : (tickEvent cfg cart t).unit.chr = t.unit.chr := by
  unfold tickEvent
  simp only
  split_ifs <;> rfl

theorem advanceDot_chr (u : Video) : (advanceDot u).chr = u.chr := by
  unfold advanceDot
  split <;> rfl

theorem videoTicks_chr (cfg : Cfg) (cart : Cart) (n : Nat) (t : TickState) :
    (videoTicks cfg cart n t).unit.chr = t.unit.chr := by
  induction n generalizing t with
  | zero => rfl
  | succ n ih => exact (ih _).trans ((advanceDot_chr _).trans (tickEvent_chr cfg cart t))

/-- What construction fixes is the same in two states: the parameters, the cartridge's description, every PRG cell, and
pattern memory where a cartridge filled it (R42, R43, R68). -/
structure SameCartridge (s t : State) : Prop where
  cfg : t.cfg = s.cfg
  cart : t.cart = s.cart
  prg : ∀ k, 0x8000 ≤ k → readCell .cpu t.mem k = readCell .cpu s.mem k
  chr : s.cart.chrWritable = false → t.video.chr = s.video.chr

namespace SameCartridge

theorem of_eq {s t : State} (hcfg : t.cfg = s.cfg) (hcart : t.cart = s.cart) (hmem : t.mem = s.mem)
    (hvideo : t.video = s.video) : SameCartridge s t :=
  ⟨hcfg, hcart, fun _ _ => by rw [hmem], fun _ => by rw [hvideo]⟩

theorem trans {s t u : State} (h : SameCartridge s t) (g : SameCartridge t u) : SameCartridge s u where
  cfg := g.cfg.trans h.cfg
  cart := g.cart.trans h.cart
  prg k hk := (g.prg k hk).trans (h.prg k hk)
  chr hw := (g.chr (h.cart ▸ hw)).trans (h.chr hw)

theorem busRead (a : Word) (s : State) : SameCartridge s (busRead a s).state where
  cfg := busRead_cfg a s
  cart := busRead_cart a s
  prg k _ := by rw [busRead_mem]
  chr _ := busRead_chr a s

theorem busWrite (a : Word) (v : Byte) (s : State) : SameCartridge s (busWrite a v s) where
  cfg := busWrite_cfg a v s
  cart := busWrite_cart a v s
  prg _ hk := readCell_busWrite_prg a v s hk
  chr hw := busWrite_chr hw a v

theorem takeHostCalls (s : State) : SameCartridge s (takeHostCalls s) :=
  of_eq (takeHostCalls_cfg s) (takeHostCalls_cart s) (takeHostCalls_mem s) (takeHostCalls_video s)

theorem tickUnits (n : Nat) (s : State) : SameCartridge s (tickUnits n s) where
  cfg := tickUnits_cfg n s
  cart := tickUnits_cart n s
  prg k _ := by rw [tickUnits_mem]
  chr _ := videoTicks_chr s.cfg s.cart _ _

/-- A stored PRG byte is a PRG cell, found through the same cartridge. -/
theorem storedByte {s t : State} (h : SameCartridge s t) {a : Word} (ha : 0x8000 ≤ a.toNat) :
    storedByte t a = storedByte s a := by
  simp only [Machine.storedByte, storageCell_prg ha, h.cart, h.prg _ (prgCell_range s.cart.prgSize a).1]

/-- The elementary operations of an instruction keep what construction fixed. -/
theorem kept (s : State) : Kept (SameCartridge s) where
  cpu _ _ _ _ h := h.trans (of_eq rfl rfl rfl rfl)
  read a t h := h.trans (busRead a t)
  write a v t h := h.trans (busWrite a v t)

theorem step {s t : State} (h : step s = .next t) : SameCartridge s t :=
  step_keeps (kept s) (fun _ hu => hu.trans (of_eq rfl rfl rfl rfl)) (fun u hu => hu.trans (takeHostCalls u))
    (fun n u hu => hu.trans (tickUnits n u)) h (of_eq rfl rfl rfl rfl)

end SameCartridge

/-- Settles O54: bus accesses, host calls and ticks leave what construction fixed alone, so every step does. -/
theorem cartridgeIsFixed : Obligations.CartridgeIsFixed := by
  unfold Obligations.CartridgeIsFixed
  intro s t hst
  have h := SameCartridge.step hst
  exact ⟨h.cfg, h.cart, fun _ ha => h.storedByte ha, h.chr⟩

/-! ## The frame of a read instruction -/

/-- A stored byte depends on the storage, the cartridge and the parameters only. -/
theorem storedByte_congr {s t : State} (hmem : t.mem = s.mem) (hcart : t.cart = s.cart) (hcfg : t.cfg = s.cfg)
    (a : Word) : storedByte t a = storedByte s a := by
  simp only [storedByte, storageCell_congr hcart hcfg, hmem]

theorem readSource_sameBesideReads (src : Source) (s : State) :
    SameBesideReads s.video (readSource src s).state.video := by
  cases src with
  | imm b => rfl
  | mem m =>
    have h := busRead_sameBesideReads (resolve m s).ea (resolve m s).state
    rwa [resolve_video] at h

theorem readSource_input (src : Source) (s : State) :
    (readSource src s).state.input.pad0 = s.input.pad0 ∧ (readSource src s).state.input.pad1 = s.input.pad1 ∧
      (readSource src s).state.input.strobe = s.input.strobe := by
  cases src with
  | imm b => exact ⟨rfl, rfl, rfl⟩
  | mem m =>
    have h := busRead_input (resolve m s).ea (resolve m s).state
    rwa [resolve_input] at h

/-- An operation on an operand that changes the CPU's registers and flags alone. -/
def CpuOnly (op : Byte → State → State) : Prop := ∀ v s, ∃ c, op v s = { s with cpu := c }

/-- A read instruction is one read of its operand and a change of the CPU (R164). -/
theorem readInstr_of_cpuOnly {op : Byte → State → State} (h : CpuOnly op) (src : Source) (s : State) :
    ∃ c, readInstr src op s = { (readSource src (movePc (Source.bytes src) s)).state with cpu := c } := by
  obtain ⟨c, hc⟩ := h (readSource src (movePc (Source.bytes src) s)).value
    (readSource src (movePc (Source.bytes src) s)).state
  exact ⟨_, (congrArg (State.addCycles · (readCycles src + Bool.toNat _)) hc :)⟩

/-- A part of the CPU beside `PC` and `cyc` that the operation leaves alone, the read instruction does. -/
theorem readInstr_keeps {α : Type} (get : Cpu → α) {op : Byte → State → State}
    (hop : ∀ v s, get (op v s).cpu = get s.cpu) (src : Source) (s : State)
    (hpc : ∀ c v, get { c with pc := v } = get c := by intros; rfl)
    (hcyc : ∀ c n, get { c with cyc := n } = get c := by intros; rfl) :
    get (readInstr src op s).cpu = get s.cpu := by
  calc get (readInstr src op s).cpu
      = get (op (readSource src (movePc (Source.bytes src) s)).value
          (readSource src (movePc (Source.bytes src) s)).state).cpu := hcyc _ _
    _ = get (movePc (Source.bytes src) s).cpu := by rw [hop, readSource_cpu]
    _ = get s.cpu := hpc _ _

/-! ## Which operation each encoding runs -/

/-- The operations of the read instructions (R141 to R143, R165 to R173). -/
def readOps : List (Byte → State → State) :=
  [loadInto State.setA, andA, orA, eorA, addToA, subFromA, loadInto State.setX, loadInto State.setY] ++
  [bitA, cmpA, cmpX, cmpY]

/-- Each listed encoding is the read instruction of its operand with one of the operations `ops`. -/
def RunsOneOf (ops : List (Byte → State → State)) (forms : List ReadForm) : Prop :=
  ∀ r ∈ forms, ∃ op ∈ ops, ∀ s, exec r.instr s = .next (readInstr r.src op s)

namespace RunsOneOf

variable {ops ops' : List (Byte → State → State)} {forms forms' : List ReadForm}

/-- The encodings of one mnemonic share one operation; for given encodings the hypothesis is `exec` unfolded at each. -/
theorem single {op : Byte → State → State}
    (h : ∀ r ∈ forms, ∀ s, exec r.instr s = .next (readInstr r.src op s) := by
      intro r hr s; fin_cases hr <;> rfl) : RunsOneOf [op] forms :=
  fun r hr => ⟨op, List.mem_singleton_self op, h r hr⟩

theorem append (h : RunsOneOf ops forms) (h' : RunsOneOf ops' forms') :
    RunsOneOf (ops ++ ops') (forms ++ forms') := by
  intro r hr
  rcases List.mem_append.1 hr with hr | hr
  · obtain ⟨op, hop, he⟩ := h r hr
    exact ⟨op, List.mem_append_left _ hop, he⟩
  · obtain ⟨op, hop, he⟩ := h' r hr
    exact ⟨op, List.mem_append_right _ hop, he⟩

theorem eq_readInstr (h : RunsOneOf ops forms) {r : ReadForm} (hr : r ∈ forms) {s t : State}
    (ht : exec r.instr s = .next t) : ∃ op ∈ ops, t = readInstr r.src op s := by
  obtain ⟨op, hop, he⟩ := h r hr
  exact ⟨op, hop, Host.Outcome.next.inj (ht.symm.trans (he s))⟩

/-- A part of the CPU that every one of the operations leaves alone, `PC` and `cyc` apart, is as it was. For a given part
and given operations the hypotheses hold by definition. -/
theorem keeps {α : Type} (get : Cpu → α) (h : RunsOneOf ops forms) {r : ReadForm} (hr : r ∈ forms) {s t : State}
    (ht : exec r.instr s = .next t)
    (hop : ∀ op ∈ ops, ∀ v s, get (op v s).cpu = get s.cpu := by intro op hop v s; fin_cases hop <;> rfl)
    (hpc : ∀ c v, get { c with pc := v } = get c := by intros; rfl)
    (hcyc : ∀ c n, get { c with cyc := n } = get c := by intros; rfl) : get t.cpu = get s.cpu := by
  obtain ⟨op, hmem, rfl⟩ := h.eq_readInstr hr ht
  exact readInstr_keeps get (hop op hmem) r.src s hpc hcyc

end RunsOneOf

section
variable (b1 b2 : Byte)

theorem ldaForms_run : RunsOneOf [loadInto State.setA] (ldaForms b1 b2) := .single
theorem ldxForms_run : RunsOneOf [loadInto State.setX] (ldxForms b1 b2) := .single
theorem ldyForms_run : RunsOneOf [loadInto State.setY] (ldyForms b1 b2) := .single
theorem andForms_run : RunsOneOf [andA] (andForms b1 b2) := .single
theorem oraForms_run : RunsOneOf [orA] (oraForms b1 b2) := .single
theorem eorForms_run : RunsOneOf [eorA] (eorForms b1 b2) := .single
theorem adcForms_run : RunsOneOf [addToA] (adcForms b1 b2) := .single
theorem sbcForms_run : RunsOneOf [subFromA] (sbcForms b1 b2) := .single
theorem bitForms_run : RunsOneOf [bitA] (bitForms b1 b2) := .single
theorem cmpForms_run : RunsOneOf [cmpA] (cmpForms b1 b2) := .single
theorem cpxForms_run : RunsOneOf [cmpX] (cpxForms b1 b2) := .single
theorem cpyForms_run : RunsOneOf [cmpY] (cpyForms b1 b2) := .single

theorem loadLogicForms_run : RunsOneOf [loadInto State.setA, andA, orA, eorA] (loadLogicForms b1 b2) :=
  (((ldaForms_run b1 b2).append (andForms_run b1 b2)).append (oraForms_run b1 b2)).append (eorForms_run b1 b2)

theorem compareForms_run : RunsOneOf [cmpA, cmpX, cmpY] (cmpForms b1 b2 ++ cpxForms b1 b2 ++ cpyForms b1 b2) :=
  ((cmpForms_run b1 b2).append (cpxForms_run b1 b2)).append (cpyForms_run b1 b2)

theorem testForms_run : RunsOneOf [bitA, cmpA, cmpX, cmpY] (testForms b1 b2) :=
  (((bitForms_run b1 b2).append (cmpForms_run b1 b2)).append (cpxForms_run b1 b2)).append (cpyForms_run b1 b2)

theorem readForms_run : RunsOneOf readOps (readForms b1 b2) :=
  (((((loadLogicForms_run b1 b2).append (adcForms_run b1 b2)).append (sbcForms_run b1 b2)).append
    (ldxForms_run b1 b2)).append (ldyForms_run b1 b2)).append (testForms_run b1 b2)

end

/-! ## The frame of every encoding -/

theorem cpuOnly_of_mem_readOps {op : Byte → State → State} (h : op ∈ readOps) : CpuOnly op := by
  intro v s
  fin_cases h <;> exact ⟨_, rfl⟩

/-- Every read instruction leaves, beside the CPU, the state that its one operand read leaves. -/
theorem readForms_next {b1 b2 : Byte} {r : ReadForm} (hr : r ∈ readForms b1 b2) {s t : State}
    (ht : exec r.instr s = .next t) :
    ∃ c, t = { (readSource r.src (movePc (Source.bytes r.src) s)).state with cpu := c } := by
  obtain ⟨op, hop, rfl⟩ := (readForms_run b1 b2).eq_readInstr hr ht
  exact readInstr_of_cpuOnly (cpuOnly_of_mem_readOps hop) r.src s

/-- `SP`, the fault record, `I` and `D`, which no read instruction writes (R24, R164). -/
theorem readForms_keep_cpu {b1 b2 : Byte} {r : ReadForm} (hr : r ∈ readForms b1 b2) {s t : State}
    (ht : exec r.instr s = .next t) :
    t.cpu.sp = s.cpu.sp ∧ t.cpu.fault = s.cpu.fault ∧ t.cpu.flags.i = s.cpu.flags.i ∧ t.cpu.flags.d = s.cpu.flags.d := by
  simpa only [Prod.mk.injEq] using
    (readForms_run b1 b2).keeps (fun c => (c.sp, c.fault, c.flags.i, c.flags.d)) hr ht

/-- Settles O28: beside the CPU a read instruction leaves what its operand read leaves, and of the CPU each group of
encodings runs operations that keep the registers and flags named. -/
theorem readInstructionsFrame : Obligations.ReadInstructionsFrame := by
  unfold Obligations.ReadInstructionsFrame
  intro b1 b2 s t
  have hacc : RunsOneOf [loadInto State.setA, andA, orA, eorA, addToA, subFromA]
      (loadLogicForms b1 b2 ++ adcForms b1 b2 ++ sbcForms b1 b2) :=
    ((loadLogicForms_run b1 b2).append (adcForms_run b1 b2)).append (sbcForms_run b1 b2)
  have hload : RunsOneOf [loadInto State.setA, andA, orA, eorA, loadInto State.setX, loadInto State.setY]
      (loadLogicForms b1 b2 ++ ldxForms b1 b2 ++ ldyForms b1 b2) :=
    ((loadLogicForms_run b1 b2).append (ldxForms_run b1 b2)).append (ldyForms_run b1 b2)
  refine ⟨fun r hr ht => ?_, fun r hr ht => ?_, fun r hr ht => ?_, fun r hr ht => ?_, fun r hr ht => ?_,
    fun r hr ht => ?_, fun r hr ht => ?_, fun r hr ht => ?_⟩
  · obtain ⟨hsp, hfault, hi, hd⟩ := readForms_keep_cpu hr ht
    obtain ⟨c, rfl⟩ := readForms_next hr ht
    obtain ⟨hpad0, hpad1, hstrobe⟩ := readSource_input r.src (movePc (Source.bytes r.src) s)
    exact ⟨storedByte_congr (readSource_mem _ _) (readSource_cart _ _) (readSource_cfg _ _), hsp, hfault, hi, hd,
      readSource_sameBesideReads r.src (movePc (Source.bytes r.src) s), readSource_audio _ _, hpad0, hpad1, hstrobe,
      readSource_cart _ _, readSource_cfg _ _, readSource_hostCalls _ _⟩
  · exact Prod.mk.inj (hacc.keeps (fun c => (c.x, c.y)) hr ht)
  · exact Prod.mk.inj ((ldxForms_run b1 b2).keeps (fun c => (c.a, c.y)) hr ht)
  · exact Prod.mk.inj ((ldyForms_run b1 b2).keeps (fun c => (c.a, c.x)) hr ht)
  · simpa only [Prod.mk.injEq] using (testForms_run b1 b2).keeps (fun c => (c.a, c.x, c.y)) hr ht
  · exact Prod.mk.inj (hload.keeps (fun c => (c.flags.c, c.flags.v)) hr ht)
  · exact (bitForms_run b1 b2).keeps (fun c => c.flags.c) hr ht
  · exact (compareForms_run b1 b2).keeps (fun c => c.flags.v) hr ht

end Sys2Proof.Machine
end

