-- ==== Sys2Proof/Proofs/Memory.lean ====
section
/-! PROOFS. Statements of `20_memory.md`: the regions and the latch, the mirrors of internal RAM, the bits of a read that come
from the latch, and the bytes of a fetch. -/

namespace Sys2Proof.Machine

open Sys2Proof.Claims

/-! ## Regions -/

/-- The range of addresses R61 gives a region. -/
def Region.Holds : Region → Nat → Prop
  | .ram, n => n ≤ 0x1FFF
  | .video, n => 0x2000 ≤ n ∧ n ≤ 0x3FFF
  | .io, n => 0x4000 ≤ n ∧ n ≤ 0x4017
  | .unmapped, n => 0x4018 ≤ n ∧ n ≤ 0x401F
  | .cartridge, n => 0x4020 ≤ n

theorem region_eq_iff (a : Word) (r : Region) : region a = r ↔ r.Holds a.toNat := by
  unfold region
  cases r <;> split_ifs <;> simp [Region.Holds] <;> omega

theorem region_video {a : Word} (h : 0x2000 ≤ a.toNat) (h' : a.toNat ≤ 0x3FFF) : region a = .video :=
  (region_eq_iff a .video).2 ⟨h, h'⟩

theorem region_io {a : Word} (h : 0x4000 ≤ a.toNat) (h' : a.toNat ≤ 0x4017) : region a = .io :=
  (region_eq_iff a .io).2 ⟨h, h'⟩

theorem region_unmapped {a : Word} (h : 0x4018 ≤ a.toNat) (h' : a.toNat ≤ 0x401F) : region a = .unmapped :=
  (region_eq_iff a .unmapped).2 ⟨h, h'⟩

/-! ## The latch after an access -/

theorem busRead_latch (a : Word) (s : State) : (busRead a s).state.bus.latch = (busRead a s).value := rfl

/-- The transfer apart, a bus write puts the byte on the latch and leaves the line alone (R63). -/
theorem busWrite_bus {a : Word} (h : a ≠ 0x4014) (v : Byte) (s : State) :
    (busWrite a v s).bus = { s.bus with latch := v } := by
  unfold busWrite regionWrite
  cases region a with
  | io => simp only [ioWrite, h, if_false]; split_ifs <;> rfl
  | cartridge => simp only [mapperWrite]; split_ifs <;> rfl
  | ram => rfl
  | video => rfl
  | unmapped => rfl

/-- Settles O32: the regions are their ranges, a read ends by setting the latch to its value, and a write sets it before the
region acts, which leaves it alone unless a transfer starts. -/
theorem everyAccessHasARegionAndDrivesTheLatch : Obligations.EveryAccessHasARegionAndDrivesTheLatch := by
  unfold Obligations.EveryAccessHasARegionAndDrivesTheLatch
  refine ⟨fun a => ?_, busRead_latch, fun a v s h => by rw [busWrite_bus h]⟩
  exact ⟨region_eq_iff a .ram, region_eq_iff a .video, region_eq_iff a .io, region_eq_iff a .unmapped,
    region_eq_iff a .cartridge⟩

/-! ## Internal RAM -/

/-- A read of internal RAM: the cell the mirrors share, and the latch at its byte. -/
theorem busRead_ram {a : Word} (h : a.toNat ≤ 0x1FFF) (s : State) :
    busRead a s =
      { value := readCell .cpu s.mem (a.toNat % 2048)
        state := s.setLatch (readCell .cpu s.mem (a.toNat % 2048)) } :=
  busRead_storage (storageCell_ram h)

/-- Settles O33: both accesses go to the cell at the address modulo 2048, so this is read after write of that cell. -/
theorem ramMirrorsAreOneCell : Obligations.RamMirrorsAreOneCell := by
  unfold Obligations.RamMirrorsAreOneCell
  intro a b v s ha hb
  rw [busWrite_ram ha, busRead_ram hb, busRead_ram hb]
  exact ⟨by simp only [State.setMem_mem, readCell_writeCell, eq_comm], rfl, rfl⟩

/-! ## Values that take some of their bits from the latch -/

theorem getLsbD_masked_of_open {l m p : Byte} {k : Nat} (hm : m.getLsbD k = true) (hp : p.getLsbD k = false) :
    ((l &&& m) ||| p).getLsbD k = l.getLsbD k := by simp [hm, hp]

theorem getLsbD_masked_of_not_open {l m p : Byte} {k : Nat} (hm : m.getLsbD k = false) :
    ((l &&& m) ||| p).getLsbD k = p.getLsbD k := by simp [hm]

theorem masked_all (l : Byte) : (l &&& 0xFF) ||| 0 = l := by
  rw [show (0xFF : Byte) = BitVec.allOnes 8 from rfl, BitVec.and_allOnes]
  exact BitVec.or_zero

/-- VSTATUS has the latch's bits 4..0 beside its own three (R327). -/
theorem vstatus_eq_masked (u : Video) (l : Byte) : vstatus u l = (l &&& 0x1F) ||| vstatus u 0 := by
  refine BitVec.eq_of_getLsbD_eq fun k hk => ?_
  rw [BitVec.getLsbD_or, BitVec.getLsbD_and]
  simp only [vstatus, BitVec.getLsbD_append, BitVec.getLsbD_ofBool, BitVec.getLsbD_extractLsb']
  interval_cases k <;> simp

/-- ASTATUS has the latch's bit 5 beside the channels' four (R389). -/
theorem audioStatus_eq_masked (a : Audio) (l : Byte) : audioStatus a l = (l &&& 0x20) ||| audioStatus a 0 := by
  refine BitVec.eq_of_getLsbD_eq fun k hk => ?_
  rw [BitVec.getLsbD_or, BitVec.getLsbD_and]
  simp only [audioStatus, BitVec.getLsbD_append, BitVec.getLsbD_ofBool]
  interval_cases k <;> simp

/-- VDATA has the latch's bits 7..6 over the palette, and none of the latch below it (R330). -/
theorem dataReadValue_eq_masked (u : Video) (l : Byte) :
    dataReadValue u l = (l &&& if 0x3F00 ≤ u.v.toNat then 0xC0 else 0) ||| dataReadValue u 0 := by
  unfold dataReadValue
  by_cases h : 0x3F00 ≤ u.v.toNat
  · simp [h, Nat.not_lt.2 h]
  · simp [h, Nat.lt_of_not_le h]

/-! ## The bits of a read that come from the latch -/

theorem openBits_video {a : Word} (h : region a = .video) (s : State) :
    openBits s a =
      if a.toNat % 8 = 2 then 0x1F
      else if a.toNat % 8 = 4 then 0
      else if a.toNat % 8 = 7 then (if 0x3F00 ≤ s.video.v.toNat then 0xC0 else 0)
      else 0xFF :=
  if_pos ((region_eq_iff a .video).1 h)

theorem openBits_of_not_video {a : Word} (h : region a ≠ .video) (s : State) :
    openBits s a =
      if a = 0x4015 then 0x20
      else if a = 0x4016 ∨ a = 0x4017 then 0xE0
      else if (storageCell s a).isSome then 0
      else 0xFF :=
  if_neg fun hr => h ((region_eq_iff a .video).2 hr)

/-- Outside the registers a read is all storage or all latch. -/
theorem openBits_of_not_register {a : Word} (hv : region a ≠ .video) (hio : region a ≠ .io) (s : State) :
    openBits s a = if (storageCell s a).isSome then 0 else 0xFF := by
  have h5 : a ≠ 0x4015 := by rintro rfl; exact hio rfl
  have h67 : ¬(a = 0x4016 ∨ a = 0x4017) := by rintro (rfl | rfl) <;> exact hio rfl
  rw [openBits_of_not_video hv, if_neg h5, if_neg h67]

/-- Where nothing is mapped the read answers the latch. -/
theorem regionRead_of_no_storage {a : Word} {s : State} (hv : region a ≠ .video) (hio : region a ≠ .io)
    (h : storageCell s a = none) : regionRead a s = { value := s.bus.latch, state := s } := by
  unfold storageCell at h
  unfold regionRead
  cases hr : region a with
  | ram => simp [hr] at h
  | video => exact absurd hr hv
  | io => exact absurd hr hio
  | unmapped => rfl
  | cartridge => simp only [hr] at h; simp only [mapperRead, h]

/-- A read the region answers with the latch has no effect at all: the latch takes its own value. -/
theorem busRead_of_open {a : Word} {s : State} (h : regionRead a s = { value := s.bus.latch, state := s }) :
    busRead a s = { value := s.bus.latch, state := s } := by
  unfold busRead
  rw [h]
  rfl

theorem busRead_video_value {a : Word} (h : region a = .video) (s : State) :
    (busRead a s).value = (videoRegRead (a.toNat % 8) s).value := by
  simp only [busRead, regionRead, h]

theorem busRead_io_value {a : Word} (h : region a = .io) (s : State) : (busRead a s).value = (ioRead a s).value := by
  simp only [busRead, regionRead, h]

/-- What `openBits` says of a video register: which of its value's bits are the latch's. -/
theorem videoRegRead_eq_masked {a : Word} (h : region a = .video) (s : State) :
    (videoRegRead (a.toNat % 8) s).value =
      (s.bus.latch &&& openBits s a) ||| (videoRegRead (a.toNat % 8) (s.setLatch 0)).value := by
  rw [openBits_video h]
  generalize a.toNat % 8 = r
  unfold videoRegRead
  split
  case h_1 => exact vstatus_eq_masked s.video s.bus.latch
  case h_2 => simp
  case h_3 => exact dataReadValue_eq_masked s.video s.bus.latch
  case h_4 h2 h4 h7 =>
    rw [if_neg h2, if_neg h4, if_neg h7]
    exact (masked_all s.bus.latch).symm

theorem openBits_astatus (s : State) : openBits s 0x4015 = 0x20 := openBits_of_not_video (by decide) s

theorem openBits_port {a : Word} (h : a = 0x4016 ∨ a = 0x4017) (s : State) : openBits s a = 0xE0 := by
  have hv : region a ≠ .video := by obtain rfl | rfl := h <;> decide
  have h5 : a ≠ 0x4015 := by obtain rfl | rfl := h <;> decide
  rw [openBits_of_not_video hv, if_neg h5, if_pos h]

/-- Whatever the latch holds, a controller port reads as its bits 7..5 and one bit shifted out (R451). -/
theorem ioRead_port_value {a : Word} (h : a = 0x4016 ∨ a = 0x4017) (s : State) :
    ∃ strobe pad shift, ∀ l, (ioRead a (s.setLatch l)).value = (l &&& 0xE0) ||| (padRead strobe pad shift).1 := by
  obtain rfl | rfl := h
  · exact ⟨s.input.strobe, s.input.pad0, s.input.shift0, fun _ => rfl⟩
  · exact ⟨s.input.strobe, s.input.pad1, s.input.shift1, fun _ => rfl⟩

/-- The other I/O registers are written only, so a read of them answers the latch (R66, R73). -/
theorem ioRead_of_write_only {a : Word} (h5 : a ≠ 0x4015) (hp : ¬(a = 0x4016 ∨ a = 0x4017)) (s : State) :
    ioRead a s = { value := s.bus.latch, state := s } := by
  obtain ⟨h6, h7⟩ := not_or.1 hp
  simp only [ioRead, if_neg h5, if_neg h6, if_neg h7]

/-- What `openBits` says of an I/O register: bit 5 of ASTATUS, bits 7..5 of the controller ports, all of the others. -/
theorem ioRead_eq_masked {a : Word} (h : region a = .io) (s : State) :
    (ioRead a s).value = (s.bus.latch &&& openBits s a) ||| (ioRead a (s.setLatch 0)).value := by
  by_cases h5 : a = 0x4015
  · subst h5
    rw [openBits_astatus]
    exact audioStatus_eq_masked s.audio s.bus.latch
  by_cases hp : a = 0x4016 ∨ a = 0x4017
  · obtain ⟨strobe, pad, shift, hval⟩ := ioRead_port_value hp s
    have hs : (ioRead a s).value = (s.bus.latch &&& 0xE0) ||| (padRead strobe pad shift).1 := hval s.bus.latch
    rw [openBits_port hp, hs, hval 0]
    simp
  · have hv : region a ≠ .video := by simp [h]
    have hs : storageCell s a = none := by simp [storageCell, h]
    rw [openBits_of_not_video hv, if_neg h5, if_neg hp, hs, ioRead_of_write_only h5 hp, ioRead_of_write_only h5 hp]
    exact (masked_all s.bus.latch).symm

/-- THE LATCH IN A READ (R73): the bits of `openBits` are the latch's, beside what the read gives with the latch at 0. -/
theorem busRead_eq_masked (a : Word) (s : State) :
    (busRead a s).value = (s.bus.latch &&& openBits s a) ||| (busRead a (s.setLatch 0)).value := by
  by_cases hv : region a = .video
  · simp only [busRead_video_value hv]
    exact videoRegRead_eq_masked hv s
  by_cases hio : region a = .io
  · simp only [busRead_io_value hio]
    exact ioRead_eq_masked hio s
  rw [openBits_of_not_register hv hio]
  cases hs : storageCell s a with
  | some k =>
    have hs0 : storageCell (s.setLatch 0) a = some k := hs
    rw [busRead_storage hs, busRead_storage hs0]
    simp
  | none =>
    have hs0 : storageCell (s.setLatch 0) a = none := hs
    rw [busRead_of_open (regionRead_of_no_storage hv hio hs), busRead_of_open (regionRead_of_no_storage hv hio hs0)]
    exact (masked_all s.bus.latch).symm

/-- A bit outside `openBits` is the same whatever the latch holds. -/
theorem busRead_getLsbD_of_not_open {a : Word} {s : State} {k : Nat} (h : (openBits s a).getLsbD k = false)
    (latch : Byte) : (busRead a (s.setLatch latch)).value.getLsbD k = (busRead a s).value.getLsbD k := by
  have h' : (openBits (s.setLatch latch) a).getLsbD k = false := h
  rw [busRead_eq_masked a (s.setLatch latch), busRead_eq_masked a s, getLsbD_masked_of_not_open h,
    getLsbD_masked_of_not_open h']
  rfl

/-! ## The registers with open bits -/

theorem getLsbD_vstatus_of_lt (u : Video) {k : Nat} (h : k < 5) : (vstatus u 0).getLsbD k = false := by
  simp only [vstatus, BitVec.getLsbD_append, h]
  simp

theorem getLsbD_audioStatus_five (a : Audio) : (audioStatus a 0).getLsbD 5 = false := by
  simp only [audioStatus, BitVec.getLsbD_append, BitVec.getLsbD_ofBool]
  simp

/-- A palette entry is a colour index, so the two open bits above it are 0 (R330, R37). -/
theorem getLsbD_palByte {u : Video} {cart : Cart} (h : u.canonical cart = true) (i : Nat) {k : Nat} (hk : 6 ≤ k) :
    (palByte u i).getLsbD k = false := by
  obtain ⟨_, _, _, hpal, _⟩ := (Video.canonical_iff cart u).1 h
  have hlt : (palByte u i).toNat < 2 ^ k :=
    lt_of_lt_of_le (palByte_lt hpal i) (Nat.pow_le_pow_right (by decide : 0 < 2) hk)
  exact Nat.testBit_lt_two_pow hlt

/-- A controller port gives one bit (R451). -/
theorem getLsbD_padRead (strobe : Bool) (pad shift : Byte) {k : Nat} (hk : k ≠ 0) :
    (padRead strobe pad shift).1.getLsbD k = false := by
  cases strobe <;> simp [padRead, hk]

/-- A bit of `openBits` is the latch's where the read gives 0 beside it. -/
theorem busRead_getLsbD_of_open {a : Word} {s : State} {k : Nat} (h : (openBits s a).getLsbD k = true)
    (h0 : (busRead a (s.setLatch 0)).value.getLsbD k = false) :
    (busRead a s).value.getLsbD k = s.bus.latch.getLsbD k := by
  rw [busRead_eq_masked a s, getLsbD_masked_of_open h h0]

theorem busRead_vstatus_getLsbD {a : Word} (hv : region a = .video) (h2 : a.toNat % 8 = 2) (s : State) {k : Nat}
    (hk : k < 5) : (busRead a s).value.getLsbD k = s.bus.latch.getLsbD k := by
  refine busRead_getLsbD_of_open ?_ ?_
  · rw [openBits_video hv, if_pos h2]
    exact (by decide : ∀ k < 5, (0x1F : Byte).getLsbD k = true) k hk
  · rw [busRead_video_value hv, h2]
    exact getLsbD_vstatus_of_lt s.video hk

theorem busRead_vdata_getLsbD {a : Word} (hv : region a = .video) (h7 : a.toNat % 8 = 7) {s : State}
    (hp : 0x3F00 ≤ s.video.v.toNat) (hc : s.video.canonical s.cart = true) {k : Nat} (hk : k ∈ [6, 7]) :
    (busRead a s).value.getLsbD k = s.bus.latch.getLsbD k := by
  have hk6 : 6 ≤ k := by fin_cases hk <;> decide
  refine busRead_getLsbD_of_open ?_ ?_
  · rw [openBits_video hv, h7]
    simp only [hp, if_true]
    fin_cases hk <;> decide
  · rw [busRead_video_value hv, h7]
    show (dataReadValue s.video 0).getLsbD k = false
    simp [dataReadValue, Nat.not_lt.2 hp, getLsbD_palByte hc _ hk6]

theorem busRead_astatus_getLsbD (s : State) : (busRead 0x4015 s).value.getLsbD 5 = s.bus.latch.getLsbD 5 :=
  busRead_getLsbD_of_open (by rw [openBits_astatus]; decide) (getLsbD_audioStatus_five s.audio)

theorem busRead_port_getLsbD {a : Word} (ha : a = 0x4016 ∨ a = 0x4017) (s : State) {k : Nat} (hk : k ∈ [5, 6, 7]) :
    (busRead a s).value.getLsbD k = s.bus.latch.getLsbD k := by
  have hk0 : k ≠ 0 := by rintro rfl; simp at hk
  have hio : region a = .io := by obtain rfl | rfl := ha <;> decide
  refine busRead_getLsbD_of_open ?_ ?_
  · rw [openBits_port ha]
    fin_cases hk <;> decide
  · obtain ⟨strobe, pad, shift, hval⟩ := ioRead_port_value ha s
    rw [busRead_io_value hio, hval]
    simp [getLsbD_padRead strobe pad shift hk0]

/-! ## The reads that are all latch -/

/-- The video registers that are written only (R73, R321). -/
theorem videoRegRead_of_write_only {r : Nat} (h : r ∈ [0, 1, 3, 5, 6]) (s : State) :
    videoRegRead r s = { value := s.bus.latch, state := s } := by
  fin_cases h <;> rfl

/-- Settles O35: the latch-only reads by their regions, the bits of each partly open register, and completeness as the
masked form of every read. -/
theorem openBusReads : Obligations.OpenBusReads := by
  unfold Obligations.OpenBusReads
  intro a s
  refine ⟨?_, fun h h' h2 k hk => busRead_vstatus_getLsbD (region_video h h') h2 s hk,
    fun h h' h7 hp hc k hk => busRead_vdata_getLsbD (region_video h h') h7 hp hc hk,
    fun ha => by rw [ha]; exact busRead_astatus_getLsbD s, fun ha k hk => busRead_port_getLsbD ha s hk,
    fun latch k _ h => busRead_getLsbD_of_not_open h latch⟩
  rintro (⟨h, h', hr⟩ | ⟨h, h'⟩ | ⟨h, h'⟩ | ⟨h, hs⟩) <;> apply busRead_of_open
  · simp only [regionRead, region_video h h', videoRegRead_of_write_only hr]
  · have h5 : a ≠ 0x4015 := by rintro rfl; exact absurd h' (by decide)
    have hp : ¬(a = 0x4016 ∨ a = 0x4017) := by rintro (rfl | rfl) <;> exact absurd h' (by decide)
    simp only [regionRead, region_io h (by omega), ioRead_of_write_only h5 hp]
  · simp only [regionRead, region_unmapped h h']
  · exact regionRead_of_no_storage (by simp [region_cartridge h]) (by simp [region_cartridge h]) hs

/-! ## The fetch -/

/-- Bytes that decode to an instruction with none left over are as many as the opcode's shape asks for. -/
theorem length_of_decode {op : Byte} {bytes : List Byte} {i : Instr} (h : decode (op :: bytes) = .ok i []) :
    ∃ sh, opcodeShape op = some sh ∧ bytes.length = sh.length - 1 := by
  obtain ⟨_, hsh, hb⟩ | ⟨_, f, b1, hsh, -, hb⟩ | ⟨_, f, b1, b2, hsh, -, hb⟩ := decode_ok h <;>
    obtain ⟨rfl, rfl⟩ := List.cons.inj hb <;> exact ⟨_, hsh, rfl⟩

/-- Settles O5: what decodes has the opcode's length, so the bytes read are those the fetch reads. -/
theorem fetchIsBusReads : Obligations.FetchIsBusReads := by
  unfold Obligations.FetchIsBusReads
  intro s n i h
  obtain ⟨sh, hsh, hn⟩ := length_of_decode h
  rw [readBytes_length] at hn
  subst hn
  exact fetch_of_decode hsh h

end Sys2Proof.Machine
end

