-- ==== Sys2Proof/Proofs/Encoding.lean ====
section
/-! PROOFS. Statements of `30_encoding.md`: the encoder and the decoder are inverse, the bytes that are no opcode, the step
that runs what the decoder reads, and the effective addresses. -/

namespace Sys2Proof.Machine

open Sys2Proof.Claims

/-! ## Encoding and decoding are inverse -/

/-- The instruction of a matrix entry, with operand byte `b` in format F2 and operand word `w` in format F3 (R101). -/
def shapeInstr (b : Byte) (w : Word) : Shape → Instr
  | .f1 i => i
  | .f2 f => f b
  | .f3 f => f w

/-- The operand bytes each format has after the opcode, the low byte first (R101). -/
def shapeOperands (b : Byte) (w : Word) : Shape → List Byte
  | .f1 _ => []
  | .f2 _ => [b]
  | .f3 _ => [loByte w, hiByte w]

/-- The matrix of R111 and the encodings of files 40 to 45 agree at each of the 256 bytes. -/
theorem map_encode_opcodeShape (op b : Byte) (w : Word) :
    (opcodeShape op).map (fun sh => encode (shapeInstr b w sh)) =
      (opcodeShape op).map fun sh => op :: shapeOperands b w sh := by
  obtain ⟨n⟩ := op
  fin_cases n <;> rfl

/-- The encoder writes an entry's instruction as the entry's own opcode byte and the operand it holds. -/
theorem encode_shapeInstr {op : Byte} {sh : Shape} (h : opcodeShape op = some sh) (b : Byte) (w : Word) :
    encode (shapeInstr b w sh) = op :: shapeOperands b w sh := by
  have hmap := map_encode_opcodeShape op b w
  rw [h] at hmap
  exact Option.some.inj hmap

/-- Nothing but an encoding is accepted. -/
theorem eq_encode_append_of_decode {bytes rest : List Byte} {i : Instr} (h : decode bytes = .ok i rest) :
    bytes = encode i ++ rest := by
  obtain ⟨op, hsh, rfl⟩ | ⟨op, f, b1, hsh, rfl, rfl⟩ | ⟨op, f, b1, b2, hsh, rfl, rfl⟩ := decode_ok h
  · have he : encode i = [op] := encode_shapeInstr hsh 0 0
    rw [he, List.singleton_append]
  · have he : encode (f b1) = [op, b1] := encode_shapeInstr hsh b1 0
    rw [he]
    rfl
  · have he : encode (f (mkWord b2 b1)) = [op, loByte (mkWord b2 b1), hiByte (mkWord b2 b1)] :=
      encode_shapeInstr hsh 0 (mkWord b2 b1)
    rw [he, loByte_mkWord, hiByte_mkWord]
    rfl

open Laws.RoundTrip in
/-- Every encoding is accepted, one lemma of `Laws.RoundTrip` for each constructor. -/
theorem decode_encode_append (i : Instr) (rest : List Byte) : decode (encode i ++ rest) = .ok i rest :=
  Instr.rec (motive := Statement)
    ldaImm ldaZp ldaZpx ldaAbs ldaAbx ldaAby ldaIzx ldaIzy ldxImm ldxZp ldxZpy ldxAbs ldxAby ldyImm ldyZp ldyZpx ldyAbs
    ldyAbx staZp staZpx staAbs staAbx staAby staIzx staIzy stxZp stxZpy stxAbs styZp styZpx styAbs tax tay txa tya tsx txs
    pha php pla plp andImm andZp andZpx andAbs andAbx andAby andIzx andIzy oraImm oraZp oraZpx oraAbs oraAbx oraAby oraIzx
    oraIzy eorImm eorZp eorZpx eorAbs eorAbx eorAby eorIzx eorIzy bitZp bitAbs adcImm adcZp adcZpx adcAbs adcAbx adcAby
    adcIzx adcIzy sbcImm sbcZp sbcZpx sbcAbs sbcAbx sbcAby sbcIzx sbcIzy cmpImm cmpZp cmpZpx cmpAbs cmpAbx cmpAby cmpIzx
    cmpIzy cpxImm cpxZp cpxAbs cpyImm cpyZp cpyAbs incZp incZpx incAbs incAbx inx iny decZp decZpx decAbs decAbx dex dey
    aslZp aslZpx aslAbs aslAbx aslAcc lsrZp lsrZpx lsrAbs lsrAbx lsrAcc rolZp rolZpx rolAbs rolAbx rolAcc rorZp rorZpx
    rorAbs rorAbx rorAcc jmpAbs jmpInd jsr rts bpl bmi bvc bvs bcc bcs bne beq clc sec cli sei clv cld sed nop brk rti
    i rest

theorem length_memMode_bytes (m : MemMode) : m.bytes.length + 1 = m.length := by cases m <;> rfl

theorem length_operand_bytes (o : Operand) : o.bytes.length + 1 = o.length := by
  cases o with
  | mem m => exact length_memMode_bytes m
  | imp | acc | imm | ind | rel => rfl

/-- Settles O1: what the decoder accepts is an encoding since the matrix and the encoder agree at every byte, and it reads
every encoding back by the lemmas of `Laws.RoundTrip`. -/
theorem decodeReadsBackEncode : Obligations.DecodeReadsBackEncode := by
  unfold Obligations.DecodeReadsBackEncode
  intro i bytes rest
  refine ⟨⟨eq_encode_append_of_decode, ?_⟩, length_operand_bytes i.operand⟩
  rintro rfl
  exact decode_encode_append i rest

/-! ## The bytes that are no opcode -/

/-- The decoder refuses a byte as an illegal opcode exactly where the matrix has no entry for it. -/
theorem decode_eq_illegalOpcode_iff (op : Byte) (rest : List Byte) :
    decode (op :: rest) = .reject (.illegalOpcode op) ↔ opcodeShape op = none := by
  refine ⟨fun h => ?_, fun h => decode_illegal h rest⟩
  cases hsh : opcodeShape op with
  | none => rfl
  | some sh =>
    cases sh with
    | f1 i => simp [decode, hsh] at h
    | f2 f => cases rest <;> simp [decode, hsh] at h
    | f3 f => rcases rest with _ | ⟨b1, _ | ⟨b2, rest⟩⟩ <;> simp [decode, hsh] at h

/-- Settles O2: the decoder refuses where the matrix has no entry, and those are the bytes of the list. -/
theorem illegalBytesAreTheListOf105 : Obligations.IllegalBytesAreTheListOf105 := by
  unfold Obligations.IllegalBytesAreTheListOf105
  refine ⟨by decide, by decide, fun op rest => ?_⟩
  rw [decode_eq_illegalOpcode_iff, ← Option.isNone_iff_eq_none, opcodeShape_isNone_iff]

/-! ## The step -/

/-- Fetching stored bytes that decode: the instruction, and the last of the bytes on the latch (R100). -/
theorem fetch_of_stored {s : State} {bytes : List Byte} {i : Instr} (hd : decode bytes = .ok i [])
    (hs : StoredAt s s.cpu.pc bytes) : fetch s = .instr i (s.setLatch (bytes.getLastD 0)) := by
  cases bytes with
  | nil => simp [decode] at hd
  | cons op rest =>
    have hread : readBytes (rest.length + 1) s.cpu.pc s =
        { bytes := op :: rest, state := s.setLatch ((op :: rest).getLastD 0) } := readBytes_stored hs s.bus.latch
    obtain ⟨hbytes, hstate⟩ := BytesAccess.mk.inj hread
    obtain ⟨hop, hrest⟩ := List.cons.inj hbytes
    rw [← hstate]
    refine fetchIsBusReads s rest.length i ?_
    rw [hop, hrest]
    exact hd

/-- What follows a CPU step, as the repeated ticks of R300. -/
theorem tickUnits_eq_ticked (c : Nat) (s : State) : tickUnits c s = ticked c s := by
  simp only [tickUnits, videoTicks_iterate, audioTicks_iterate, Config.ppuPerCpu, Config.apuPerCpu, one_mul]
  rfl

/-- Settles O4: the fetch of the stored bytes gives `i` and the latch, the CPU step runs it, and the ticks that follow are
the repeated ones. -/
theorem stepRunsDecodedInstruction : Obligations.StepRunsDecodedInstruction := by
  unfold Obligations.StepRunsDecodedInstruction
  refine ⟨?_, tickUnits_eq_ticked, videoTicks_iterate, audioTicks_iterate⟩
  rintro s h u bytes i hfault rfl hint hd hs hexec
  rw [← interruptTaken_eq] at hint
  rw [step_of_not_faulted hfault, advance_of_fetch hint (fetch_of_stored hd hs) hexec, tickUnits_eq_ticked]
  rfl

/-! ## Effective addresses -/

/-- A byte as an address is its number (R7). -/
theorem zext16_eq_ofNat (b : Byte) : zext16 b = BitVec.ofNat 16 b.toNat := by
  rw [← zext16_toNat, BitVec.ofNat_toNat, BitVec.setWidth_eq]

/-- A zero-page sum wraps inside the zero page (R104). -/
theorem zext16_add_eq_ofNat (b index : Byte) :
    zext16 (b + index) = BitVec.ofNat 16 ((b.toNat + index.toNat) % 256) := by
  rw [zext16_eq_ofNat, BitVec.toNat_add]

theorem hiByte_toNat (w : Word) : (hiByte w).toNat = w.toNat / 256 := by
  have hw : w.toNat < 65536 := w.isLt
  unfold hiByte
  rw [BitVec.extractLsb'_toNat, Nat.shiftRight_eq_div_pow]
  omega

/-- Two addresses are on different pages where their numbers differ above the low byte (R105). -/
theorem pageDiffers_eq (a b : Word) : pageDiffers a b = decide (a.toNat / 256 ≠ b.toNat / 256) := by
  unfold pageDiffers
  rw [Bool.eq_iff_iff, bne_iff_ne, decide_eq_true_iff, ne_eq, ← BitVec.toNat_inj, hiByte_toNat, hiByte_toNat]

/-- An indexed address and its flag as numbers: the sum is modulo 65536 (R105). -/
theorem indexed_eq (base : Word) (index : Byte) (s : State) :
    indexed base index s =
      { ea := BitVec.ofNat 16 ((base.toNat + index.toNat) % 65536)
        crossed := decide ((base.toNat + index.toNat) % 65536 / 256 ≠ base.toNat / 256)
        state := s } := by
  have hsum : (base + zext16 index).toNat = (base.toNat + index.toNat) % 65536 := by
    rw [BitVec.toNat_add, zext16_toNat]
  simp only [indexed, pageDiffers_eq]
  rw [← hsum, BitVec.ofNat_toNat, BitVec.setWidth_eq]

/-- Settles O27: the immediate, zero-page and absolute modes by definition and by the sums as numbers; the pointer modes by
the pointer in the zero page, which puts its high byte on the latch. -/
theorem effectiveAddresses : Obligations.EffectiveAddresses := by
  unfold Obligations.EffectiveAddresses
  refine ⟨fun _ _ => rfl, ?source, fun b w s =>
    ⟨?zp, ?zpx, ?zpy, rfl, indexed_eq w s.cpu.x s, indexed_eq w s.cpu.y s, ?izx, ?izy⟩⟩
  case source => rintro m s e d rfl rfl; rfl
  case zp => simp only [resolve, zext16_eq_ofNat]
  case zpx => simp only [resolve, zext16_add_eq_ofNat]
  case zpy => simp only [resolve, zext16_add_eq_ofNat]
  case izx =>
    rintro z lo hi rfl rfl rfl
    simp only [resolve, read16zp_eq, BitVec.toNat_add]
    rfl
  case izy =>
    rintro lo hi rfl rfl
    simp only [resolve, read16zp_eq, indexed_eq, BitVec.toNat_add]
    rfl

end Sys2Proof.Machine
end

