-- ==== Sys2Proof/Proofs/LoadStore.lean ====
section
/-! PROOFS. Statements of `40_load_store.md`: the words of the spec's examples, the loads and the stores in every mode, and the
frame of the stores. A table row (`ReadRow`, `StoreRow`) is compared with the model once; the rules follow from the shapes
`readInstr` and `storeInstr`. -/

namespace Sys2Proof.Machine

open Sys2Proof.Claims

/-! ## Words of the examples -/

/-- Settles O3: each word is the encoding of its instruction, which the decoder reads back with the bytes left over. -/
theorem wordsWrittenOutDecode : Obligations.WordsWrittenOutDecode := by
  unfold Obligations.WordsWrittenOutDecode
  exact ⟨decode_encode_append (.ldaAbx 0x02F0) [], decode_encode_append (.staIzy 0x10) [],
    decode_encode_append .php [], decode_encode_append (.sbcImm 0x01) [], decode_encode_append .aslAcc [],
    decode_encode_append (.jmpInd 0x02FF) [], decode_encode_append (.bne 0xFE) [0xEA], decode_encode_append .brk []⟩

/-! ## Read instructions -/

/-- A listed encoding of a read instruction has the bytes, the length, the base cost and the penalty of the model's tables
(R113): the penalty is listed wherever the operand's address can cross a page. -/
structure ReadRow (r : ReadForm) : Prop where
  decodes : decode r.bytes = .ok r.instr []
  length : r.bytes.length = Source.bytes r.src
  base : r.base = readCycles r.src
  penalty : ∀ s, (r.penalty && (readSource r.src s).crossed) = (readSource r.src s).crossed

theorem readForms_readRow (b1 b2 : Byte) : ∀ r ∈ readForms b1 b2, ReadRow r := by
  intro r hr
  fin_cases hr <;> exact ⟨rfl, rfl, rfl, fun _ => rfl⟩

theorem encode_of_decode {bytes : List Byte} {i : Instr} (h : decode bytes = .ok i []) : encode i = bytes := by
  rw [eq_encode_append_of_decode h, List.append_nil]

/-- A read instruction whose operation is a change of the CPU: the state its operand read leaves, the CPU so changed, and
the cost on `cyc` (R100, R110). -/
theorem readInstr_eq {op : Byte → State → State} {effect : Cpu → Byte → Cpu}
    (hop : ∀ v s, op v s = { s with cpu := effect s.cpu v }) (hcyc : ∀ c v, (effect c v).cyc = c.cyc) (src : Source)
    (s : State) :
    readInstr src op s =
      { (readSource src (movePc (Source.bytes src) s)).state with
        cpu :=
          { effect (movePc (Source.bytes src) s).cpu (readSource src (movePc (Source.bytes src) s)).value with
            cyc := s.cpu.cyc + readCycles src +
              if (readSource src (movePc (Source.bytes src) s)).crossed then 1 else 0 } } := by
  unfold readInstr
  simp only [hop, State.addCycles, readSource_cpu, hcyc, movePc_cyc, Nat.add_assoc, Bool.toNat, cond_eq_ite]

/-- THE RULE OF A READ INSTRUCTION, from the operation its encodings run and that operation's change of the CPU. For given
encodings the last hypothesis is the listing of `readForms`. -/
theorem readRule_of_runs {forms : Byte → Byte → List ReadForm} {op : Byte → State → State} {effect : Cpu → Byte → Cpu}
    (hrun : ∀ b1 b2, RunsOneOf [op] (forms b1 b2)) (hop : ∀ v s, op v s = { s with cpu := effect s.cpu v })
    (hcyc : ∀ c v, (effect c v).cyc = c.cyc)
    (hsub : ∀ b1 b2 r, r ∈ forms b1 b2 → r ∈ readForms b1 b2 := by
      intro b1 b2 r hr
      simp only [readForms, loadLogicForms, testForms, List.mem_append, hr, true_or, or_true]) :
    ReadRule forms effect := by
  intro b1 b2 s r hr
  have row := readForms_readRow b1 b2 r (hsub b1 b2 r hr)
  obtain ⟨op', hmem, hexec⟩ := hrun b1 b2 r hr
  obtain rfl := List.mem_singleton.1 hmem
  refine ⟨encode_of_decode row.decodes, ?_⟩
  rw [hexec, readInstr_eq hop hcyc, row.length, row.base, row.penalty]
  rfl

/-! ## Loads -/

/-- `SetNZ` as the statements write it (R8). -/
theorem setNZ_eq_nz (f : Flags) (v : Byte) : f.setNZ v = nz v f := rfl

theorem loadInto_setA (v : Byte) (s : State) :
    loadInto State.setA v s = { s with cpu := { s.cpu with a := v, flags := nz v s.cpu.flags } } := by
  rw [← setNZ_eq_nz]; rfl

theorem loadInto_setX (v : Byte) (s : State) :
    loadInto State.setX v s = { s with cpu := { s.cpu with x := v, flags := nz v s.cpu.flags } } := by
  rw [← setNZ_eq_nz]; rfl

theorem loadInto_setY (v : Byte) (s : State) :
    loadInto State.setY v s = { s with cpu := { s.cpu with y := v, flags := nz v s.cpu.flags } } := by
  rw [← setNZ_eq_nz]; rfl

/-- Settles O14: each load runs `loadInto` of its register, which changes the register, `Z` and `N`. -/
theorem loadsReadOneByteIntoTheRegister : Obligations.LoadsReadOneByteIntoTheRegister := by
  unfold Obligations.LoadsReadOneByteIntoTheRegister
  exact ⟨readRule_of_runs ldaForms_run loadInto_setA (fun _ _ => rfl),
    readRule_of_runs ldxForms_run loadInto_setX (fun _ _ => rfl),
    readRule_of_runs ldyForms_run loadInto_setY (fun _ _ => rfl)⟩

/-! ## Stores -/

/-- A listed encoding of a store has the bytes, the length and the cost of the model's tables (R113), and runs the store of
its register. -/
structure StoreRow (reg : Cpu → Byte) (r : WriteForm) : Prop where
  decodes : decode r.bytes = .ok r.instr []
  length : r.bytes.length = r.mode.length
  base : r.base = storeCycles r.mode
  runs : ∀ s, exec r.instr s = .next (storeInstr r.mode (reg s.cpu) s)

theorem staForms_storeRow (b1 b2 : Byte) : ∀ r ∈ staForms b1 b2, StoreRow Cpu.a r := by
  intro r hr
  fin_cases hr <;> exact ⟨rfl, rfl, rfl, fun _ => rfl⟩

theorem stxForms_storeRow (b1 b2 : Byte) : ∀ r ∈ stxForms b1 b2, StoreRow Cpu.x r := by
  intro r hr
  fin_cases hr <;> exact ⟨rfl, rfl, rfl, fun _ => rfl⟩

theorem styForms_storeRow (b1 b2 : Byte) : ∀ r ∈ styForms b1 b2, StoreRow Cpu.y r := by
  intro r hr
  fin_cases hr <;> exact ⟨rfl, rfl, rfl, fun _ => rfl⟩

/-- A store: the state of one bus write at the effective address, `PC` past the instruction, and the fixed cost with what a
transfer adds (R140, R447). -/
theorem storeInstr_eq (m : MemMode) (v : Byte) (s : State) :
    storeInstr m v s =
      { busWrite (resolve m (movePc m.length s)).ea v (resolve m (movePc m.length s)).state with
        cpu :=
          { s.cpu with
            pc := s.cpu.pc + BitVec.ofNat 16 m.length
            cyc := s.cpu.cyc + storeCycles m +
              transferCost (resolve m (movePc m.length s)).ea (s.cpu.cyc + storeCycles m) s.cfg } } := by
  unfold storeInstr
  simp only [State.addCycles, busWrite_cpu, resolve_cpu, movePc_cyc, Nat.add_assoc]
  rfl

theorem storeRule_of_rows {forms : Byte → Byte → List WriteForm} {reg : Cpu → Byte}
    (h : ∀ b1 b2, ∀ r ∈ forms b1 b2, StoreRow reg r) : StoreRule forms reg := by
  intro b1 b2 s r hr
  have row := h b1 b2 r hr
  refine ⟨encode_of_decode row.decodes, ?_⟩
  rw [row.runs, storeInstr_eq, row.length, row.base]
  rfl

/-- Settles O15: every row of the three tables is a store of its register. -/
theorem storesWriteTheRegisterOnce : Obligations.StoresWriteTheRegisterOnce := by
  unfold Obligations.StoresWriteTheRegisterOnce
  exact ⟨storeRule_of_rows staForms_storeRow, storeRule_of_rows stxForms_storeRow,
    storeRule_of_rows styForms_storeRow⟩

/-! ## The frame of one bus write -/

/-- What an access at `ea` leaves as it was, from `s` to `t`: the other cells, all storage where `ea` has none that takes
writes, a unit whose window `ea` is not in, and the rest of the machine beside the CPU. -/
structure WriteFrame (ea : Word) (s t : State) : Prop where
  other : ∀ a, storageCell s a ≠ storageCell s ea → storedByte t a = storedByte s a
  readOnly : storageCell s ea = none ∨ 0x8000 ≤ ea.toNat → ∀ a, storedByte t a = storedByte s a
  video : region ea ≠ .video → ea ≠ 0x4014 → t.video = s.video ∧ t.bus.intLine = s.bus.intLine
  io : region ea ≠ .io → t.audio = s.audio ∧ t.input = s.input
  cart : t.cart = s.cart
  cfg : t.cfg = s.cfg
  hostCalls : t.hostCalls = s.hostCalls

/-- Where the address has no storage, or read-only storage, a bus write stores nothing (R443). -/
theorem busWrite_mem_of_readOnly {a : Word} {s : State} (h : storageCell s a = none ∨ 0x8000 ≤ a.toNat) (v : Byte) :
    (busWrite a v s).mem = s.mem := by
  rw [busWrite_mem]
  obtain h | h := h
  · simp only [h]
  · simp only [if_neg (Nat.not_lt.2 h)]
    split <;> rfl

/-- A bus write reaches no cell but that of its address. -/
theorem storedByte_busWrite_other {ea a : Word} {s : State} (h : storageCell s a ≠ storageCell s ea) (v : Byte) :
    storedByte (busWrite ea v s) a = storedByte s a := by
  simp only [storedByte, storageCell_congr (busWrite_cart ea v s) (busWrite_cfg ea v s), busWrite_mem]
  cases ha : storageCell s a with
  | none => rfl
  | some j =>
    cases he : storageCell s ea with
    | none => rfl
    | some k =>
      have hjk : j ≠ k := fun hjk => h (by rw [ha, he, hjk])
      by_cases hlt : ea.toNat < 0x8000
      · simp only [if_pos hlt, readCell_writeCell_other .cpu s.mem v hjk]
      · simp only [if_neg hlt]

/-- Outside the video registers, the transfer apart, a bus write leaves the video unit alone. -/
theorem busWrite_video {a : Word} (hv : region a ≠ .video) (h : a ≠ 0x4014) (v : Byte) (s : State) :
    (busWrite a v s).video = s.video := by
  unfold busWrite regionWrite
  cases hr : region a with
  | video => exact absurd hr hv
  | io => simp only [ioWrite, if_neg h]; split_ifs <;> rfl
  | cartridge => simp only [mapperWrite]; split_ifs <;> rfl
  | ram => rfl
  | unmapped => rfl

/-- Outside the I/O window a bus write leaves the audio unit and the controller ports alone. -/
theorem busWrite_audio_input {a : Word} (h : region a ≠ .io) (v : Byte) (s : State) :
    (busWrite a v s).audio = s.audio ∧ (busWrite a v s).input = s.input := by
  unfold busWrite regionWrite
  cases hr : region a with
  | io => exact absurd hr h
  | cartridge => simp only [mapperWrite]; split_ifs <;> exact ⟨rfl, rfl⟩
  | ram => exact ⟨rfl, rfl⟩
  | video => exact ⟨rfl, rfl⟩
  | unmapped => exact ⟨rfl, rfl⟩

theorem writeFrame_busWrite (ea : Word) (v : Byte) (s : State) : WriteFrame ea s (busWrite ea v s) where
  other _ h := storedByte_busWrite_other h v
  readOnly h := storedByte_congr (busWrite_mem_of_readOnly h v) (busWrite_cart ea v s) (busWrite_cfg ea v s)
  video hv h := ⟨busWrite_video hv h v s, by rw [busWrite_bus h]⟩
  io h := busWrite_audio_input h v s
  cart := busWrite_cart ea v s
  cfg := busWrite_cfg ea v s
  hostCalls := busWrite_hostCalls ea v s

/-- Resolving an address leaves everything the frame names, whatever the address of the access (R103 to R108). -/
theorem writeFrame_resolve (ea : Word) (m : MemMode) (s : State) : WriteFrame ea s (resolve m s).state where
  other a _ := storedByte_congr (resolve_mem m s) (resolve_cart m s) (resolve_cfg m s) a
  readOnly _ := storedByte_congr (resolve_mem m s) (resolve_cart m s) (resolve_cfg m s)
  video _ _ := ⟨resolve_video m s, resolve_intLine m s⟩
  io _ := ⟨resolve_audio m s, resolve_input m s⟩
  cart := resolve_cart m s
  cfg := resolve_cfg m s
  hostCalls := resolve_hostCalls m s

theorem WriteFrame.trans {ea : Word} {s t u : State} (h : WriteFrame ea s t) (g : WriteFrame ea t u) :
    WriteFrame ea s u where
  other a ha := (g.other a (by rwa [storageCell_congr h.cart h.cfg, storageCell_congr h.cart h.cfg])).trans (h.other a ha)
  readOnly he a := (g.readOnly (by rwa [storageCell_congr h.cart h.cfg]) a).trans (h.readOnly he a)
  video hv hd := ⟨(g.video hv hd).1.trans (h.video hv hd).1, (g.video hv hd).2.trans (h.video hv hd).2⟩
  io hio := ⟨(g.io hio).1.trans (h.io hio).1, (g.io hio).2.trans (h.io hio).2⟩
  cart := g.cart.trans h.cart
  cfg := g.cfg.trans h.cfg
  hostCalls := g.hostCalls.trans h.hostCalls

/-! ## The frame of the stores -/

theorem storeForms_storeRow (b1 b2 : Byte) : ∀ r ∈ storeForms b1 b2, ∃ reg, StoreRow reg r := by
  intro r hr
  obtain (hr | hr) | hr := (List.mem_append.1 hr).imp_left List.mem_append.1
  · exact ⟨Cpu.a, staForms_storeRow b1 b2 r hr⟩
  · exact ⟨Cpu.x, stxForms_storeRow b1 b2 r hr⟩
  · exact ⟨Cpu.y, styForms_storeRow b1 b2 r hr⟩

theorem storeInstr_cpu (m : MemMode) (v : Byte) (s : State) :
    (storeInstr m v s).cpu = { s.cpu with pc := (storeInstr m v s).cpu.pc, cyc := (storeInstr m v s).cpu.cyc } := by
  rw [storeInstr_eq]

theorem writeFrame_storeInstr (m : MemMode) (v : Byte) (s : State) :
    WriteFrame (resolve m (movePc m.length s)).ea s (storeInstr m v s) := by
  have hframe := (writeFrame_resolve (resolve m (movePc m.length s)).ea m (movePc m.length s)).trans
    (writeFrame_busWrite _ v _)
  rw [storeInstr_eq]
  exact ⟨hframe.other, hframe.readOnly, hframe.video, hframe.io, hframe.cart, hframe.cfg, hframe.hostCalls⟩

/-- Settles O29: a store is one bus write beside the CPU, and of the CPU it changes `PC` and `cyc`. -/
theorem storesFrame : Obligations.StoresFrame := by
  unfold Obligations.StoresFrame
  rintro b1 b2 s t r hr ht ea rfl
  obtain ⟨reg, row⟩ := storeForms_storeRow b1 b2 r hr
  obtain rfl := Host.Outcome.next.inj ((row.runs s).symm.trans ht)
  rw [row.length]
  have hframe := writeFrame_storeInstr r.mode (reg s.cpu) s
  exact ⟨storeInstr_cpu r.mode (reg s.cpu) s, hframe.other, hframe.readOnly, hframe.video, hframe.io, hframe.cart,
    hframe.cfg, hframe.hostCalls⟩

end Sys2Proof.Machine
end

