-- ==== Sys2Proof/Proofs/TransferStack.lean ====
section
/-! PROOFS. Statements of `41_transfer_stack.md`: the transfers, the stack instructions, and the frame of the instructions that
push, jump, branch or work on registers. Each instruction that pushes or pulls has its next state in full once (`exec_pha`,
`exec_jsr`, …), over the next state of one push and one pull. -/

namespace Sys2Proof.Machine

open Sys2Proof.Claims

/-! ## The byte image of the flags -/

/-- The image bit by bit is the sum of R25. -/
theorem packP_eq_packed (f : Flags) (b : Bool) : packP f b = packed f b := by
  obtain ⟨c, z, i, d, v, n⟩ := f
  cases n <;> cases v <;> cases b <;> cases d <;> cases i <;> cases z <;> cases c <;> rfl

/-! ## Pushes -/

theorem push_eq_pushed (v : Byte) (s : State) :
    push v s =
      { s with
        cpu := { s.cpu with sp := s.cpu.sp - 1 }
        bus := { s.bus with latch := v }
        mem := pushed [v] s.cpu.sp s.mem } := push_eq v s

theorem pushWord_eq_pushed (w : Word) (s : State) :
    pushWord w s =
      { s with
        cpu := { s.cpu with sp := s.cpu.sp - 1 - 1 }
        bus := { s.bus with latch := loByte w }
        mem := pushed [hiByte w, loByte w] s.cpu.sp s.mem } := by
  rw [pushWord, push_eq_pushed, push_eq_pushed]
  rfl

theorem exec_pha (s : State) :
    exec .pha s = .next
      { s with
        cpu := { s.cpu with pc := s.cpu.pc + 1, sp := s.cpu.sp - 1, cyc := s.cpu.cyc + 3 }
        bus := { s.bus with latch := s.cpu.a }
        mem := pushed [s.cpu.a] s.cpu.sp s.mem } :=
  congrArg (fun t : State => Host.Outcome.next (t.addCycles 3)) (push_eq_pushed s.cpu.a (movePc 1 s))

theorem exec_php (s : State) :
    exec .php s = .next
      { s with
        cpu := { s.cpu with pc := s.cpu.pc + 1, sp := s.cpu.sp - 1, cyc := s.cpu.cyc + 3 }
        bus := { s.bus with latch := packed s.cpu.flags true }
        mem := pushed [packed s.cpu.flags true] s.cpu.sp s.mem } := by
  rw [← packP_eq_packed]
  exact congrArg (fun t : State => Host.Outcome.next (t.addCycles 3)) (push_eq_pushed (packP s.cpu.flags true) (movePc 1 s))

theorem exec_jsr (w : Word) (s : State) :
    exec (.jsr w) s = .next
      { s with
        cpu := { s.cpu with pc := w, sp := s.cpu.sp - 1 - 1, cyc := s.cpu.cyc + 6 }
        bus := { s.bus with latch := loByte (s.cpu.pc + 2) }
        mem := pushed [hiByte (s.cpu.pc + 2), loByte (s.cpu.pc + 2)] s.cpu.sp s.mem } :=
  congrArg (fun t : State => Host.Outcome.next ((t.setPc w).addCycles 6)) (pushWord_eq_pushed (s.cpu.pc + 2) (movePc 3 s))

theorem exec_brk (s : State) :
    exec .brk s = .next
      { s with
        cpu := { s.cpu with
          pc := mkWord (readCell .cpu s.mem (prgCell s.cart.prgSize (Config.brkVector + 1)))
                  (readCell .cpu s.mem (prgCell s.cart.prgSize Config.brkVector))
          sp := s.cpu.sp - 1 - 1 - 1
          flags := { s.cpu.flags with i := true }
          cyc := s.cpu.cyc + 7 }
        bus := { s.bus with latch := readCell .cpu s.mem (prgCell s.cart.prgSize (Config.brkVector + 1)) }
        mem := pushed [hiByte (s.cpu.pc + 2), loByte (s.cpu.pc + 2), packed s.cpu.flags true] s.cpu.sp s.mem } := by
  rw [← packP_eq_packed]
  exact congrArg (fun t : State => Host.Outcome.next (t.addCycles 7))
    (takeException_eq (vector := Config.brkVector) (by decide) (by decide) (s.cpu.pc + 2) true false (movePc 1 s))

/-! ## Pulls -/

theorem exec_pla (s : State) :
    exec .pla s = .next
      { s with
        cpu := { s.cpu with
          pc := s.cpu.pc + 1, sp := s.cpu.sp + 1, a := stacked s 1, flags := nz (stacked s 1) s.cpu.flags
          cyc := s.cpu.cyc + 4 }
        bus := { s.bus with latch := stacked s 1 } } := by
  rw [← setNZ_eq_nz]
  exact congrArg (fun r : Access => Host.Outcome.next (((r.state.setA r.value).setNZ r.value).addCycles 4))
    (pull_eq (movePc 1 s))

theorem exec_plp (s : State) :
    exec .plp s = .next
      { s with
        cpu := { s.cpu with
          pc := s.cpu.pc + 1, sp := s.cpu.sp + 1, flags := unpacked (stacked s 1), cyc := s.cpu.cyc + 4 }
        bus := { s.bus with latch := stacked s 1 } } :=
  congrArg (fun r : Access => Host.Outcome.next ((r.state.setFlags (unpackP r.value)).addCycles 4)) (pull_eq (movePc 1 s))

theorem pullWord_eq (s : State) :
    pullWord s =
      { value := mkWord (stackByte s.mem (s.cpu.sp + 1 + 1)) (stackByte s.mem (s.cpu.sp + 1))
        state := (s.setSp (s.cpu.sp + 1 + 1)).setLatch (stackByte s.mem (s.cpu.sp + 1 + 1)) } := by
  unfold pullWord
  simp only [pull_eq]
  rfl

theorem exec_rts (s : State) :
    exec .rts s = .next
      { s with
        cpu := { s.cpu with
          pc := mkWord (stackByte s.mem (s.cpu.sp + 1 + 1)) (stackByte s.mem (s.cpu.sp + 1)) + 1
          sp := s.cpu.sp + 1 + 1
          cyc := s.cpu.cyc + 6 }
        bus := { s.bus with latch := stackByte s.mem (s.cpu.sp + 1 + 1) } } :=
  congrArg (fun r : WordAccess => Host.Outcome.next ((r.state.setPc (r.value + 1)).addCycles 6)) (pullWord_eq (movePc 1 s))

theorem exec_rti (s : State) :
    exec .rti s = .next
      { s with
        cpu := { s.cpu with
          pc := mkWord (stackByte s.mem (s.cpu.sp + 1 + 1 + 1)) (stackByte s.mem (s.cpu.sp + 1 + 1))
          sp := s.cpu.sp + 1 + 1 + 1
          flags := unpackP (stackByte s.mem (s.cpu.sp + 1))
          cyc := s.cpu.cyc + 6 }
        bus := { s.bus with latch := stackByte s.mem (s.cpu.sp + 1 + 1 + 1) } } :=
  congrArg (fun t : State => Host.Outcome.next (t.addCycles 6)) (returnFromException_eq (movePc 1 s))

/-! ## What a push leaves alone -/

/-- How far below `SP` each of `n` pushed bytes lies. -/
def pushDepths (n : Nat) : List Byte := (List.range n).map (BitVec.ofNat 8)

/-- Pushing writes no cell but the pushed ones. -/
theorem readCell_pushed_other {bytes : List Byte} {sp : Byte} {m : Memory} {j : Nat}
    (h : ∀ k ∈ pushDepths bytes.length, j ≠ stackCell (sp - k)) :
    readCell .cpu (pushed bytes sp m) j = readCell .cpu m j := by
  induction bytes generalizing sp m with
  | nil => rfl
  | cons b rest ih =>
    simp only [pushDepths, List.mem_map, List.mem_range, List.length_cons, forall_exists_index, and_imp,
      forall_apply_eq_imp_iff₂] at h ih
    have hb : j ≠ stackCell sp := by simpa using h 0 (Nat.succ_pos _)
    have hrest : ∀ k < rest.length, j ≠ stackCell (sp - 1 - BitVec.ofNat 8 k) := by
      intro k hk
      have hk := h (k + 1) (Nat.succ_lt_succ hk)
      rwa [BitVec.ofNat_add, BitVec.add_comm, ← BitVec.sub_sub] at hk
    rw [pushed, ih hrest, readCell_writeCell_other .cpu m b hb]

/-- `t` is `s` with `bytes` pushed, the first one first (R150): beside the pushed cells nothing but the CPU, its fault record
apart, and the latch may differ. -/
structure Pushes (bytes : List Byte) (s t : State) : Prop where
  next : t = { s with
    cpu := t.cpu, bus := { s.bus with latch := t.bus.latch }, mem := pushed bytes s.cpu.sp s.mem }
  fault : t.cpu.fault = s.cpu.fault

namespace Pushes

variable {bytes : List Byte} {s t : State} (h : Pushes bytes s t)
include h

theorem storedByte_other {a : Word}
    (ha : ∀ k ∈ pushDepths bytes.length, storageCell s a ≠ some (stackCell (s.cpu.sp - k))) :
    storedByte t a = storedByte s a := by
  have hcell : storageCell t a = storageCell s a := by
    rw [h.next]
    exact storageCell_congr rfl rfl a
  have hmem : t.mem = pushed bytes s.cpu.sp s.mem := congrArg State.mem h.next
  simp only [storedByte, hcell, hmem]
  cases hj : storageCell s a with
  | none => rfl
  | some j =>
    have hother : ∀ k ∈ pushDepths bytes.length, j ≠ stackCell (s.cpu.sp - k) := fun k hk hjk =>
      ha k hk (hj.trans (congrArg some hjk))
    simp only [readCell_pushed_other hother]

/-- The units, the rest of the machine and the interrupt line. -/
theorem units : t.video = s.video ∧ t.audio = s.audio ∧ t.input = s.input ∧ t.cart = s.cart ∧ t.cfg = s.cfg ∧
    t.hostCalls = s.hostCalls ∧ t.bus.intLine = s.bus.intLine := by
  rw [h.next]
  exact ⟨rfl, rfl, rfl, rfl, rfl, rfl, rfl⟩

end Pushes

/-! ## The frame of the instructions that push -/

/-- The instructions that push, each with the depths below `SP` of its bytes (R157, R158, R198, R225). -/
def pushForms (w : Word) : List (Instr × List Byte) := [(.pha, [0]), (.php, [0]), (.jsr w, [0, 1]), (.brk, [0, 1, 2])]

/-- Each pushes as many bytes as listed, and of the CPU changes `PC`, `SP`, `cyc` and, BRK alone, `I`. -/
theorem pushForms_push {w : Word} {p : Instr × List Byte} (hp : p ∈ pushForms w) {s t : State}
    (ht : exec p.1 s = .next t) :
    ∃ bytes, p.2 = pushDepths bytes.length ∧ Pushes bytes s t ∧
      t.cpu = { s.cpu with
        pc := t.cpu.pc, sp := t.cpu.sp, cyc := t.cpu.cyc, flags := { s.cpu.flags with i := t.cpu.flags.i } } ∧
      (p.1 ≠ .brk → t.cpu.flags = s.cpu.flags) := by
  fin_cases hp
  · obtain rfl := Host.Outcome.next.inj ((exec_pha s).symm.trans ht)
    exact ⟨_, rfl, ⟨rfl, rfl⟩, rfl, fun _ => rfl⟩
  · obtain rfl := Host.Outcome.next.inj ((exec_php s).symm.trans ht)
    exact ⟨_, rfl, ⟨rfl, rfl⟩, rfl, fun _ => rfl⟩
  · obtain rfl := Host.Outcome.next.inj ((exec_jsr w s).symm.trans ht)
    exact ⟨_, rfl, ⟨rfl, rfl⟩, rfl, fun _ => rfl⟩
  · obtain rfl := Host.Outcome.next.inj ((exec_brk s).symm.trans ht)
    exact ⟨_, rfl, ⟨rfl, rfl⟩, rfl, fun h => absurd rfl h⟩

/-! ## The frame of the instructions that push nothing -/

/-- The instruction answers a state in which nothing but the CPU, its fault record apart, and the latch may differ. -/
def PushesNothing (i : Instr) : Prop := ∀ s, ∃ t, exec i s = .next t ∧ Pushes [] s t

/-- The branches (R201 to R208). -/
def branchForms (b : Byte) : List Instr := [.bpl b, .bmi b, .bvc b, .bvs b, .bcc b, .bcs b, .bne b, .beq b]

/-- The transfers, the register forms and the flag instructions, with NOP (R151 to R156, R180, R216 to R224). -/
def registerForms : List Instr :=
  [.tax, .tay, .txa, .tya, .tsx, .txs, .inx, .iny, .dex, .dey, .aslAcc, .lsrAcc, .rolAcc, .rorAcc, .clc, .sec, .cli, .sei,
    .clv, .cld, .sed, .nop]

/-- A branch changes `PC` and `cyc` by definition. -/
theorem branchForms_pushNothing (b : Byte) : ∀ i ∈ branchForms b, PushesNothing i := by
  intro i hi s
  fin_cases hi <;> exact ⟨_, rfl, rfl, rfl⟩

/-- Each of these changes registers and flags by definition. -/
theorem registerForms_pushNothing : ∀ i ∈ registerForms, PushesNothing i := by
  intro i hi s
  fin_cases hi <;> exact ⟨_, rfl, rfl, rfl⟩

/-- The pulls and the jump that needs no pointer, before the others. -/
theorem quietForms_pushNothing (w : Word) (b : Byte) :
    ∀ i ∈ [Instr.pla, .plp, .rts, .rti, .jmpAbs w] ++ (branchForms b ++ registerForms), PushesNothing i := by
  simp only [List.forall_mem_append, List.forall_mem_cons]
  refine ⟨⟨?pla, ?plp, ?rts, ?rti, ?jmpAbs, List.forall_mem_nil _⟩, branchForms_pushNothing b,
    registerForms_pushNothing⟩
  case pla => exact fun s => ⟨_, exec_pla s, rfl, rfl⟩
  case plp => exact fun s => ⟨_, exec_plp s, rfl, rfl⟩
  case rts => exact fun s => ⟨_, exec_rts s, rfl, rfl⟩
  case rti => exact fun s => ⟨_, exec_rti s, rfl, rfl⟩
  case jmpAbs => exact fun s => ⟨_, rfl, rfl, rfl⟩

/-- JMP through a pointer is two bus reads, of any address (R106, R197). -/
theorem jumpThrough_frame (w : Word) (s : State) :
    (∀ a, storedByte (jumpThrough w s) a = storedByte s a) ∧ (jumpThrough w s).cpu.fault = s.cpu.fault ∧
      (jumpThrough w s).audio = s.audio ∧ (jumpThrough w s).cart = s.cart ∧ (jumpThrough w s).cfg = s.cfg ∧
      (jumpThrough w s).hostCalls = s.hostCalls :=
  ⟨storedByte_congr (readPair_mem _ _ _) (readPair_cart _ _ _) (readPair_cfg _ _ _),
    (congrArg Cpu.fault (readPair_cpu w (mkWord (hiByte w) (loByte w + 1)) (movePc 3 s)) :), readPair_audio _ _ _,
    readPair_cart _ _ _, readPair_cfg _ _ _, readPair_hostCalls _ _ _⟩

/-- Settles O31: an instruction that pushes changes its cells, the CPU and the latch; of the others JMP through a pointer
makes two bus reads, and the rest push nothing. -/
theorem stackAndRegisterFrame : Obligations.StackAndRegisterFrame := by
  unfold Obligations.StackAndRegisterFrame
  refine fun s t w b => ⟨fun p hp ht => ?_, fun i hi ht => ?_⟩
  · obtain ⟨bytes, hdepths, hpush, hcpu, hflags⟩ := pushForms_push (w := w) hp ht
    refine ⟨fun a ha => hpush.storedByte_other (hdepths ▸ ha), ?_, ?_, ?_, hpush.fault, ?_, hflags, hpush.units⟩ <;>
      rw [hcpu]
  · have hcases : i = .jmpInd w ∨ i ∈ [Instr.pla, .plp, .rts, .rti, .jmpAbs w] ++ (branchForms b ++ registerForms) :=
      List.mem_cons.1 (List.perm_middle.mem_iff.1 hi)
    obtain rfl | hquiet := hcases
    · obtain rfl : jumpThrough w s = t := Host.Outcome.next.inj ht
      obtain ⟨hstored, hfault, haudio, hcart, hcfg, hcalls⟩ := jumpThrough_frame w s
      exact ⟨hstored, hfault, haudio, hcart, hcfg, hcalls, fun h => absurd rfl h⟩
    · obtain ⟨u, hu, hpush⟩ := quietForms_pushNothing w b i hquiet s
      obtain rfl := Host.Outcome.next.inj (hu.symm.trans ht)
      obtain ⟨hvideo, haudio, hinput, hcart, hcfg, hcalls, hline⟩ := hpush.units
      exact ⟨fun a => hpush.storedByte_other (List.forall_mem_nil _), hpush.fault, haudio, hcart, hcfg,
        hcalls, fun _ => ⟨hvideo, hinput, hline⟩⟩

/-! ## The transfers -/

/-- THE RULE OF A ONE-BYTE INSTRUCTION, from what its operation does to the CPU once `PC` is past it (R100, R102). -/
theorem cpuRule_of_implied {i : Instr} {byte : Byte} {cost : Nat} {op : State → State → State} {effect : Cpu → Cpu}
    (hdecode : decode [byte] = .ok i []) (hexec : ∀ s, exec i s = .next (impliedInstr cost (op s) s))
    (hop : ∀ s, op s (movePc 1 s) = { s with cpu := { effect s.cpu with pc := s.cpu.pc + 1 } })
    (hcyc : ∀ c, (effect c).cyc = c.cyc) : CpuRule i byte cost effect := by
  refine ⟨encode_of_decode hdecode, fun s => ?_⟩
  rw [hexec, impliedInstr, hop, State.addCycles, hcyc]

/-- Settles O16: five transfers are a load of the register copied from, and TXS writes `SP` alone. -/
theorem transfersCopyOneRegister : Obligations.TransfersCopyOneRegister := by
  unfold Obligations.TransfersCopyOneRegister
  exact ⟨cpuRule_of_implied rfl (fun _ => rfl) (fun s => loadInto_setX s.cpu.a (movePc 1 s)) (fun _ => rfl),
    cpuRule_of_implied rfl (fun _ => rfl) (fun s => loadInto_setY s.cpu.a (movePc 1 s)) (fun _ => rfl),
    cpuRule_of_implied rfl (fun _ => rfl) (fun s => loadInto_setA s.cpu.x (movePc 1 s)) (fun _ => rfl),
    cpuRule_of_implied rfl (fun _ => rfl) (fun s => loadInto_setA s.cpu.y (movePc 1 s)) (fun _ => rfl),
    cpuRule_of_implied rfl (fun _ => rfl) (fun s => loadInto_setX s.cpu.sp (movePc 1 s)) (fun _ => rfl),
    cpuRule_of_implied rfl (fun _ => rfl) (fun _ => rfl) (fun _ => rfl)⟩

/-! ## The stack instructions -/

/-- Settles O18, by the next state of each of the four. -/
theorem stackInstructionsPushAndPull : Obligations.StackInstructionsPushAndPull := by
  unfold Obligations.StackInstructionsPushAndPull
  exact ⟨rfl, rfl, rfl, rfl, fun s => ⟨exec_pha s, exec_php s, exec_pla s, exec_plp s⟩⟩

end Sys2Proof.Machine
end

