-- ==== Sys2Proof/Proofs/LogicArith.lean ====
section
/-! PROOFS. Statements of `42_logic_arith.md`: the logic instructions, the sums and the compares in every mode, and what
their flags mean in unsigned and signed numbers. The model's flag words are compared with the statements' (`nz`, `added`,
`compared`) once; the rules are then `readRule_of_runs`, and the laws are facts about `added` and `compared` alone. -/

namespace Sys2Proof.Machine

open Sys2Proof.Claims

/-! ## Logic and bit tests -/

theorem logicA_eq (v : Byte) (s : State) :
    logicA v s = { s with cpu := { s.cpu with a := v, flags := nz v s.cpu.flags } } := by
  rw [← setNZ_eq_nz]; rfl

theorem bitA_eq (m : Byte) (s : State) :
    bitA m s =
      { s with
        cpu := { s.cpu with
          flags := { s.cpu.flags with z := decide (s.cpu.a &&& m = 0), n := m.getLsbD 7, v := m.getLsbD 6 } } } := rfl

/-- Settles O19: AND, ORA and EOR put a logic result into `A` with `Z` and `N`; BIT writes three flags. -/
theorem logicAndBitTests : Obligations.LogicAndBitTests := by
  unfold Obligations.LogicAndBitTests
  exact ⟨readRule_of_runs andForms_run (fun m s => logicA_eq (s.cpu.a &&& m) s) (fun _ _ => rfl),
    readRule_of_runs oraForms_run (fun m s => logicA_eq (s.cpu.a ||| m) s) (fun _ _ => rfl),
    readRule_of_runs eorForms_run (fun m s => logicA_eq (s.cpu.a ^^^ m) s) (fun _ _ => rfl),
    readRule_of_runs bitForms_run bitA_eq (fun _ _ => rfl)⟩

/-! ## Sums -/

theorem addSum_eq_sum9 (a m : Byte) (c : Bool) : addSum a m c = sum9 a m c := by
  cases c <;> rfl

theorem cast_sum9 (a m : Byte) (c : Bool) :
    (sum9 a m c : Int) = (a.toNat : Int) + m.toNat + if c then 1 else 0 := by
  simp [sum9]

theorem addValue_eq (a m : Byte) (c : Bool) : addValue a m c = BitVec.ofNat 8 (sum9 a m c % 256) := by
  rw [addValue, addSum_eq_sum9]
  exact BitVec.eq_of_toNat_eq (by simp)

theorem bne_zero_eq_decide (x : Byte) : (x != 0) = decide (x ≠ 0) := decide_not.symm

/-- The model's ADC is the statements' (R169). -/
theorem addToA_eq (m : Byte) (s : State) : addToA m s = { s with cpu := added s.cpu m } := by
  simp only [addToA, addFlags, addValue_eq, addSum_eq_sum9, setNZ_eq_nz, bne_zero_eq_decide]
  rfl

theorem subFromA_eq (m : Byte) (s : State) : subFromA m s = { s with cpu := added s.cpu (m ^^^ 0xFF) } :=
  addToA_eq (m ^^^ 0xFF) s

theorem adcForms_rule : ReadRule adcForms added :=
  readRule_of_runs adcForms_run addToA_eq (fun _ _ => rfl)

theorem sbcForms_rule : ReadRule sbcForms fun c m => added c (m ^^^ 0xFF) :=
  readRule_of_runs sbcForms_run subFromA_eq (fun _ _ => rfl)

/-- Settles O20: ADC runs `addToA`, and SBC runs it on the operand's one's complement. -/
theorem adcAndSbcComputeInBinary : Obligations.AdcAndSbcComputeInBinary := by
  unfold Obligations.AdcAndSbcComputeInBinary
  exact ⟨adcForms_rule, sbcForms_rule⟩

/-! ## Compares -/

/-- The difference a compare takes `Z` and `N` from is the model's subtraction (R174). -/
theorem ofNat_difference (r m : Byte) : BitVec.ofNat 8 ((r.toNat + 256 - m.toNat) % 256) = r - m := by
  bv_omega

theorem compareFlags_eq_compared (f : Flags) (r m : Byte) : compareFlags f r m = compared r m f := by
  rw [compareFlags, compared, ofNat_difference, setNZ_eq_nz]

theorem compareWith_eq (r m : Byte) (s : State) :
    compareWith r m s = { s with cpu := { s.cpu with flags := compared r m s.cpu.flags } } := by
  rw [compareWith, compareFlags_eq_compared]; rfl

theorem cmpForms_rule : ReadRule cmpForms fun c m => { c with flags := compared c.a m c.flags } :=
  readRule_of_runs cmpForms_run (fun m s => compareWith_eq s.cpu.a m s) (fun _ _ => rfl)

/-- Settles O22: each compare is one `compareWith` of its register. -/
theorem comparesSetThreeFlags : Obligations.ComparesSetThreeFlags := by
  unfold Obligations.ComparesSetThreeFlags
  exact ⟨cmpForms_rule, readRule_of_runs cpxForms_run (fun m s => compareWith_eq s.cpu.x m s) (fun _ _ => rfl),
    readRule_of_runs cpyForms_run (fun m s => compareWith_eq s.cpu.y m s) (fun _ _ => rfl)⟩

/-! ## What the flags of a sum mean (R174) -/

theorem added_a_toNat (c : Cpu) (m : Byte) : (added c m).a.toNat = sum9 c.a m c.flags.c % 256 := by
  simp [added]

theorem added_c_iff (c : Cpu) (m : Byte) : (added c m).flags.c = true ↔ 256 ≤ sum9 c.a m c.flags.c :=
  decide_eq_true_iff

theorem and_sign_ne_zero_iff (x : Byte) : x &&& 0x80 ≠ 0 ↔ x.msb = true := by
  revert x; decide

/-- `V` of a sum, in signs: the operands have one sign and the result the other. -/
theorem overflow_bits_iff (a m r : Byte) :
    (a ^^^ r) &&& (m ^^^ r) &&& 0x80 ≠ 0 ↔ a.msb = m.msb ∧ r.msb ≠ a.msb := by
  rw [and_sign_ne_zero_iff, BitVec.msb_and, BitVec.msb_xor, BitVec.msb_xor]
  cases a.msb <;> cases m.msb <;> cases r.msb <;> decide

/-- `V` says the signed sum lies outside -128..127: the unsigned sum is 256 above it for each negative operand. -/
theorem added_v_iff (c : Cpu) (m : Byte) :
    (added c m).flags.v = true ↔
      signed8 c.a + signed8 m + (if c.flags.c then 1 else 0) < -128 ∨
        127 < signed8 c.a + signed8 m + if c.flags.c then 1 else 0 := by
  have hbits : (added c m).flags.v = true ↔ c.a.msb = m.msb ∧ (added c m).a.msb ≠ c.a.msb :=
    decide_eq_true_iff.trans (overflow_bits_iff _ _ _)
  have hr := added_a_toNat c m
  have hsum := cast_sum9 c.a m c.flags.c
  have ha := c.a.isLt
  have hm := m.isLt
  rw [hbits]
  simp only [BitVec.msb_eq_decide, decide_eq_decide, ne_eq, signed8]
  omega

/-! ## The one's complement of the operand (R170, R174) -/

theorem complement_toNat (m : Byte) : (m ^^^ 0xFF).toNat = 255 - m.toNat := by
  rw [show m ^^^ 0xFF = ~~~m from BitVec.xor_allOnes, BitVec.toNat_not]

theorem signed8_complement (m : Byte) : signed8 (m ^^^ 0xFF) = -signed8 m - 1 := by
  have hm := m.isLt
  simp only [signed8, complement_toNat]
  omega

/-- The sum SBC makes is `A - M - (1 - C)`, with 256 added to it. -/
theorem sum9_complement (a m : Byte) (c : Bool) :
    (sum9 a (m ^^^ 0xFF) c : Int) = (a.toNat : Int) - m.toNat - (if c then 0 else 1) + 256 := by
  have hm := m.isLt
  rw [cast_sum9, complement_toNat]
  split <;> omega

theorem subtracted_a_toNat (c : Cpu) (m : Byte) :
    ((added c (m ^^^ 0xFF)).a.toNat : Int) =
      ((c.a.toNat : Int) - m.toNat - (if c.flags.c then 0 else 1)) % 256 := by
  rw [added_a_toNat, Int.natCast_emod, sum9_complement]
  exact Int.add_emod_right _ _

theorem subtracted_c_iff (c : Cpu) (m : Byte) :
    (added c (m ^^^ 0xFF)).flags.c = true ↔ m.toNat + (if c.flags.c then 0 else 1) ≤ c.a.toNat := by
  rw [added_c_iff]
  zify
  rw [sum9_complement]
  omega

theorem subtracted_v_iff (c : Cpu) (m : Byte) :
    (added c (m ^^^ 0xFF)).flags.v = true ↔
      signed8 c.a - signed8 m - (if c.flags.c then 0 else 1) < -128 ∨
        127 < signed8 c.a - signed8 m - if c.flags.c then 0 else 1 := by
  rw [added_v_iff, signed8_complement]
  split <;> omega

/-! ## What the flags of a compare mean (R174) -/

theorem compared_c_iff (r m : Byte) (f : Flags) : (compared r m f).c = true ↔ m.toNat ≤ r.toNat :=
  decide_eq_true_iff

theorem compared_z_iff (r m : Byte) (f : Flags) : (compared r m f).z = true ↔ r = m := by
  have hz : (compared r m f).z = true ↔ BitVec.ofNat 8 ((r.toNat + 256 - m.toNat) % 256) = 0 := decide_eq_true_iff
  rw [hz, ofNat_difference, sub_eq_zero]

/-! ## The laws, of the immediate forms -/

/-- A read instruction on an immediate reads its operand byte: its effect on the CPU, `cyc` apart. -/
theorem readRule_imm_cpu {forms : Byte → Byte → List ReadForm} {effect : Cpu → Byte → Cpu}
    (h : ReadRule forms effect) {i : Instr} {bytes : List Byte} {b b2 : Byte} {base : Nat} {penalty : Bool}
    (hmem : ⟨i, bytes, .imm b, base, penalty⟩ ∈ forms b b2) {s t : State} (ht : exec i s = .next t) :
    ∃ n, t.cpu = { effect (past bytes.length s).cpu b with cyc := n } := by
  obtain ⟨-, hexec⟩ := h b b2 s _ hmem
  obtain rfl := Host.Outcome.next.inj (hexec.symm.trans ht)
  exact ⟨_, rfl⟩

/-- Settles O21: the immediate forms' CPU is `added`'s or `compared`'s, whose flags have these meanings. -/
theorem arithmeticLawsOfTheFlags : Obligations.ArithmeticLawsOfTheFlags := by
  unfold Obligations.ArithmeticLawsOfTheFlags
  refine fun s t m => ⟨fun ht => ?_, fun ht => ?_, fun ht => ?_⟩
  · obtain ⟨n, hcpu⟩ := readRule_imm_cpu (b2 := 0) adcForms_rule List.mem_cons_self ht
    rw [hcpu]
    exact ⟨added_a_toNat (past 2 s).cpu m, added_c_iff (past 2 s).cpu m, added_v_iff (past 2 s).cpu m, rfl⟩
  · obtain ⟨n, hcpu⟩ := readRule_imm_cpu (b2 := 0) sbcForms_rule List.mem_cons_self ht
    rw [hcpu]
    exact ⟨subtracted_a_toNat (past 2 s).cpu m, subtracted_c_iff (past 2 s).cpu m,
      subtracted_v_iff (past 2 s).cpu m, rfl⟩
  · obtain ⟨n, hcpu⟩ := readRule_imm_cpu (b2 := 0) cmpForms_rule List.mem_cons_self ht
    rw [hcpu]
    exact ⟨compared_c_iff s.cpu.a m s.cpu.flags, compared_z_iff s.cpu.a m s.cpu.flags, rfl, rfl⟩

end Sys2Proof.Machine
end

