-- ==== Sys2Proof/Proofs/IncDecShift.lean ====
section
/-! PROOFS. Statements of `43_incdec_shift.md`: INC, DEC and the four shifts in every mode and on a register, and the frame of
the memory forms. Each of the model's six operations is compared with the statements' once (`Computes`), and each table row
with the model once (`RmwRow`); the rules follow from the shapes `rmwInstr` and `impliedInstr`. -/

namespace Sys2Proof.Machine

open Sys2Proof.Claims

/-! ## The six operations -/

/-- The model's operation gives the value and the flags that the statements' gives. -/
def Computes (op : Byte → Flags → Result) (rule : Byte → Flags → Byte × Flags) : Prop :=
  ∀ v f, op v f = { value := (rule v f).1, flags := (rule v f).2 }

/-- An increment or a decrement wraps: the sum modulo 256 is the sum of bytes (R181, R184). -/
theorem add_eq_ofNat_mod (v w : Byte) : v + w = BitVec.ofNat 8 ((v.toNat + w.toNat) % 256) :=
  BitVec.eq_of_toNat_eq (by simp)

theorem incr_computes : Computes incr inc := by
  intro v f
  rw [incr, add_eq_ofNat_mod v 1, setNZ_eq_nz]
  rfl

/-- Taking 1 away is adding 255 (R184). -/
theorem decr_computes : Computes decr dec := by
  intro v f
  rw [decr, BitVec.sub_eq_add_neg, add_eq_ofNat_mod v (-1), setNZ_eq_nz]
  rfl

/-- A shift or a rotation is its result as a number and the bit it moves out. -/
theorem result_eq_shifted {r : Byte} {n : Nat} (h : r = BitVec.ofNat 8 n) (c : Bool) (f : Flags) :
    ({ value := r, flags := { f.setNZ r with c := c } } : Result) =
      { value := (shifted n c f).1, flags := (shifted n c f).2 } := by
  rw [h, setNZ_eq_nz]
  rfl

theorem shiftLeft_eq_ofNat (v : Byte) : v <<< 1 = BitVec.ofNat 8 (v.toNat * 2 % 256) := by
  bv_omega

theorem shiftRight_eq_ofNat (v : Byte) : v >>> 1 = BitVec.ofNat 8 (v.toNat / 2) := by
  bv_omega

theorem toNat_append_eq_add {m n : Nat} (x : BitVec m) (y : BitVec n) :
    (x ++ y).toNat = x.toNat * 2 ^ n + y.toNat := by
  rw [BitVec.toNat_append, ← Nat.shiftLeft_add_eq_or_of_lt y.isLt, Nat.shiftLeft_eq]

/-- Bits 6..0 move up and the carry enters bit 0 (R189). -/
theorem rotateLeft_eq_ofNat (v : Byte) (c : Bool) :
    v.extractLsb' 0 7 ++ BitVec.ofBool c = BitVec.ofNat 8 (v.toNat * 2 % 256 + c.toNat) := by
  have hcarry := c.toNat_lt
  apply BitVec.eq_of_toNat_eq
  rw [toNat_append_eq_add, BitVec.toNat_ofBool, BitVec.extractLsb'_toNat, BitVec.toNat_ofNat, Nat.shiftRight_zero]
  omega

/-- Bits 7..1 move down and the carry enters bit 7 (R190). -/
theorem rotateRight_eq_ofNat (v : Byte) (c : Bool) :
    BitVec.ofBool c ++ v.extractLsb' 1 7 = BitVec.ofNat 8 (v.toNat / 2 + 128 * c.toNat) := by
  have hcarry := c.toNat_lt
  apply BitVec.eq_of_toNat_eq
  rw [toNat_append_eq_add, BitVec.toNat_ofBool, BitVec.extractLsb'_toNat, BitVec.toNat_ofNat, Nat.shiftRight_one]
  omega

theorem shiftLeft_computes : Computes shiftLeft asl := fun v f => result_eq_shifted (shiftLeft_eq_ofNat v) _ f

theorem shiftRight_computes : Computes shiftRight lsr := fun v f => result_eq_shifted (shiftRight_eq_ofNat v) _ f

theorem rotateLeft_computes : Computes rotateLeft rol := fun v f => result_eq_shifted (rotateLeft_eq_ofNat v f.c) _ f

theorem rotateRight_computes : Computes rotateRight ror := fun v f => result_eq_shifted (rotateRight_eq_ofNat v f.c) _ f

/-! ## Read-modify-writes on memory -/

/-- A listed encoding of a read-modify-write has the bytes, the length and the cost of the model's tables (R113), and runs
the operation. -/
structure RmwRow (op : Byte → Flags → Result) (r : WriteForm) : Prop where
  decodes : decode r.bytes = .ok r.instr []
  length : r.bytes.length = r.mode.length
  base : r.base = rmwCycles r.mode
  runs : ∀ s, exec r.instr s = .next (rmwInstr r.mode op s)

/-- Every listed encoding runs the one operation. -/
def RmwRows (op : Byte → Flags → Result) (forms : List WriteForm) : Prop := ∀ r ∈ forms, RmwRow op r

/-- For a given table the hypothesis is each row compared with the model's tables. -/
theorem RmwRows.of_table {op : Byte → Flags → Result} {forms : List WriteForm}
    (h : ∀ r ∈ forms, RmwRow op r := by
      intro r hr; fin_cases hr <;> exact ⟨rfl, rfl, rfl, fun _ => rfl⟩) : RmwRows op forms := h

section
variable (b1 b2 : Byte)

theorem incForms_rows : RmwRows incr (incForms b1 b2) := .of_table
theorem decForms_rows : RmwRows decr (decForms b1 b2) := .of_table
theorem aslForms_rows : RmwRows shiftLeft (aslForms b1 b2) := .of_table
theorem lsrForms_rows : RmwRows shiftRight (lsrForms b1 b2) := .of_table
theorem rolForms_rows : RmwRows rotateLeft (rolForms b1 b2) := .of_table
theorem rorForms_rows : RmwRows rotateRight (rorForms b1 b2) := .of_table

end

/-- A read-modify-write: the state of one bus read and one bus write at the effective address, `PC` past the instruction, the
operation's flags, and the fixed cost with what a transfer adds (R180, R447). -/
theorem rmwInstr_eq {m : MemMode} {op : Byte → Flags → Result} {s : State} {e : Resolved} {d : Access}
    (he : e = resolve m (movePc m.length s)) (hd : d = busRead e.ea e.state) :
    rmwInstr m op s =
      { busWrite e.ea (op d.value s.cpu.flags).value d.state with
        cpu :=
          { s.cpu with
            pc := s.cpu.pc + BitVec.ofNat 16 m.length
            flags := (op d.value s.cpu.flags).flags
            cyc := s.cpu.cyc + rmwCycles m + transferCost e.ea (s.cpu.cyc + rmwCycles m) s.cfg } } := by
  subst he hd
  unfold rmwInstr
  simp only [State.setFlags, State.addCycles, busWrite_cpu, busRead_cpu, resolve_cpu, movePc_flags, movePc_cyc,
    Nat.add_assoc]
  rfl

theorem rmwRule_of_rows {forms : Byte → Byte → List WriteForm} {op : Byte → Flags → Result}
    {rule : Byte → Flags → Byte × Flags} (hrow : ∀ b1 b2, RmwRows op (forms b1 b2)) (hop : Computes op rule) :
    RmwRule forms rule := by
  intro b1 b2 s r hr
  have row := hrow b1 b2 r hr
  refine ⟨encode_of_decode row.decodes, fun e d he hd => ?_⟩
  rw [row.length] at he ⊢
  rw [row.runs, rmwInstr_eq he hd, hop, row.base]

/-! ## The register forms -/

/-- THE RULE OF A REGISTER FORM, from the operation it runs and the register it writes (R180). For a given register the
last three hypotheses hold by definition. -/
theorem registerRule_of_runs {i : Instr} {byte : Byte} {op : Byte → Flags → Result} {rule : Byte → Flags → Byte × Flags}
    {get : Cpu → Byte} {set : Cpu → Byte → Cpu} {setReg : State → Byte → State} (hop : Computes op rule)
    (hdecode : decode [byte] = .ok i [])
    (hexec : ∀ s, exec i s = .next (impliedInstr 2 (onRegister setReg (get s.cpu) op) s))
    (hset : ∀ s v, setReg s v = { s with cpu := set s.cpu v } := by intros; rfl)
    (hpc : ∀ c v w, set { c with pc := w } v = { set c v with pc := w } := by intros; rfl)
    (hcyc : ∀ c v, (set c v).cyc = c.cyc := by intros; rfl) : RegisterRule i byte rule get set := by
  refine cpuRule_of_implied hdecode hexec (fun s => ?_) (fun c => hcyc c _)
  rw [onRegister, hop, hset, movePc, State.setPc, hpc]
  rfl

/-- Settles O23: INC and DEC on memory run `incr` and `decr`, and so do the register forms on `X` and `Y`. -/
theorem incrementsAndDecrementsWrap : Obligations.IncrementsAndDecrementsWrap := by
  unfold Obligations.IncrementsAndDecrementsWrap
  exact ⟨rmwRule_of_rows incForms_rows incr_computes, rmwRule_of_rows decForms_rows decr_computes,
    registerRule_of_runs incr_computes rfl (fun _ => rfl), registerRule_of_runs incr_computes rfl (fun _ => rfl),
    registerRule_of_runs decr_computes rfl (fun _ => rfl), registerRule_of_runs decr_computes rfl (fun _ => rfl)⟩

/-- Settles O24: each shift runs its operation, on memory and on the accumulator. -/
theorem shiftsMoveOneBitThroughCarry : Obligations.ShiftsMoveOneBitThroughCarry := by
  unfold Obligations.ShiftsMoveOneBitThroughCarry
  exact ⟨rmwRule_of_rows aslForms_rows shiftLeft_computes, rmwRule_of_rows lsrForms_rows shiftRight_computes,
    rmwRule_of_rows rolForms_rows rotateLeft_computes, rmwRule_of_rows rorForms_rows rotateRight_computes,
    registerRule_of_runs shiftLeft_computes rfl (fun _ => rfl),
    registerRule_of_runs shiftRight_computes rfl (fun _ => rfl),
    registerRule_of_runs rotateLeft_computes rfl (fun _ => rfl),
    registerRule_of_runs rotateRight_computes rfl (fun _ => rfl)⟩

/-! ## The frame of one bus read -/

/-- Outside the video registers a bus read leaves the video unit alone. -/
theorem busRead_video {a : Word} (h : region a ≠ .video) (s : State) : (busRead a s).state.video = s.video := by
  unfold busRead regionRead
  cases hr : region a with
  | video => exact absurd hr h
  | io => simp only [ioRead]; split_ifs <;> rfl
  | cartridge => simp only [mapperRead]; split <;> rfl
  | ram => rfl
  | unmapped => rfl

/-- Outside the video registers a bus read leaves the interrupt line alone. -/
theorem busRead_intLine_eq {a : Word} (h : region a ≠ .video) (s : State) :
    (busRead a s).state.bus.intLine = s.bus.intLine := by
  have hrange : ¬(0x2000 ≤ a.toNat ∧ a.toNat ≤ 0x3FFF) := fun hr => h (region_video hr.1 hr.2)
  rw [busRead_line, ← Bool.decide_and, decide_eq_false hrange]
  simp

/-- Outside the I/O window a bus read leaves the controller ports alone. -/
theorem busRead_input_eq {a : Word} (h : region a ≠ .io) (s : State) : (busRead a s).state.input = s.input := by
  unfold busRead regionRead
  cases hr : region a with
  | io => exact absurd hr h
  | video => simp only [videoRegRead]; split <;> rfl
  | cartridge => simp only [mapperRead]; split <;> rfl
  | ram => rfl
  | unmapped => rfl

theorem writeFrame_busRead (ea : Word) (s : State) : WriteFrame ea s (busRead ea s).state where
  other a _ := storedByte_congr (busRead_mem ea s) (busRead_cart ea s) (busRead_cfg ea s) a
  readOnly _ := storedByte_congr (busRead_mem ea s) (busRead_cart ea s) (busRead_cfg ea s)
  video h _ := ⟨busRead_video h s, busRead_intLine_eq h s⟩
  io h := ⟨busRead_audio ea s, busRead_input_eq h s⟩
  cart := busRead_cart ea s
  cfg := busRead_cfg ea s
  hostCalls := busRead_hostCalls ea s

/-! ## The frame of the read-modify-writes -/

/-- The frame says nothing of the CPU, before or after. -/
theorem WriteFrame.of_cpu {ea : Word} {s t : State} {c c' : Cpu} (h : WriteFrame ea { s with cpu := c } t) :
    WriteFrame ea s { t with cpu := c' } :=
  ⟨h.other, h.readOnly, h.video, h.io, h.cart, h.cfg, h.hostCalls⟩

theorem writeFrame_rmwInstr (m : MemMode) (op : Byte → Flags → Result) (s : State) :
    WriteFrame (resolve m (movePc m.length s)).ea s (rmwInstr m op s) := by
  rw [rmwInstr_eq rfl rfl]
  exact (((writeFrame_resolve _ m (movePc m.length s)).trans (writeFrame_busRead _ _)).trans
    (writeFrame_busWrite _ _ _)).of_cpu

theorem rmwInstr_cpu (m : MemMode) (op : Byte → Flags → Result) (s : State) :
    (rmwInstr m op s).cpu =
      { s.cpu with
        pc := (rmwInstr m op s).cpu.pc, cyc := (rmwInstr m op s).cpu.cyc, flags := (rmwInstr m op s).cpu.flags } := by
  rw [rmwInstr_eq rfl rfl]

/-- The flags after a read-modify-write are the operation's, of some byte and the flags before. -/
theorem rmwInstr_flags (m : MemMode) (op : Byte → Flags → Result) (s : State) :
    ∃ v, (rmwInstr m op s).cpu.flags = (op v s.cpu.flags).flags := by
  rw [rmwInstr_eq rfl rfl]
  exact ⟨_, rfl⟩

/-- The operations of the read-modify-writes (R181, R184, R187 to R190). -/
def rmwOps : List (Byte → Flags → Result) := [incr, decr, shiftLeft, shiftRight, rotateLeft, rotateRight]

/-- No operation of the family writes `I`, `D` or `V`. -/
theorem rmwOps_flags {op : Byte → Flags → Result} (h : op ∈ rmwOps) (v : Byte) (f : Flags) :
    (op v f).flags = { f with c := (op v f).flags.c, z := (op v f).flags.z, n := (op v f).flags.n } := by
  fin_cases h <;> rfl

theorem rmwForms_rmwRow (b1 b2 : Byte) : ∀ r ∈ rmwForms b1 b2, ∃ op ∈ rmwOps, RmwRow op r := by
  intro r hr
  simp only [rmwForms, List.mem_append] at hr
  obtain ((((hr | hr) | hr) | hr) | hr) | hr := hr
  · exact ⟨incr, by simp [rmwOps], incForms_rows b1 b2 r hr⟩
  · exact ⟨decr, by simp [rmwOps], decForms_rows b1 b2 r hr⟩
  · exact ⟨shiftLeft, by simp [rmwOps], aslForms_rows b1 b2 r hr⟩
  · exact ⟨shiftRight, by simp [rmwOps], lsrForms_rows b1 b2 r hr⟩
  · exact ⟨rotateLeft, by simp [rmwOps], rolForms_rows b1 b2 r hr⟩
  · exact ⟨rotateRight, by simp [rmwOps], rorForms_rows b1 b2 r hr⟩

/-- INC and DEC run an operation that leaves `C` alone (R181, R184). -/
theorem incDecForms_rmwRow (b1 b2 : Byte) :
    ∀ r ∈ incForms b1 b2 ++ decForms b1 b2, ∃ op, (∀ v f, (op v f).flags.c = f.c) ∧ RmwRow op r := by
  intro r hr
  obtain hr | hr := List.mem_append.1 hr
  · exact ⟨incr, fun _ _ => rfl, incForms_rows b1 b2 r hr⟩
  · exact ⟨decr, fun _ _ => rfl, decForms_rows b1 b2 r hr⟩

/-- Settles O30: beside the CPU a read-modify-write is one read and one write at its effective address, and its flags are
those of one of the six operations. -/
theorem readModifyWriteFrame : Obligations.ReadModifyWriteFrame := by
  unfold Obligations.ReadModifyWriteFrame
  refine fun b1 b2 s t => ⟨?_, fun r hr ht => ?_⟩
  · rintro r hr ht ea rfl
    obtain ⟨op, hop, row⟩ := rmwForms_rmwRow b1 b2 r hr
    obtain rfl := Host.Outcome.next.inj ((row.runs s).symm.trans ht)
    rw [row.length]
    have hframe := writeFrame_rmwInstr r.mode op s
    obtain ⟨v, hflags⟩ := rmwInstr_flags r.mode op s
    exact ⟨rmwInstr_cpu r.mode op s, hflags ▸ rmwOps_flags hop v s.cpu.flags, hframe.other, hframe.readOnly, hframe.video,
      hframe.io, hframe.cart, hframe.cfg, hframe.hostCalls⟩
  · obtain ⟨op, hc, row⟩ := incDecForms_rmwRow b1 b2 r hr
    obtain rfl := Host.Outcome.next.inj ((row.runs s).symm.trans ht)
    obtain ⟨v, hflags⟩ := rmwInstr_flags r.mode op s
    rw [hflags, hc]

end Sys2Proof.Machine
end

