-- ==== Sys2Proof/Proofs/Control.lean ====
section
/-! PROOFS. Statements of `44_control.md`: the jumps, the subroutine call and return, and the eight branches. The pointer of
JMP and the target of a branch are written as the rules write them, in numbers; the next states of JSR and RTS are those of
`Proofs/TransferStack.lean`. -/

namespace Sys2Proof.Machine

open Sys2Proof.Claims

/-! ## Jumps -/

theorem loByte_toNat (w : Word) : (loByte w).toNat = w.toNat % 256 := by
  rw [loByte, BitVec.extractLsb'_toNat, Nat.shiftRight_zero]

/-- The low byte of the pointer's second address wraps inside the page (R106). -/
theorem loByte_add_one_eq_ofNat (w : Word) : loByte w + 1 = BitVec.ofNat 8 ((w.toNat + 1) % 256) := by
  rw [add_eq_ofNat_mod, loByte_toNat, Nat.mod_add_mod]
  rfl

/-- JMP through a pointer in full: two bus reads, the second on the page of the first, and of the CPU `PC` and `cyc` change
(R106, R197). -/
theorem jumpThrough_eq {w : Word} {s : State} {l h : Access} (hl : l = busRead w (past 3 s))
    (hh : h = busRead (mkWord (hiByte w) (BitVec.ofNat 8 ((w.toNat + 1) % 256))) l.state) :
    jumpThrough w s =
      { h.state with cpu := { s.cpu with pc := mkWord h.value l.value, cyc := s.cpu.cyc + 5 } } := by
  have hpair : resolveIndirect w (movePc 3 s) = { value := mkWord h.value l.value, state := h.state } := by
    rw [resolveIndirect, loByte_add_one_eq_ofNat, hh, hl]
    rfl
  have hcpu : h.state.cpu = (movePc 3 s).cpu := by
    rw [hh, busRead_cpu, hl, busRead_cpu]
    rfl
  simp only [jumpThrough, hpair, State.setPc, State.addCycles, hcpu]
  rfl

/-- Settles O25: JMP by definition or by the two reads of the pointer, JSR and RTS by their next states with `SP` moved
twice. -/
theorem jumpsCallsAndReturns : Obligations.JumpsCallsAndReturns := by
  unfold Obligations.JumpsCallsAndReturns
  refine ⟨fun w s => ⟨rfl, rfl, rfl, rfl, ?jmpInd, ?jsr⟩, rfl, ?rts⟩
  case jmpInd => exact fun l h hl hh => congrArg Host.Outcome.next (jumpThrough_eq hl hh)
  case jsr =>
    have hsp : s.cpu.sp - 1 - 1 = s.cpu.sp - 2 := BitVec.sub_sub ..
    rw [exec_jsr, hsp]
  case rts =>
    intro s
    have hsp : s.cpu.sp + 1 + 1 = s.cpu.sp + 2 := BitVec.add_assoc ..
    rw [exec_rts, hsp]
    rfl

/-! ## Branches -/

theorem signed8_eq_toInt (b : Byte) : signed8 b = b.toInt := by
  rw [BitVec.toInt_eq_toNat_cond, signed8]
  split_ifs <;> omega

/-- The target of a branch is the signed sum of R109, modulo 65536. -/
theorem branchTarget_eq_ofInt (next : Word) (offset : Byte) :
    branchTarget next offset = BitVec.ofInt 16 ((next.toNat : Int) + signed8 offset) := by
  rw [BitVec.ofInt_add, BitVec.ofInt_natCast, BitVec.ofNat_toNat, BitVec.setWidth_eq, signed8_eq_toInt]
  rfl

/-- THE RULE OF A BRANCH, from the condition it hands to `branchInstr` (R200): `PC` and `cyc` change by definition, and a
branch taken costs 1 more cycle, or 2 more onto another page. -/
theorem branchRule_of_runs {mk : Byte → Instr} {op : Byte} {cond : Flags → Bool} (hencode : ∀ b, encode (mk b) = [op, b])
    (hexec : ∀ b s, exec (mk b) s = .next (branchInstr (cond s.cpu.flags) b s)) : BranchRule mk op cond := by
  intro b s next target hnext htarget
  refine ⟨hencode b, ?_⟩
  have hnext' : s.cpu.pc + 2 = next := by
    rw [hnext]
    exact BitVec.eq_of_toNat_eq (by simp)
  have htarget' : branchTarget next b = target := (branchTarget_eq_ofInt next b).trans htarget.symm
  have hcost : 1 + (pageDiffers target next).toNat = if target.toNat / 256 ≠ next.toNat / 256 then 2 else 1 := by
    rw [pageDiffers_eq]
    split_ifs with h <;> simp [h]
  rw [hexec, branchInstr, hnext', htarget', hcost, State.addCycles, ← Nat.add_assoc]
  rfl

/-- Settles O26: each branch runs `branchInstr` on its flag. -/
theorem branchesTestOneFlag : Obligations.BranchesTestOneFlag := by
  unfold Obligations.BranchesTestOneFlag
  refine ⟨?bpl, ?bmi, ?bvc, ?bvs, ?bcc, ?bcs, ?bne, ?beq⟩ <;>
    exact branchRule_of_runs (fun _ => rfl) (fun _ _ => rfl)

end Sys2Proof.Machine
end

