-- ==== Sys2Proof/Proofs/FlagsSystem.lean ====
section
/-! PROOFS. Statements of `45_flags_system.md`: the flag instructions and NOP, BRK, RTI, and RTI as the inverse of the interrupt
entry and of BRK. Entry and BRK are `takeException`, whose next state stands here once in the words of the statements; that RTI
undoes both comes from one law of the stack: the `k`th byte pushed lies `k` below `SP`. -/

namespace Sys2Proof.Machine

open Sys2Proof.Claims

/-! ## The flag instructions -/

theorem changeFlags_movePc (f : Flags → Flags) (s : State) :
    changeFlags f (movePc 1 s) = { s with cpu := { s.cpu with flags := f s.cpu.flags, pc := s.cpu.pc + 1 } } := rfl

/-- Settles O17: each flag instruction is `changeFlags` of one flag, and NOP moves `PC` alone. -/
theorem flagInstructionsAndNop : Obligations.FlagInstructionsAndNop := by
  unfold Obligations.FlagInstructionsAndNop
  refine ⟨?clc, ?sec, ?cli, ?sei, ?clv, ?cld, ?sed, ?nop⟩
  case nop => exact cpuRule_of_implied rfl (fun _ => rfl) (fun _ => rfl) (fun _ => rfl)
  all_goals exact cpuRule_of_implied rfl (fun _ => rfl) (fun s => changeFlags_movePc _ s) (fun _ => rfl)

/-! ## Taking an exception -/

/-- TAKING AN EXCEPTION in the words of the statements, for a vector in cartridge storage. -/
theorem takeException_eq_pushed {vector : Word} (h : 0x8000 ≤ vector.toNat) (h1 : 0x8000 ≤ (vector + 1).toNat) (ret : Word)
    (brk ack : Bool) (s : State) :
    takeException vector ret brk ack s =
      { s with
        cpu := { s.cpu with
          pc := mkWord (prgByte s (vector + 1)) (prgByte s vector)
          sp := s.cpu.sp - 3
          flags := { s.cpu.flags with i := true } }
        bus := { intLine := if ack then false else s.bus.intLine, latch := prgByte s (vector + 1) }
        mem := pushed [hiByte ret, loByte ret, packed s.cpu.flags brk] s.cpu.sp s.mem } := by
  have hsp : s.cpu.sp - 1 - 1 - 1 = s.cpu.sp - 3 := by rw [BitVec.sub_sub, BitVec.sub_sub]; rfl
  rw [takeException_eq h h1, hsp, ← prgByte_eq_readCell s h, ← prgByte_eq_readCell s h1, ← packP_eq_packed]
  rfl

/-- The interrupt entry in full (R271). -/
theorem interruptEntry_eq (s : State) :
    interruptEntry s =
      { s with
        cpu := { s.cpu with
          pc := mkWord (prgByte s 0xFFFB) (prgByte s 0xFFFA)
          sp := s.cpu.sp - 3
          flags := { s.cpu.flags with i := true }
          cyc := s.cpu.cyc + 7 }
        bus := { intLine := false, latch := prgByte s 0xFFFB }
        mem := pushed [hiByte s.cpu.pc, loByte s.cpu.pc, packed s.cpu.flags false] s.cpu.sp s.mem } :=
  congrArg (State.addCycles · 7)
    (takeException_eq_pushed (vector := Config.intVector) (by decide) (by decide) s.cpu.pc false true s)

/-- Settles O10: BRK takes the exception of the break vector with `PC` past its own byte. -/
theorem brkTakesTheBreakVector : Obligations.BrkTakesTheBreakVector := by
  unfold Obligations.BrkTakesTheBreakVector
  exact ⟨rfl, fun s => congrArg (fun t : State => Host.Outcome.next (t.addCycles 7))
    (takeException_eq_pushed (vector := Config.brkVector) (by decide) (by decide) (s.cpu.pc + 2) true false (movePc 1 s))⟩

/-! ## Returning from an exception -/

/-- Settles O11, by the next state of RTI, with the three moves of `SP` added up. -/
theorem rtiRestoresFlagsAndPc : Obligations.RtiRestoresFlagsAndPc := by
  unfold Obligations.RtiRestoresFlagsAndPc
  refine ⟨rfl, fun s => ?_⟩
  have htwo : s.cpu.sp + 1 + 1 = s.cpu.sp + 2 := BitVec.add_assoc ..
  have hthree : s.cpu.sp + 2 + 1 = s.cpu.sp + 3 := BitVec.add_assoc ..
  rw [exec_rti, htwo, hthree]
  rfl

/-! ## RTI after an exception -/

/-- As long as `SP` does not come round the page, the `k`th byte pushed lies `k` below `SP` (R150). -/
theorem readCell_pushed {bytes : List Byte} (hlen : bytes.length ≤ 256) {k : Nat} (hk : k < bytes.length) (sp : Byte)
    (m : Memory) : readCell .cpu (pushed bytes sp m) (stackCell (sp - BitVec.ofNat 8 k)) = bytes[k] := by
  induction bytes generalizing sp m k with
  | nil => exact absurd hk (Nat.not_lt_zero _)
  | cons b rest ih =>
    rw [List.length_cons] at hlen hk
    cases k with
    | zero =>
      have hother : ∀ j ∈ pushDepths rest.length, stackCell sp ≠ stackCell (sp - 1 - j) := by
        simp only [pushDepths, List.mem_map, List.mem_range, forall_exists_index, and_imp, forall_apply_eq_imp_iff₂,
          stackCell]
        intro j hj
        bv_omega
      rw [BitVec.sub_zero, pushed, readCell_pushed_other hother, readCell_writeCell_same, List.getElem_cons_zero]
    | succ k =>
      rw [BitVec.ofNat_add, BitVec.add_comm, ← BitVec.sub_sub]
      exact ih (by omega) (by omega) (sp - 1) _

/-- Unpacking takes the flags out of their image, whatever bit 4 is (R25). -/
theorem unpacked_packed (f : Flags) (b : Bool) : unpacked (packed f b) = f := by
  rw [← packP_eq_packed]
  exact unpackP_packP f b

/-- RTI where the stack holds what an exception pushed: back to the address, the flags and `SP` (R274). -/
theorem exec_rti_of_pushed {t : State} {w : Word} {f : Flags} {b : Bool} {sp : Byte} {m : Memory}
    (hmem : t.mem = pushed [hiByte w, loByte w, packed f b] sp m) (hsp : t.cpu.sp = sp - 3) :
    exec .rti t = .next
      { t with
        cpu := { t.cpu with pc := w, sp := sp, flags := f, cyc := t.cpu.cyc + 6 }
        bus := { t.bus with latch := hiByte w } } := by
  have hstacked : ∀ k (hk : k < 3), stacked t (3 - BitVec.ofNat 8 k) = [hiByte w, loByte w, packed f b][k] := by
    intro k hk
    have hcell : sp - 3 + (3 - BitVec.ofNat 8 k) = sp - BitVec.ofNat 8 k := by bv_omega
    rw [stacked, hmem, hsp, hcell, readCell_pushed (by simp) hk]
  have hhi : stacked t 3 = hiByte w := hstacked 0 (by decide)
  have hlo : stacked t 2 = loByte w := hstacked 1 (by decide)
  have hflags : stacked t 1 = packed f b := hstacked 2 (by decide)
  rw [rtiRestoresFlagsAndPc.2, hhi, hlo, hflags, hsp, BitVec.sub_add_cancel, mkWord_hiByte_loByte, unpacked_packed]

/-- Settles O12: the entry and BRK leave on the stack what RTI takes back, and no other register is touched. -/
theorem rtiUndoesAnEntry : Obligations.RtiUndoesAnEntry := by
  unfold Obligations.RtiUndoesAnEntry
  refine fun s => ⟨?entry, ?brk⟩
  case entry =>
    rw [interruptEntry_eq]
    exact ⟨_, exec_rti_of_pushed rfl rfl, rfl, rfl, rfl, rfl, rfl, rfl⟩
  case brk => exact ⟨_, _, brkTakesTheBreakVector.2 s, exec_rti_of_pushed rfl rfl, rfl, rfl, rfl, rfl, rfl, rfl⟩

end Sys2Proof.Machine
end

