-- ==== Sys2Proof/Proofs/Exceptions.lean ====
section
/-! PROOFS. Statements of `60_exceptions.md`, and of the clocks, one traversal and construction: the fault, the interrupt entry,
the life of the interrupt line, the agreement of the clocks, and what construction accepts and loads. The line is followed
through ticks, bus accesses and the fetch, and each form of instruction through the bus accesses its rule names; the clocks
through one law of the step, that the CPU step leaves them to the ticks after it. -/

namespace Sys2Proof.Machine

open Sys2Proof.Claims

/-! ## The fault (R261, R262) -/

/-- Settles O7: `step` looks at the fault record first. -/
theorem faultedMachineHasNoStep : Obligations.FaultedMachineHasNoStep := by
  unfold Obligations.FaultedMachineHasNoStep
  intro s r h
  have hstep : step s = .fault (.decodeError r.opcode r.address s) := by simp only [step, h]
  exact ⟨hstep, fun t ht => nomatch hstep.symm.trans ht⟩

/-- An illegal byte ends the fetch: no operand byte is read. -/
theorem fetch_of_illegal {s : State} (h : (busRead s.cpu.pc s).value ∈ illegalBytes) :
    fetch s = .illegal (busRead s.cpu.pc s).value (busRead s.cpu.pc s).state := by
  have hshape : opcodeShape (busRead s.cpu.pc s).value = none :=
    Option.isNone_iff_eq_none.1 ((opcodeShape_isNone_iff _).2 h)
  simp only [fetch, hshape]

theorem advance_of_illegal {s t : State} {op : Byte} (h : interruptTaken s = false) (hf : fetch s = .illegal op t) :
    advance s = .fault (.decodeError op s.cpu.pc (raiseDecodeError op t)) := by
  simp [advance, h, hf]

/-- Settles O6: the state after is that of the one bus read, with the fault record written. -/
theorem illegalOpcodeRaisesDecodeError : Obligations.IllegalOpcodeRaisesDecodeError := by
  unfold Obligations.IllegalOpcodeRaisesDecodeError
  intro s h op hfault hhost hint hop hillegal
  have hcpu : h.cpu = s.cpu := by rw [hhost, takeHostCalls_cpu]
  have hfetch : fetch h = .illegal op (busRead h.cpu.pc h).state := by
    rw [← hop] at hillegal ⊢
    exact fetch_of_illegal hillegal
  rw [← interruptTaken_eq] at hint
  refine ⟨raiseDecodeError op (busRead h.cpu.pc h).state, ?step, ?after, hop, ?mem, busRead_audio _ _,
    fun hregion => ?units⟩
  case step => rw [step_of_not_faulted hfault, ← hhost, advance_of_illegal hint hfetch, hcpu]
  case after => rw [raiseDecodeError, State.setFault, busRead_cpu, hcpu]
  case mem => exact (busRead_mem _ _).trans (by rw [hhost, takeHostCalls_mem])
  case units =>
    rw [← hcpu] at hregion
    exact ⟨(busRead_intLine_eq hregion h).trans (by rw [hhost, takeHostCalls_bus]),
      (busRead_video hregion h).trans (by rw [hhost, takeHostCalls_video])⟩

/-! ## The interrupt entry (R270, R271) -/

/-- Settles O9: the test of R270 sends the step into the entry, whose next state is that of `takeException`. -/
theorem interruptEntryReplacesTheInstruction : Obligations.InterruptEntryReplacesTheInstruction := by
  unfold Obligations.InterruptEntryReplacesTheInstruction
  intro s h hfault hhost hline hmask
  have hcpu : h.cpu = s.cpu := by rw [hhost, takeHostCalls_cpu]
  have hmem : h.mem = s.mem := by rw [hhost, takeHostCalls_mem]
  have htaken : interruptTaken h = true := by
    rw [interruptTaken_eq, hline]
    simpa using hmask
  rw [step_of_not_faulted hfault, ← hhost, advance_of_interruptTaken htaken, tickUnits_eq_ticked, interruptEntry_eq, hcpu,
    hmem]
  rfl

/-! ## The interrupt line under a tick -/

/-- The line after a tick: raised at (241, VBL_DOT) where `ctrl[7]` is set, and never lowered (R343). -/
theorem videoTick_line (cfg : Cfg) (cart : Cart) (t : TickState) :
    (videoTick cfg cart t).line =
      (t.line || (t.unit.scanline == 241 && t.unit.dot == cfg.vblDot && t.unit.ctrl.getLsbD 7)) := by
  unfold videoTick tickEvent Config.postLine Config.vblLine Config.preLine
  dsimp only
  by_cases hevent : t.unit.scanline = 241 ∧ t.unit.dot = cfg.vblDot
  · simp [hevent]
  · have hquiet : (t.unit.scanline == 241 && t.unit.dot == cfg.vblDot) = false := by simpa using hevent
    rw [if_neg hevent, hquiet, Bool.false_and, Bool.or_false]
    split_ifs <;> rfl

/-! ## The interrupt line under bus accesses -/

/-- A bus read lowers the line exactly at video register 2 (R327). -/
theorem busRead_line_eq (a : Word) (s : State) :
    (busRead a s).state.bus.intLine = (s.bus.intLine && !isStatusRegister a) := busRead_line a s

/-- One of the `n` addresses from `a` on is video register 2. -/
def statusAmong (n : Nat) (a : Word) : Bool := (List.range n).any fun k => isStatusRegister (a + BitVec.ofNat 16 k)

theorem statusAmong_succ (n : Nat) (a : Word) : statusAmong (n + 1) a = (isStatusRegister a || statusAmong n (a + 1)) := by
  have hnext : ∀ k, a + BitVec.ofNat 16 (k + 1) = a + 1 + BitVec.ofNat 16 k := fun k => by
    rw [Nat.add_comm, BitVec.ofNat_add, ← BitVec.add_assoc]
    rfl
  simp only [statusAmong, List.range_succ_eq_map, List.any_cons, List.any_map, Function.comp_def, Nat.succ_eq_add_one,
    hnext]
  rw [BitVec.add_zero]

/-- Bytes read one after the other lower the line where one of their addresses is video register 2. -/
theorem readBytes_line (n : Nat) (a : Word) (s : State) :
    (readBytes n a s).state.bus.intLine = (s.bus.intLine && !statusAmong n a) := by
  induction n generalizing a s with
  | zero => exact (Bool.and_true _).symm
  | succ n ih =>
    rw [readBytes, ih, busRead_line_eq, statusAmong_succ, Bool.not_or, Bool.and_assoc]

/-- The transfer's loop does the same: `OamStore` does not touch the line (R446). -/
theorem oamCopy_line (n : Nat) (a : Word) (s : State) :
    (oamCopy n a s).bus.intLine = (s.bus.intLine && !statusAmong n a) := by
  induction n generalizing a s with
  | zero => exact (Bool.and_true _).symm
  | succ n ih =>
    rw [oamCopy, ih, State.setVideo_bus, busRead_line_eq, statusAmong_succ, Bool.not_or, Bool.and_assoc]

/-- A page has video register 2 in it exactly where it is one of video registers (R65). -/
theorem statusAmong_page (p : Byte) : statusAmong 256 (mkWord p 0) = isVideoPage p := by
  have haddr : ∀ k < 256, (mkWord p 0 + BitVec.ofNat 16 k).toNat = 256 * p.toNat + k := by
    intro k hk
    have hp : p.toNat < 256 := p.isLt
    rw [BitVec.toNat_add, mkWord, toNat_append_eq_add, BitVec.toNat_ofNat]
    simp
    omega
  rw [Bool.eq_iff_iff]
  simp only [statusAmong, List.any_eq_true, List.mem_range, isStatusRegister, isVideoPage, Bool.and_eq_true,
    decide_eq_true_eq, beq_iff_eq]
  constructor
  · rintro ⟨k, hk, ⟨hlo, hhi⟩, -⟩
    rw [haddr k hk] at hlo hhi
    omega
  · intro hp
    refine ⟨2, by decide, ?_⟩
    rw [haddr 2 (by decide)]
    omega

/-- A bus write leaves the line, but for a transfer of a page of video registers (R446). -/
theorem busWrite_line (a : Word) (v : Byte) (s : State) :
    (busWrite a v s).bus.intLine = (s.bus.intLine && !(decide (a = 0x4014) && isVideoPage v)) := by
  by_cases h : a = 0x4014
  · rw [decide_eq_true h, h, busWrite_dma, oamCopy_line, statusAmong_page, Bool.true_and]
    rfl
  · rw [busWrite_bus h, decide_eq_false h, Bool.false_and, Bool.not_false, Bool.and_true]

/-! ## The interrupt line under the fetch -/

/-- The bytes of a fetch are as many as the instruction has, and each is one bus read (R100). -/
theorem fetch_line {s t : State} {i : Instr} (h : fetch s = .instr i t) :
    t.bus.intLine = (s.bus.intLine && !statusAmong i.length s.cpu.pc) := by
  obtain ⟨sh, hsh, rfl⟩ := fetch_instr h
  have hbytes := readBytes_length (sh.length - 1) (s.cpu.pc + 1) (busRead s.cpu.pc s).state
  obtain ⟨j, hj⟩ := decode_of_length hsh hbytes
  obtain ⟨rfl, -⟩ := Fetched.instr.inj (h.symm.trans (fetch_of_decode hsh hj))
  have hlength : i.length = sh.length - 1 + 1 := by
    rw [← (decodeReadsBackEncode i [] []).2, encode_of_decode hj, List.length_cons, hbytes]
  rw [hlength, statusAmong_succ, readBytes_line, busRead_line_eq, Bool.not_or, Bool.and_assoc]

/-- A fetch that ends at an illegal byte is the one bus read of that byte (R261). -/
theorem fetch_illegal_line {s t : State} {op : Byte} (h : fetch s = .illegal op t) :
    t.bus.intLine = (s.bus.intLine && !isStatusRegister s.cpu.pc) := by
  by_cases hop : (busRead s.cpu.pc s).value ∈ illegalBytes
  · obtain ⟨-, rfl⟩ := Fetched.illegal.inj (h.symm.trans (fetch_of_illegal hop))
    exact busRead_line_eq _ _
  · obtain ⟨i, u, hfetch⟩ := fetch_of_legal hop
    exact nomatch h.symm.trans hfetch

/-! ## The interrupt line under the instructions -/

/-- No elementary operation of an instruction raises the line. -/
theorem kept_line_not_raised (b : Bool) : Kept fun s => s.bus.intLine = true → b = true where
  cpu _ _ _ _ h := h
  read _ _ h hline := h (busRead_intLine hline)
  write _ _ _ h hline := h (busWrite_intLine hline)

theorem readSource_line (src : Source) (s : State) :
    (readSource src s).state.bus.intLine = (s.bus.intLine && !readsStatus src s) := by
  cases src with
  | imm b => exact (Bool.and_true _).symm
  | mem m => exact (busRead_line_eq _ _).trans (by rw [resolve_intLine]; rfl)

/-- A read instruction does to the line what its operand read does (R164). -/
theorem readForms_line {b1 b2 : Byte} {r : ReadForm} (hr : r ∈ readForms b1 b2) {s t : State}
    (ht : exec r.instr s = .next t) : t.bus.intLine = (s.bus.intLine && !readsStatus r.src (past r.bytes.length s)) := by
  obtain ⟨c, rfl⟩ := readForms_next hr ht
  rw [(readForms_readRow b1 b2 r hr).length]
  exact readSource_line r.src _

/-- A store does to the line what its bus write does (R140). -/
theorem lineAfterStore_of_rule {forms : Byte → Byte → List WriteForm} {reg : Cpu → Byte} (h : StoreRule forms reg) :
    LineAfterStore forms reg := by
  rintro b1 b2 s t r hr ht ea rfl
  obtain rfl := Host.Outcome.next.inj ((h b1 b2 s r hr).2.symm.trans ht)
  exact (busWrite_line _ _ _).trans (by rw [resolve_intLine]; rfl)

/-- A read-modify-write does to the line what its bus read and its bus write do (R180). -/
theorem lineAfterRmw_of_rule {forms : Byte → Byte → List WriteForm} {op : Byte → Flags → Byte × Flags}
    (h : RmwRule forms op) : LineAfterRmw forms op := by
  rintro b1 b2 s t r hr ht e d he hd
  obtain rfl := Host.Outcome.next.inj (((h b1 b2 s r hr).2 e d he hd).symm.trans ht)
  refine (busWrite_line _ _ _).trans ?_
  rw [hd, busRead_line_eq, he, resolve_intLine]
  rfl

/-- JMP through a pointer does to the line what the two reads of its pointer do (R106, R197). -/
theorem jumpThrough_line (w : Word) (s : State) :
    (jumpThrough w s).bus.intLine =
      (s.bus.intLine && !(isStatusRegister w ||
        isStatusRegister (mkWord (hiByte w) (BitVec.ofNat 8 ((w.toNat + 1) % 256))))) := by
  rw [jumpThrough_eq rfl rfl]
  dsimp only
  rw [busRead_line_eq, busRead_line_eq, Bool.not_or, Bool.and_assoc]
  rfl

/-- Beside JMP through a pointer there are those that push and those that push nothing. -/
theorem otherForms_subset (w : Word) (b : Byte) :
    otherForms w b ⊆ .jmpInd w :: ((pushForms w).map Prod.fst ++
      ([Instr.pla, .plp, .rts, .rti, .jmpAbs w] ++ (branchForms b ++ registerForms))) := by
  intro i hi
  have hi : i ∈ [Instr.pha, .php, .pla, .plp, .jmpAbs w, .jmpInd w, .jsr w, .rts, .brk, .rti] ++
      (branchForms b ++ registerForms) := hi
  obtain hi | hi := List.mem_append.1 hi
  · fin_cases hi <;> simp [pushForms]
  · exact List.mem_cons_of_mem _ (List.mem_append_right _ (List.mem_append_right _ hi))

/-- JMP through a pointer apart, they leave the line as it is: a push touches internal RAM alone. -/
theorem otherForms_line {w : Word} {b : Byte} {i : Instr} (hi : i ∈ otherForms w b) (hne : i ≠ .jmpInd w) {s t : State}
    (ht : exec i s = .next t) : t.bus.intLine = s.bus.intLine := by
  have hpush : ∃ bytes, Pushes bytes s t := by
    obtain hi | hi := List.mem_append.1 ((List.mem_cons.1 (otherForms_subset w b hi)).resolve_left hne)
    · obtain ⟨p, hp, rfl⟩ := List.mem_map.1 hi
      obtain ⟨bytes, -, hpush, -⟩ := pushForms_push hp ht
      exact ⟨bytes, hpush⟩
    · obtain ⟨u, hu, hpush⟩ := quietForms_pushNothing w b i hi s
      obtain rfl := Host.Outcome.next.inj (hu.symm.trans ht)
      exact ⟨[], hpush⟩
  obtain ⟨bytes, hpush⟩ := hpush
  obtain ⟨-, -, -, -, -, -, hline⟩ := hpush.units
  exact hline

/-- Settles O13, clause by clause: the ticks, the two bus accesses, the host, the fetch, and each form of instruction through
the bus accesses it makes. -/
theorem lifeOfTheInterruptLine : Obligations.LifeOfTheInterruptLine := by
  unfold Obligations.LifeOfTheInterruptLine
  refine ⟨videoTick_line, ?ticks, busRead_line_eq, busWrite_line, ?host, fun s t i => fetch_line,
    fun s t op => fetch_illegal_line, ?raise, fun b1 b2 s t r hr => readForms_line hr, ?stores, ?rmws, ?others, ?entry⟩
  case ticks => exact fun c s => by rw [tickUnits_eq_ticked]; rfl
  case host => exact fun s => by rw [takeHostCalls_bus]
  case raise => exact fun i s t ht => (kept_line_not_raised s.bus.intLine).exec ht id
  case stores =>
    obtain ⟨hsta, hstx, hsty⟩ := storesWriteTheRegisterOnce
    exact ⟨lineAfterStore_of_rule hsta, lineAfterStore_of_rule hstx, lineAfterStore_of_rule hsty⟩
  case rmws =>
    obtain ⟨hinc, hdec, -⟩ := incrementsAndDecrementsWrap
    obtain ⟨hasl, hlsr, hrol, hror, -⟩ := shiftsMoveOneBitThroughCarry
    exact ⟨lineAfterRmw_of_rule hinc, lineAfterRmw_of_rule hdec, lineAfterRmw_of_rule hasl, lineAfterRmw_of_rule hlsr,
      lineAfterRmw_of_rule hrol, lineAfterRmw_of_rule hror⟩
  case others =>
    intro w b s t i hi ht
    by_cases hind : i = .jmpInd w
    · rw [decide_eq_true hind, Bool.true_and]
      subst hind
      obtain rfl : jumpThrough w s = t := Host.Outcome.next.inj ht
      exact jumpThrough_line w s
    · rw [decide_eq_false hind, Bool.false_and, Bool.not_false, Bool.and_true]
      exact otherForms_line hi hind ht
  case entry => exact fun s => by rw [interruptEntry_eq]

/-! ## What the CPU step leaves of the clocks -/

/-- What a statement about the clocks reads of the video unit: the position and the frame count (R31). -/
def Video.clock (u : Video) : Nat × Nat × Nat := (u.scanline, u.dot, u.frameCount)

theorem busRead_clock (a : Word) (s : State) : (busRead a s).state.video.clock = s.video.clock :=
  (congrArg Video.clock (busRead_sameBesideReads a s) :)

theorem videoMemWrite_clock (cart : Cart) (u : Video) (addr : Nat) (v : Byte) :
    (videoMemWrite cart u addr v).clock = u.clock := by
  unfold videoMemWrite
  simp only
  split_ifs <;> rfl

/-- No register write moves the position (R321). -/
theorem videoRegWrite_clock (cart : Cart) (u : Video) (r : Nat) (v : Byte) :
    (videoRegWrite cart u r v).clock = u.clock := by
  unfold videoRegWrite
  split
  case h_5 => unfold scrollWrite; split <;> rfl
  case h_6 => unfold addrWrite; split <;> rfl
  case h_7 => exact videoMemWrite_clock cart u _ v
  all_goals rfl

theorem oamCopy_clock (n : Nat) (a : Word) (s : State) : (oamCopy n a s).video.clock = s.video.clock := by
  induction n generalizing a s with
  | zero => rfl
  | succ n ih => exact (ih _ _).trans (busRead_clock a s)

theorem busWrite_clock (a : Word) (v : Byte) (s : State) : (busWrite a v s).video.clock = s.video.clock := by
  unfold busWrite regionWrite
  cases region a with
  | video => exact videoRegWrite_clock s.cart s.video _ v
  | io =>
    simp only [ioWrite]
    split_ifs
    · exact oamCopy_clock _ _ _
    · rfl
    · rfl
  | cartridge => simp only [mapperWrite]; split_ifs <;> rfl
  | ram => rfl
  | unmapped => rfl

/-- No register write of the audio unit moves its cycle count (R382). -/
theorem audioWrite_apuCycle (a : Audio) (k : Nat) (v : Byte) : (audioWrite a k v).apuCycle = a.apuCycle := by
  have hsequencer : (sequencerWrite a v).apuCycle = a.apuCycle := by
    unfold sequencerWrite
    dsimp only
    split <;> rfl
  simp only [audioWrite, audioEnable, apply_ite Audio.apuCycle, hsequencer, ite_self]

theorem busWrite_apuCycle (a : Word) (v : Byte) (s : State) :
    (busWrite a v s).audio.apuCycle = s.audio.apuCycle := by
  unfold busWrite regionWrite
  cases region a with
  | io =>
    simp only [ioWrite]
    split_ifs
    · rw [oamDma_audio]; rfl
    · rfl
    · exact audioWrite_apuCycle s.audio _ v
  | cartridge => simp only [mapperWrite]; split_ifs <;> rfl
  | ram => rfl
  | video => rfl
  | unmapped => rfl

/-- From `s` to `t` the units' clocks have stood still, and `cyc` has not gone back. -/
structure ClocksStill (s t : State) : Prop where
  video : t.video.clock = s.video.clock
  audio : t.audio.apuCycle = s.audio.apuCycle
  cyc : s.cpu.cyc ≤ t.cpu.cyc

namespace ClocksStill

/-- The elementary operations of an instruction leave the units' clocks to the ticks. -/
theorem kept (s : State) : Kept (ClocksStill s) where
  cpu _ _ _ hcyc h := ⟨h.video, h.audio, h.cyc.trans hcyc⟩
  read a t h := ⟨(busRead_clock a t).trans h.video, by rw [busRead_audio, h.audio], by rw [busRead_cpu]; exact h.cyc⟩
  write a v t h :=
    ⟨(busWrite_clock a v t).trans h.video, (busWrite_apuCycle a v t).trans h.audio, by rw [busWrite_cpu]; exact h.cyc⟩

theorem takeHostCalls (s : State) : ClocksStill s (takeHostCalls s) where
  video := by rw [takeHostCalls_video]
  audio := takeHostCalls_keeps (P := fun t => t.audio.apuCycle = s.audio.apuCycle)
    (fun c t h => by rcases c with ⟨_ | _, _⟩ | _ <;> exact h) (fun _ _ h => h) rfl
  cyc := by rw [takeHostCalls_cpu]

end ClocksStill

/-- What the elementary operations keep, the fetch keeps: it is bus reads (R100). -/
theorem Kept.fetch {P : State → Prop} (K : Kept P) {s t : State} {i : Instr} (hf : fetch s = .instr i t) (h : P s) :
    P t := by
  have hbytes : ∀ n a s, P s → P (readBytes n a s).state := by
    intro n
    induction n with
    | zero => exact fun _ _ h => h
    | succ n ih => exact fun a s h => ih _ _ (K.read a s h)
  obtain ⟨_, _, rfl⟩ := fetch_instr hf
  exact hbytes _ _ _ (K.read _ _ h)

/-- A step is a CPU step that leaves the units' clocks alone, then the ticks of the cycles it took (R300). -/
theorem step_next_ticks {s t : State} (h : step s = .next t) :
    ∃ u, ClocksStill s u ∧ t = tickUnits (u.cpu.cyc - s.cpu.cyc) u := by
  have K := ClocksStill.kept s
  have hcyc : (takeHostCalls s).cpu.cyc = s.cpu.cyc := by rw [takeHostCalls_cpu]
  obtain ⟨-, ⟨-, rfl⟩ | ⟨-, i, f, u, hf, he, rfl⟩⟩ := step_next h
  · refine ⟨_, K.interruptEntry (fun _ h => ⟨h.video, h.audio, h.cyc⟩) (.takeHostCalls s), ?_⟩
    rw [interruptEntry_eq, ← hcyc, Nat.add_sub_cancel_left]
    rfl
  · refine ⟨u, K.exec he (K.fetch hf (.takeHostCalls s)), ?_⟩
    rw [fetch_instr_cpu hf, hcyc]

/-! ## Many ticks -/

theorem Video.position_lt {u : Video} (h : u.inRange = true) : u.position < 89342 := by
  simp only [Video.inRange, Bool.and_eq_true, decide_eq_true_eq] at h
  unfold Video.position
  omega

/-- `n` ticks from a position in range: in range, `n` positions further in the traversal of 89342, and one frame more for
each passage of (240, 0), which is position 81840 = 89342 - 7502 (R310, R340). -/
theorem videoTicks_position (cfg : Cfg) (cart : Cart) (n : Nat) {t : TickState} (h : t.unit.inRange = true) :
    (videoTicks cfg cart n t).unit.inRange = true ∧
      (videoTicks cfg cart n t).unit.position = (t.unit.position + n) % 89342 ∧
      (videoTicks cfg cart n t).unit.frameCount + (t.unit.position + 7501) / 89342 =
        t.unit.frameCount + (t.unit.position + n + 7501) / 89342 := by
  induction n generalizing t with
  | zero => exact ⟨h, (Nat.mod_eq_of_lt (Video.position_lt h)).symm, rfl⟩
  | succ n ih =>
    obtain ⟨hrange, hpos, hframes⟩ := videoTick_position cfg cart h
    obtain ⟨ihrange, ihpos, ihframes⟩ := ih hrange
    have hlt := Video.position_lt h
    refine ⟨ihrange, ?_, ?_⟩
    · rw [videoTicks, ihpos, hpos]
      omega
    · rw [hpos, hframes] at ihframes
      rw [videoTicks]
      split_ifs at ihframes with hhandoff <;> omega

/-! ## The clocks agree -/

theorem State.clocksAgree_iff (s : State) :
    s.clocksAgree = true ↔
      s.audio.apuCycle = s.cpu.cyc ∧ s.video.inRange = true ∧ s.video.position = 3 * s.cpu.cyc % 89342 ∧
        s.video.frameCount = (3 * s.cpu.cyc + 7501) / 89342 := by
  simp only [State.clocksAgree, Bool.and_eq_true, decide_eq_true_iff, and_assoc]
  rfl

/-- The ticks of the cycles that have passed bring the units' clocks level with `cyc` again. -/
theorem clocksAgree_tickUnits {s u : State} (h : s.clocksAgree = true) (hu : ClocksStill s u) :
    (tickUnits (u.cpu.cyc - s.cpu.cyc) u).clocksAgree = true := by
  obtain ⟨hvideo, haudio, hcyc⟩ := hu
  obtain ⟨hscanline, hdot, hcount⟩ : u.video.scanline = s.video.scanline ∧ u.video.dot = s.video.dot ∧
      u.video.frameCount = s.video.frameCount := by simpa [Video.clock] using hvideo
  rw [State.clocksAgree_iff] at h ⊢
  obtain ⟨hapu, hrange, hpos, hframes⟩ := h
  have hrange' : u.video.inRange = true := by rw [Video.inRange, hscanline, hdot]; exact hrange
  have hpos' : u.video.position = s.video.position := by rw [Video.position, hscanline, hdot]; rfl
  obtain ⟨trange, tpos, tframes⟩ := videoTicks_position u.cfg u.cart (3 * (u.cpu.cyc - s.cpu.cyc))
    (t := { unit := u.video, line := u.bus.intLine }) hrange'
  simp only [hpos', hpos, hcount, hframes] at tpos tframes
  have hsplit : ∀ k, (3 * s.cpu.cyc + k) / 89342 = 3 * s.cpu.cyc / 89342 + (3 * s.cpu.cyc % 89342 + k) / 89342 := by
    omega
  have hnow := hsplit 7501
  have hthen := hsplit (3 * (u.cpu.cyc - s.cpu.cyc) + 7501)
  refine ⟨?_, trange, ?_, ?_⟩
  · show (audioTicks u.cfg (1 * (u.cpu.cyc - s.cpu.cyc)) u.audio).apuCycle = u.cpu.cyc
    rw [audioTicks_apuCycle]
    omega
  · refine tpos.trans ?_
    show _ = 3 * u.cpu.cyc % 89342
    omega
  · show (videoTicks u.cfg u.cart (3 * (u.cpu.cyc - s.cpu.cyc)) _).unit.frameCount = (3 * u.cpu.cyc + 7501) / 89342
    omega

/-- Settles O55: the CPU step leaves the units' clocks alone, and the ticks after it are those of the cycles it took. -/
theorem clocksStayInAgreement : Obligations.ClocksStayInAgreement := by
  unfold Obligations.ClocksStayInAgreement
  intro s t hs hst
  obtain ⟨u, hu, rfl⟩ := step_next_ticks hst
  exact clocksAgree_tickUnits hs hu

/-! ## One traversal -/

theorem tickEvent_ctrl (cfg : Cfg) (cart : Cart) (t : TickState) : (tickEvent cfg cart t).unit.ctrl = t.unit.ctrl := by
  unfold tickEvent
  simp only
  split_ifs <;> rfl

theorem videoTick_ctrl (cfg : Cfg) (cart : Cart) (t : TickState) : (videoTick cfg cart t).unit.ctrl = t.unit.ctrl := by
  have hadvance : ∀ u : Video, (advanceDot u).ctrl = u.ctrl := fun u => by unfold advanceDot; split <;> rfl
  exact (hadvance _).trans (tickEvent_ctrl cfg cart t)

/-- The line after `n` ticks: raised where `ctrl[7]` is set and one of them started at (241, VBL_DOT). -/
theorem videoTicks_line (cfg : Cfg) (cart : Cart) (n : Nat) (t : TickState) :
    (videoTicks cfg cart n t).line = true ↔
      t.line = true ∨ t.unit.ctrl.getLsbD 7 = true ∧
        ∃ k < n, (videoTicks cfg cart k t).unit.scanline = 241 ∧ (videoTicks cfg cart k t).unit.dot = cfg.vblDot := by
  induction n generalizing t with
  | zero => simp [videoTicks]
  | succ n ih =>
    rw [videoTicks, ih, videoTick_line, videoTick_ctrl, Nat.exists_lt_succ_left]
    simp only [videoTicks, Bool.or_eq_true, Bool.and_eq_true, beq_iff_eq]
    tauto

/-- A position in range is that of one scanline and one dot. -/
theorem Video.position_eq_iff {u : Video} (h : u.inRange = true) {y x : Nat} (hx : x < 341) :
    u.position = 341 * y + x ↔ u.scanline = y ∧ u.dot = x := by
  simp only [Video.inRange, Bool.and_eq_true, decide_eq_true_eq] at h
  unfold Video.position
  omega

/-- Each position is passed exactly once in a traversal. -/
theorem existsUnique_tick_at (cfg : Cfg) (cart : Cart) {t : TickState} (h : t.unit.inRange = true) {y x : Nat}
    (hy : y < 262) (hx : x < 341) :
    ∃! k, k < 89342 ∧ (videoTicks cfg cart k t).unit.scanline = y ∧ (videoTicks cfg cart k t).unit.dot = x := by
  have hlt := Video.position_lt h
  have hat : ∀ k, (videoTicks cfg cart k t).unit.scanline = y ∧ (videoTicks cfg cart k t).unit.dot = x ↔
      (t.unit.position + k) % 89342 = 341 * y + x := by
    intro k
    obtain ⟨hrange, hpos, -⟩ := videoTicks_position cfg cart k h
    rw [← hpos, Video.position_eq_iff hrange hx]
  simp only [hat]
  refine ⟨(341 * y + x + 89342 - t.unit.position) % 89342, ⟨by omega, by omega⟩, fun k hk => ?_⟩
  omega

/-- Settles O43: a traversal is 89342 positions, so each is passed once, (240, 0) and the vertical-blank event too. -/
theorem oneTraversalOneFrameOneEdge : Obligations.OneTraversalOneFrameOneEdge := by
  unfold Obligations.OneTraversalOneFrameOneEdge
  intro cfg cart t hcfg h
  have hdot : cfg.vblDot < 341 := by
    simp only [Cfg.wf, Bool.and_eq_true, decide_eq_true_eq] at hcfg
    omega
  have hlt := Video.position_lt h
  obtain ⟨-, hpos, hframes⟩ := videoTicks_position cfg cart 89342 h
  have hblank := existsUnique_tick_at cfg cart h (y := 241) (by decide) hdot
  refine ⟨by omega, by omega, ?_, hblank⟩
  rw [Bool.eq_iff_iff, videoTicks_line, Bool.or_eq_true, and_iff_left hblank.exists]

/-! ## Sparse memories end to end -/

/-- Outside its range `cellsFrom` lists nothing. -/
theorem lookupCell_cellsFrom_outside {sp : Space} {base k : Nat} {bytes : List Byte}
    (h : k < base ∨ base + bytes.length ≤ k) : lookupCell (cellsFrom sp base bytes) k = none := by
  by_contra hne
  obtain ⟨v, hv⟩ := Option.ne_none_iff_exists'.1 hne
  obtain ⟨hlo, hhi, -⟩ := cellsFrom_mem (lookupCell_mem hv)
  dsimp only at hlo hhi
  omega

theorem lookupCell_append {α : Type} (m m' : List (Nat × α)) (k : Nat) :
    lookupCell (m ++ m') k = (lookupCell m k).or (lookupCell m' k) := by
  induction m with
  | nil => rfl
  | cons c rest ih =>
    rw [List.cons_append, lookupCell, lookupCell, ih]
    split <;> rfl

theorem readCell_append_left {sp : Space} {m m' : Memory} {k : Nat} (h : lookupCell m' k = none) :
    readCell sp (m ++ m') k = readCell sp m k := by
  simp only [readCell, lookupCell_append, h, Option.or_none]

theorem readCell_append_right {sp : Space} {m m' : Memory} {k : Nat} (h : lookupCell m k = none) :
    readCell sp (m ++ m') k = readCell sp m' k := by
  simp only [readCell, lookupCell_append, h, Option.none_or]

theorem rising_append {α : Type} {m m' : List (Nat × α)} (h : rising m = true) (h' : rising m' = true)
    (hlt : ∀ c ∈ m, ∀ d ∈ m', c.1 < d.1) : rising (m ++ m') = true := by
  induction m with
  | nil => exact h'
  | cons c rest ih =>
    refine rising_of_lt (fun d hd => ?_) (ih ((rising_cons_iff c rest).1 h).2 fun e he =>
      hlt e (List.mem_cons_of_mem _ he))
    obtain hd | hd := List.mem_append.1 hd
    · exact rising_lt h d hd
    · exact hlt c List.mem_cons_self d hd

/-- Two canonical memories, one below the other, are one canonical memory. -/
theorem Memory.wf_append {sp : Space} {m m' : Memory} (h : Memory.wf sp m = true) (h' : Memory.wf sp m' = true)
    (hlt : ∀ c ∈ m, ∀ d ∈ m', c.1 < d.1) : Memory.wf sp (m ++ m') = true := by
  rw [Memory.wf_iff] at h h' ⊢
  exact ⟨rising_append h.1 h'.1 hlt, List.forall_mem_append.2 ⟨h.2, h'.2⟩⟩

/-- What `cellsFrom` lists are the given bytes. -/
theorem cellsFrom_byte_mem {sp : Space} {base : Nat} {bytes : List Byte} {c : Host.Cell}
    (h : c ∈ cellsFrom sp base bytes) : c.2 ∈ bytes := by
  unfold cellsFrom at h
  obtain ⟨⟨b, k⟩, hk, hc⟩ := List.mem_filterMap.1 h
  split_ifs at hc
  obtain rfl := Option.some.inj hc
  exact List.fst_mem_of_mem_zipIdx hk

/-- The first bytes of a launch list, as many as the memory has, read as the list gives them. -/
theorem readCell_cellsFrom_take {sp : Space} {base k n : Nat} {bytes : List Byte} (hk : k < n) (hlen : k < bytes.length) :
    readCell sp (cellsFrom sp base (bytes.take n)) (base + k) = bytes.getD k 0 := by
  rw [readCell_cellsFrom (by rw [List.length_take]; omega), List.getD_eq_getElem?_getD, List.getD_eq_getElem?_getD,
    List.getElem?_take_of_lt hk]

/-- The same for a memory that starts at address 0. -/
theorem readCell_cellsFrom_zero {sp : Space} {k : Nat} {bytes : List Byte} (hk : k < bytes.length) :
    readCell sp (cellsFrom sp 0 bytes) k = bytes.getD k 0 := by
  simpa only [Nat.zero_add] using readCell_cellsFrom (sp := sp) (base := 0) hk

theorem readCell_cellsFrom_zero_take {sp : Space} {k n : Nat} {bytes : List Byte} (hk : k < n) (hlen : k < bytes.length) :
    readCell sp (cellsFrom sp 0 (bytes.take n)) k = bytes.getD k 0 := by
  simpa only [Nat.zero_add] using readCell_cellsFrom_take (sp := sp) (base := 0) hk hlen

/-! ## What construction makes -/

/-- R440's acceptance test, as the list of what it accepts. -/
theorem check_eq_none_iff (c : Cartridge) :
    c.check = none ↔
      c.mapperId = 0 ∧ (c.prg.length = 16384 ∨ c.prg.length = 32768) ∧ (c.chr.length = 8192 ∨ c.chr.length = 0) ∧
        c.mirroring ≠ .fourScreen := by
  unfold Cartridge.check
  split_ifs <;> simp only [false_iff, true_iff] <;> tauto

/-- What is fixed at construction (R42). -/
def fixedCart (c : Cartridge) : Cart :=
  { prgSize := if c.prg.length = 16384 then .k16 else .k32, mirroring := mirroringOf c.mirroring,
    chrWritable := decide (c.chr.length = 0) }

/-- The bytes of cartridge RAM: none where the parameters give no cartridge RAM (R471). -/
def loadedPrgRam (cfg : Cfg) (l : Launch) : List Byte := if cfg.prgRam then l.prgRam0.take 8192 else []

/-- The storage behind the CPU address space at power-on: internal RAM, cartridge RAM, PRG (R470, R471). -/
def loadedMem (cfg : Cfg) (c : Cartridge) (l : Launch) : Memory :=
  cellsFrom .cpu 0 (l.ram0.take 2048) ++ cellsFrom .cpu 0x6000 (loadedPrgRam cfg l) ++ cellsFrom .cpu 0x8000 c.prg

/-- The palette's launch bytes, six bits of each (R470). -/
def loadedPal (l : Launch) : List Byte := (l.pal0.take 32).map fun b => b &&& 0x3F

/-- The bytes of pattern memory: the cartridge's, or the launch bytes where it has none (R470). -/
def loadedChr (c : Cartridge) (l : Launch) : List Byte := if c.chr.length = 0 then l.chr0.take 8192 else c.chr

/-- The machine an accepted cartridge gives. -/
def constructed (cfg : Cfg) (c : Cartridge) (l : Launch) : State :=
  powerOn cfg (fixedCart c) (loadedMem cfg c l) (cellsFrom .oam 0 (l.oam0.take 256))
    (cellsFrom .nameTable 0 (l.nt0.take 2048)) (cellsFrom .palette 0 (loadedPal l))
    (cellsFrom (chrSpace (fixedCart c)) 0 (loadedChr c l))

theorem construct_of_check_none {c : Cartridge} (h : c.check = none) (cfg : Cfg) (l : Launch) :
    construct cfg c l = .machine (constructed cfg c l) := by
  simp only [construct, h, constructed, loadedChr, decide_eq_true_eq]
  rfl

theorem construct_of_check_some {c : Cartridge} {e : MapperConfigError} (h : c.check = some e) (cfg : Cfg) (l : Launch) :
    construct cfg c l = .error e := by
  simp only [construct, h]

theorem construct_eq_machine {cfg : Cfg} {c : Cartridge} {l : Launch} {s : State} (h : construct cfg c l = .machine s) :
    c.check = none ∧ s = constructed cfg c l := by
  cases hc : c.check with
  | none => exact ⟨rfl, (Constructed.machine.inj ((construct_of_check_none hc cfg l).symm.trans h)).symm⟩
  | some e => exact nomatch (construct_of_check_some hc cfg l).symm.trans h

theorem exists_construct_eq_error_iff (cfg : Cfg) (c : Cartridge) (l : Launch) :
    (∃ e, construct cfg c l = .error e) ↔ c.check ≠ none := by
  cases hc : c.check with
  | none =>
    rw [construct_of_check_none hc]
    simp
  | some e =>
    rw [construct_of_check_some hc]
    simp

/-! ## What the built machine holds -/

theorem length_loadedPrgRam (cfg : Cfg) (l : Launch) : (loadedPrgRam cfg l).length ≤ 8192 := by
  unfold loadedPrgRam
  split
  · exact List.length_take_le _ _
  · exact Nat.zero_le _

theorem prgLength_fixedCart {c : Cartridge} (h : c.check = none) : prgLength (fixedCart c).prgSize = c.prg.length := by
  obtain ⟨-, hprg, -, -⟩ := (check_eq_none_iff c).1 h
  unfold fixedCart
  dsimp only
  split_ifs with h16
  · exact h16.symm
  · exact (hprg.resolve_left h16).symm

theorem readCell_loadedMem_ram (cfg : Cfg) (c : Cartridge) (l : Launch) {k : Nat} (hk : k < 2048)
    (hlen : k < l.ram0.length) : readCell .cpu (loadedMem cfg c l) k = l.ram0.getD k 0 := by
  unfold loadedMem
  rw [readCell_append_left (lookupCell_cellsFrom_outside (.inl (by omega))),
    readCell_append_left (lookupCell_cellsFrom_outside (.inl (by omega)))]
  exact readCell_cellsFrom_zero_take hk hlen

theorem readCell_loadedMem_prgRam {cfg : Cfg} (hcfg : cfg.prgRam = true) (c : Cartridge) (l : Launch) {k : Nat}
    (hk : k < 8192) (hlen : k < l.prgRam0.length) :
    readCell .cpu (loadedMem cfg c l) (0x6000 + k) = l.prgRam0.getD k 0 := by
  have hram : (l.ram0.take 2048).length ≤ 2048 := List.length_take_le _ _
  unfold loadedMem
  rw [readCell_append_left (lookupCell_cellsFrom_outside (.inl (by omega))),
    readCell_append_right (lookupCell_cellsFrom_outside (.inr (by omega))), loadedPrgRam, if_pos hcfg]
  exact readCell_cellsFrom_take hk hlen

theorem readCell_loadedMem_prg (cfg : Cfg) (c : Cartridge) (l : Launch) {k : Nat} (hk : k < c.prg.length) :
    readCell .cpu (loadedMem cfg c l) (0x8000 + k) = c.prg.getD k 0 := by
  have hram : (l.ram0.take 2048).length ≤ 2048 := List.length_take_le _ _
  have hprgRam := length_loadedPrgRam cfg l
  have hbelow : lookupCell (cellsFrom .cpu 0 (l.ram0.take 2048) ++ cellsFrom .cpu 0x6000 (loadedPrgRam cfg l))
      (0x8000 + k) = none := by
    rw [lookupCell_append, lookupCell_cellsFrom_outside (.inr (by omega)),
      lookupCell_cellsFrom_outside (.inr (by omega))]
    rfl
  rw [loadedMem, readCell_append_right hbelow]
  exact readCell_cellsFrom hk

/-- A PRG address holds the cartridge's byte at its offset (R441). -/
theorem storedByte_constructed_prg {c : Cartridge} (h : c.check = none) (cfg : Cfg) (l : Launch) {a : Word}
    (ha : 0x8000 ≤ a.toNat) :
    storedByte (constructed cfg c l) a = some (c.prg.getD ((a.toNat - 0x8000) % c.prg.length) 0) := by
  have hle : (0x8000 : Word) ≤ a := ha
  have hpos : 0 < c.prg.length := by
    obtain ⟨-, hprg, -, -⟩ := (check_eq_none_iff c).1 h
    omega
  have hcell : prgCell (fixedCart c).prgSize a = 0x8000 + (a.toNat - 0x8000) % c.prg.length := by
    rw [prgCell, prgLength_fixedCart h, BitVec.toNat_sub_of_le hle]
    rfl
  have hread := readCell_loadedMem_prg cfg c l (Nat.mod_lt (a.toNat - 0x8000) hpos)
  rw [← hcell] at hread
  simp only [storedByte, storageCell_prg ha]
  exact congrArg some hread

/-- Each cell of the storage lies in one of its three ranges. -/
theorem mem_loadedMem {cfg : Cfg} {c : Cartridge} {l : Launch} {x : Host.Cell} (h : x ∈ loadedMem cfg c l) :
    x.1 < 2048 ∨ (cfg.prgRam = true ∧ 0x6000 ≤ x.1 ∧ x.1 < 0x8000) ∨
      (0x8000 ≤ x.1 ∧ x.1 < 0x8000 + c.prg.length) := by
  have hram : (l.ram0.take 2048).length ≤ 2048 := List.length_take_le _ _
  have hprgRam := length_loadedPrgRam cfg l
  obtain (h | h) | h := (List.mem_append.1 h).imp_left List.mem_append.1
  · obtain ⟨-, hhi, -⟩ := cellsFrom_mem h
    exact .inl (by omega)
  · obtain ⟨hlo, hhi, -⟩ := cellsFrom_mem h
    refine .inr (.inl ⟨?_, hlo, by omega⟩)
    by_contra hcfg
    rw [loadedPrgRam, if_neg hcfg, List.length_nil] at hhi
    omega
  · obtain ⟨hlo, hhi, -⟩ := cellsFrom_mem h
    exact .inr (.inr ⟨hlo, hhi⟩)

theorem wf_loadedMem {c : Cartridge} (h : c.prg.length ≤ 32768) (cfg : Cfg) (l : Launch) :
    Memory.wf .cpu (loadedMem cfg c l) = true := by
  have hram : (l.ram0.take 2048).length ≤ 2048 := List.length_take_le _ _
  have hprgRam := length_loadedPrgRam cfg l
  have below : ∀ {b b' : Nat} {m m' : List Byte}, b + m.length ≤ b' → ∀ x ∈ cellsFrom .cpu b m,
      ∀ y ∈ cellsFrom .cpu b' m', x.1 < y.1 := by
    intro b b' m m' hb x hx y hy
    obtain ⟨-, hhi, -⟩ := cellsFrom_mem hx
    obtain ⟨hlo, -, -⟩ := cellsFrom_mem hy
    omega
  refine Memory.wf_append (Memory.wf_append (cellsFrom_wf ?ram) (cellsFrom_wf ?prgRam) (below (by omega)))
    (cellsFrom_wf ?prg) (List.forall_mem_append.2 ⟨below (by omega), below (by omega)⟩)
  all_goals
    intro k _ _
    simp only [spaceHolds, Bool.or_eq_true, Bool.and_eq_true, decide_eq_true_eq]
    omega

/-- The storage at power-on is canonical, with cells this machine has. -/
theorem memCanonical_loadedMem {c : Cartridge} (h : c.check = none) (cfg : Cfg) (l : Launch) :
    memCanonical cfg (fixedCart c) (loadedMem cfg c l) = true := by
  obtain ⟨-, hprg, -, -⟩ := (check_eq_none_iff c).1 h
  rw [memCanonical, Bool.and_eq_true, List.all_eq_true]
  refine ⟨wf_loadedMem (by omega) cfg l, fun x hx => ?_⟩
  rw [cpuCellExists, prgLength_fixedCart h]
  simp only [Bool.or_eq_true, Bool.and_eq_true, decide_eq_true_eq, and_assoc, or_assoc]
  exact mem_loadedMem hx

theorem length_loadedChr {c : Cartridge} (h : c.check = none) (l : Launch) : (loadedChr c l).length ≤ 8192 := by
  obtain ⟨-, -, hchr, -⟩ := (check_eq_none_iff c).1 h
  unfold loadedChr
  split
  · exact List.length_take_le _ _
  · omega

/-- The video unit's memories at power-on are canonical, the palette's entries six bits each (R470). -/
theorem video_canonical_constructed {c : Cartridge} (h : c.check = none) (cfg : Cfg) (l : Launch) :
    (constructed cfg c l).video.canonical (fixedCart c) = true := by
  have hchr := length_loadedChr h l
  have hpal : (loadedPal l).length ≤ 32 := by
    rw [loadedPal, List.length_map]
    exact List.length_take_le _ _
  have holds : ∀ {sp : Space} {n : Nat} {bytes : List Byte}, bytes.length ≤ n → (∀ k < n, spaceHolds sp k = true) →
      Memory.wf sp (cellsFrom sp 0 bytes) = true :=
    fun hlen hsp => cellsFrom_wf fun k _ hk => hsp k (by omega)
  refine (Video.canonical_iff _ _).2 ⟨holds (List.length_take_le _ _) ?oam, holds (List.length_take_le _ _) ?nt,
    holds hpal ?pal, List.all_eq_true.2 ?sixBits, holds hchr ?chr, rfl, fun f hf => nomatch hf⟩
  case oam => exact fun k hk => decide_eq_true hk
  case nt => exact fun k hk => decide_eq_true hk
  case pal => exact fun k hk => decide_eq_true hk
  case sixBits =>
    intro x hx
    obtain ⟨b, -, hb⟩ := List.mem_map.1 (cellsFrom_byte_mem hx)
    rw [← hb]
    exact decide_eq_true (and_3F_lt b)
  case chr =>
    intro k hk
    unfold chrSpace
    split <;> exact decide_eq_true hk

/-- A palette entry is the low six bits of its launch byte (R470). -/
theorem palByte_constructed (cfg : Cfg) (c : Cartridge) {l : Launch} {k : Nat} (hk : k < 32) (hlen : k < l.pal0.length) :
    palByte (constructed cfg c l).video k = l.pal0.getD k 0 &&& 0x3F := by
  have hbytes : k < (loadedPal l).length := by
    rw [loadedPal, List.length_map, List.length_take]
    omega
  refine (readCell_cellsFrom_zero hbytes).trans ?_
  simp [loadedPal, List.getElem?_take_of_lt hk, hlen]

/-- Settles O60: an accepted cartridge gives `constructed`, whose memories list the given bytes from their first cells on. -/
theorem constructionChecksAndLoads : Obligations.ConstructionChecksAndLoads := by
  unfold Obligations.ConstructionChecksAndLoads
  refine fun cfg c l => ⟨?errors, fun s hs => ?machine⟩
  case errors =>
    rw [exists_construct_eq_error_iff, ne_eq, check_eq_none_iff]
    tauto
  case machine =>
    obtain ⟨hcheck, rfl⟩ := construct_eq_machine hs
    refine ⟨rfl, ?prgSize, ?mirroring, decide_eq_true_iff, fun a ha => storedByte_constructed_prg hcheck cfg l ha,
      ?chr, ?chrRam, fun k hk hlen => readCell_loadedMem_ram cfg c l hk hlen,
      fun hcfg k hk hlen => readCell_loadedMem_prgRam hcfg c l hk hlen, fun k hk hlen => readCell_cellsFrom_zero_take hk hlen,
      fun k hk hlen => readCell_cellsFrom_zero_take hk hlen, fun k hk hlen => palByte_constructed cfg c hk hlen,
      Bool.and_eq_true_iff.2 ⟨memCanonical_loadedMem hcheck cfg l, video_canonical_constructed hcheck cfg l⟩, rfl⟩
    case prgSize =>
      show (if c.prg.length = 16384 then PrgSize.k16 else .k32) = .k16 ↔ _
      split_ifs with h16 <;> simp [h16]
    case mirroring =>
      show mirroringOf c.mirroring = .vertical ↔ _
      cases c.mirroring <;> decide
    case chr =>
      intro hlen k hk
      have hbytes : loadedChr c l = c.chr := if_neg (by omega)
      exact (readCell_cellsFrom_zero (by rw [hbytes]; omega)).trans (by rw [hbytes])
    case chrRam =>
      intro hlen k hk hk'
      have hbytes : loadedChr c l = l.chr0.take 8192 := if_pos hlen
      rw [chrByte, constructed, powerOn, Video.reset, hbytes]
      exact readCell_cellsFrom_zero_take hk hk'

end Sys2Proof.Machine
end

