-- ==== Sys2Proof/Proofs/Scheduler.lean ====
section
/-! PROOFS. Statements of `61_scheduler.md`, and of what every step keeps: the position after any number of ticks, the cost of a
step, the canonical form of the memories, and the soundness of the audio unit. An invariant is shown of the elementary
operations of an instruction, of the host's calls and of the ticks, and then holds of every step. -/

namespace Sys2Proof.Machine

open Sys2Proof.Claims

/-! ## The audio unit stays sound (R388, R402, R404) -/

/-- Of the audio unit a bus write does at most one register write (R382). -/
theorem busWrite_audio_cases (a : Word) (v : Byte) (s : State) :
    (busWrite a v s).audio = s.audio ∨ (busWrite a v s).audio = audioWrite s.audio (a - 0x4000).toNat v := by
  by_cases hio : region a = .io
  · unfold busWrite regionWrite
    simp only [hio, ioWrite]
    split_ifs
    · exact .inl (by rw [oamDma_audio]; rfl)
    · exact .inl rfl
    · exact .inr rfl
  · exact .inl (busWrite_audio_input hio v s).1

theorem kept_audio_sound : Kept fun s => s.audio.sound = true where
  cpu _ _ _ _ h := h
  read a s h := by rw [busRead_audio]; exact h
  write a v s h := by
    obtain he | he := busWrite_audio_cases a v s <;> rw [he]
    · exact h
    · exact audioWrite_sound h _ v

/-- Settles O57: register writes and audio ticks keep the invariants, and nothing else touches what they speak of. -/
theorem audioUnitStaysSound : Obligations.AudioUnitStaysSound := by
  unfold Obligations.AudioUnitStaysSound
  intro s t hs hst
  have hcall : ∀ c u, u.audio.sound = true → (hostCall c u).audio.sound = true := by
    rintro (⟨_ | _, _⟩ | _) u h <;> exact h
  exact step_keeps kept_audio_sound (fun _ h => h) (fun _ h => takeHostCalls_keeps hcall (fun _ _ h => h) h)
    (fun _ _ h => audioTicks_sound _ h) hst hs

/-! ## The memories stay canonical -/

theorem kept_canonical : Kept fun s => s.canonical = true where
  cpu _ _ _ _ h := h
  read a _ h := busRead_canonical h a
  write a v _ h := busWrite_canonical h a v

theorem tickUnits_canonical {s : State} (h : s.canonical = true) (n : Nat) : (tickUnits n s).canonical = true := by
  obtain ⟨hmem, hvideo⟩ := Bool.and_eq_true_iff.1 h
  exact Bool.and_eq_true_iff.2 ⟨hmem, videoTicks_canonical _ hvideo⟩

theorem takeHostCalls_canonical {s : State} (h : s.canonical = true) : (takeHostCalls s).canonical = true := by
  unfold State.canonical
  rw [takeHostCalls_cfg, takeHostCalls_cart, takeHostCalls_mem, takeHostCalls_video]
  exact h

/-- Settles O56: both bus accesses and the ticks keep every memory canonical, and nothing else writes one. -/
theorem memoriesStayCanonical : Obligations.MemoriesStayCanonical := by
  unfold Obligations.MemoriesStayCanonical
  exact fun s t hs hst =>
    step_keeps kept_canonical (fun _ h => h) (fun _ h => takeHostCalls_canonical h) (fun n _ h => tickUnits_canonical h n)
      hst hs

/-- Settles O59: empty memories are canonical, and the counters of power-on are 0. -/
theorem resetIsSound : Obligations.ResetIsSound := by
  unfold Obligations.ResetIsSound
  exact ⟨rfl, by decide, by decide⟩

/-! ## The position -/

/-- Settles O42: the law of many ticks, by induction on their number. -/
theorem positionAfterTicks : Obligations.PositionAfterTicks := by
  unfold Obligations.PositionAfterTicks
  exact fun cfg cart n t h => videoTicks_position cfg cart n h

/-! ## The cost of a step (R300, R303, R447) -/

/-- An instruction that costs 2 to 7 cycles wherever it runs. -/
def CostsFewCycles (i : Instr) : Prop :=
  ∀ s t, exec i s = .next t → ∃ c, t.cpu.cyc = s.cpu.cyc + c ∧ 2 ≤ c ∧ c ≤ 7

theorem CostsFewCycles.of_exec {i : Instr} {f : State → State} (hexec : ∀ s, exec i s = .next (f s))
    (hcost : ∀ s, ∃ c, (f s).cpu.cyc = s.cpu.cyc + c ∧ 2 ≤ c ∧ c ≤ 7) : CostsFewCycles i := by
  intro s t ht
  obtain rfl := Host.Outcome.next.inj ((hexec s).symm.trans ht)
  exact hcost s

/-- A fixed cost. -/
theorem CostsFewCycles.of_fixed {i : Instr} {f : State → State} (c : Nat) (hexec : ∀ s, exec i s = .next (f s))
    (hcost : ∀ s, (f s).cpu.cyc = s.cpu.cyc + c) (hlow : 2 ≤ c := by decide) (hhigh : c ≤ 7 := by decide) :
    CostsFewCycles i :=
  .of_exec hexec fun s => ⟨c, hcost s, hlow, hhigh⟩

theorem readCycles_bounds (src : Source) : 2 ≤ readCycles src ∧ readCycles src ≤ 6 := by
  unfold readCycles
  split <;> decide

/-- A read instruction costs 2 to 6 cycles and at most one more (R110, R113). -/
theorem CostsFewCycles.of_readInstr {i : Instr} {src : Source} {op : Byte → State → State}
    (hexec : ∀ s, exec i s = .next (readInstr src op s)) (hop : ∀ v s, (op v s).cpu.cyc = s.cpu.cyc) :
    CostsFewCycles i := by
  obtain ⟨hlow, hhigh⟩ := readCycles_bounds src
  refine .of_exec hexec fun s =>
    ⟨readCycles src + (readSource src (movePc (Source.bytes src) s)).crossed.toNat, ?_,
      Nat.le_add_right_of_le hlow, Nat.add_le_add hhigh (Bool.toNat_le _)⟩
  exact congrArg (· + _) ((hop _ _).trans (by rw [readSource_cpu]; rfl))

/-- A branch costs 2 cycles, and 1 or 2 more where it is taken (R200). -/
theorem CostsFewCycles.of_branchInstr {i : Instr} {taken : State → Bool} {b : Byte}
    (hexec : ∀ s, exec i s = .next (branchInstr (taken s) b s)) : CostsFewCycles i := by
  refine .of_exec hexec fun s => ⟨_, rfl, Nat.le_add_right _ _, ?_⟩
  have hcross := Bool.toNat_le (pageDiffers (branchTarget (s.cpu.pc + 2) b) (s.cpu.pc + 2))
  split <;> omega

/-- The listed encodings that write memory, as instructions. -/
def writeInstrs (b1 b2 : Byte) : List Instr := (storeForms b1 b2 ++ rmwForms b1 b2).map WriteForm.instr

/-- Every instruction is a listed encoding of a store or of a read-modify-write on memory, or costs 2 to 7 cycles (R113). -/
theorem writes_or_costsFewCycles (i : Instr) : (∃ b1 b2, i ∈ writeInstrs b1 b2) ∨ CostsFewCycles i := by
  cases i
  case staZp b | staZpx b | staIzx b | staIzy b | stxZp b | stxZpy b | styZp b | styZpx b | incZp b | incZpx b | decZp b |
      decZpx b | aslZp b | aslZpx b | lsrZp b | lsrZpx b | rolZp b | rolZpx b | rorZp b | rorZpx b =>
    exact .inl ⟨b, 0, by repeat constructor⟩
  case staAbs w | staAbx w | staAby w | stxAbs w | styAbs w | incAbs w | incAbx w | decAbs w | decAbx w | aslAbs w |
      aslAbx w | lsrAbs w | lsrAbx w | rolAbs w | rolAbx w | rorAbs w | rorAbx w =>
    rw [← mkWord_hiByte_loByte w]
    exact .inl ⟨loByte w, hiByte w, by repeat constructor⟩
  case bpl | bmi | bvc | bvs | bcc | bcs | bne | beq => exact .inr (.of_branchInstr fun _ => rfl)
  case tax | tay | txa | tya | tsx | txs | inx | iny | dex | dey | clc | sec | cli | sei | clv | cld | sed | aslAcc |
      lsrAcc | rolAcc | rorAcc | nop =>
    exact .inr (.of_fixed 2 (fun _ => rfl) fun _ => rfl)
  case pha => exact .inr (.of_fixed 3 exec_pha fun _ => rfl)
  case php => exact .inr (.of_fixed 3 exec_php fun _ => rfl)
  case pla => exact .inr (.of_fixed 4 exec_pla fun _ => rfl)
  case plp => exact .inr (.of_fixed 4 exec_plp fun _ => rfl)
  case jmpAbs w => exact .inr (.of_fixed 3 (fun _ => rfl) fun _ => rfl)
  case jmpInd w =>
    exact .inr (.of_fixed (f := jumpThrough w) 5 (fun _ => rfl) fun s => by rw [jumpThrough_eq rfl rfl])
  case jsr w => exact .inr (.of_fixed 6 (exec_jsr w) fun _ => rfl)
  case rts => exact .inr (.of_fixed 6 exec_rts fun _ => rfl)
  case brk => exact .inr (.of_fixed 7 exec_brk fun _ => rfl)
  case rti => exact .inr (.of_fixed 6 exec_rti fun _ => rfl)
  all_goals exact .inr (.of_readInstr (fun _ => rfl) fun _ _ => rfl)

/-- The cost of a listed encoding that writes memory: its base, and what the transfer adds (R447). -/
theorem writeForms_cyc {b1 b2 : Byte} {r : WriteForm} (hr : r ∈ storeForms b1 b2 ++ rmwForms b1 b2) {s t : State}
    (ht : exec r.instr s = .next t) :
    t.cpu.cyc = s.cpu.cyc + r.base +
      transferCost (resolve r.mode (past r.bytes.length s)).ea (s.cpu.cyc + r.base) s.cfg := by
  obtain hr | hr := List.mem_append.1 hr
  · obtain ⟨reg, row⟩ := storeForms_storeRow b1 b2 r hr
    obtain rfl := Host.Outcome.next.inj ((row.runs s).symm.trans ht)
    rw [storeInstr_eq, row.length, row.base]
    rfl
  · obtain ⟨op, -, row⟩ := rmwForms_rmwRow b1 b2 r hr
    obtain rfl := Host.Outcome.next.inj ((row.runs s).symm.trans ht)
    rw [rmwInstr_eq rfl rfl, row.length, row.base]
    rfl

/-- The base costs are 3 to 7, and at least 4 beside the zero-page stores. -/
theorem writeForms_base {b1 b2 : Byte} {r : WriteForm} (hr : r ∈ storeForms b1 b2 ++ rmwForms b1 b2) :
    3 ≤ r.base ∧ r.base ≤ 7 ∧ ((∃ b, r.mode = .zp b) ∨ 4 ≤ r.base) := by
  fin_cases hr <;> simp

/-- The transfer register is not in the zero page. -/
theorem resolve_zp_ne_transfer (b : Byte) (s : State) : (resolve (.zp b) s).ea ≠ 0x4014 := by
  intro h
  have htoNat : (zext16 b).toNat = 0x4014 := congrArg BitVec.toNat h
  rw [zext16_toNat] at htoNat
  omega

/-- A charged transfer adds 513 cycles or 514 to at least 4 (R447). -/
theorem writeForms_cost_charged {b1 b2 : Byte} {r : WriteForm} (hr : r ∈ storeForms b1 b2 ++ rmwForms b1 b2) {s t : State}
    (ht : exec r.instr s = .next t) (hcfg : s.cfg.oamDmaCharged = true)
    (hea : (resolve r.mode (past r.bytes.length s)).ea = 0x4014) :
    ∃ c, t.cpu.cyc = s.cpu.cyc + c ∧ 517 ≤ c ∧ c ≤ 521 := by
  have hcyc := writeForms_cyc hr ht
  obtain ⟨-, hhigh, hlow⟩ := writeForms_base hr
  have hlow : 4 ≤ r.base := hlow.resolve_left fun ⟨b, hb⟩ => resolve_zp_ne_transfer b _ (hb ▸ hea)
  rw [transferCost, if_pos ⟨hea, hcfg⟩] at hcyc
  exact ⟨r.base + (513 + (s.cpu.cyc + r.base) % 2), by omega, by omega, by omega⟩

theorem writeForms_cost_uncharged {b1 b2 : Byte} {r : WriteForm} (hr : r ∈ storeForms b1 b2 ++ rmwForms b1 b2)
    {s t : State} (ht : exec r.instr s = .next t)
    (h : ¬((resolve r.mode (past r.bytes.length s)).ea = 0x4014 ∧ s.cfg.oamDmaCharged = true)) :
    ∃ c, t.cpu.cyc = s.cpu.cyc + c ∧ 2 ≤ c ∧ c ≤ 7 := by
  have hcyc := writeForms_cyc hr ht
  obtain ⟨hlow, hhigh, -⟩ := writeForms_base hr
  rw [transferCost, if_neg h] at hcyc
  exact ⟨r.base, hcyc, by omega, hhigh⟩

/-- The cost of a step in the words of the statement, from its cost in either case. -/
theorem exists_cost {h : State} {m n : Nat} (hcharged : ChargedTransfer h → ∃ c, n = m + c ∧ 517 ≤ c ∧ c ≤ 521)
    (huncharged : ¬ChargedTransfer h → ∃ c, n = m + c ∧ 2 ≤ c ∧ c ≤ 7) :
    ∃ c, n = m + c ∧ (ChargedTransfer h → 517 ≤ c ∧ c ≤ 521) ∧ (¬ChargedTransfer h → 2 ≤ c ∧ c ≤ 7) := by
  by_cases hc : ChargedTransfer h
  · obtain ⟨c, hn, hbounds⟩ := hcharged hc
    exact ⟨c, hn, fun _ => hbounds, fun hnot => absurd hc hnot⟩
  · obtain ⟨c, hn, hbounds⟩ := huncharged hc
    exact ⟨c, hn, fun hyes => absurd hyes hc, fun _ => hbounds⟩

/-- Settles O53: the interrupt entry costs 7; an instruction costs its base, and a charged transfer adds to it. -/
theorem cyclesOfAStep : Obligations.CyclesOfAStep := by
  unfold Obligations.CyclesOfAStep
  intro s t hst
  have hcyc : (takeHostCalls s).cpu.cyc = s.cpu.cyc := by rw [takeHostCalls_cpu]
  obtain ⟨-, ⟨hline, rfl⟩ | ⟨hline, i, f, u, hf, he, rfl⟩⟩ := step_next hst
  · refine exists_cost (fun hcharged => ?_) fun _ => ⟨7, ?_, by decide, by decide⟩
    · rw [interruptTaken_eq] at hline
      exact absurd (hline.symm.trans hcharged.1) (by decide)
    · rw [tickUnits_cpu, interruptEntry_eq, ← hcyc]
  · have hfcyc : f.cpu.cyc = s.cpu.cyc := by rw [fetch_instr_cpu hf, hcyc]
    rw [tickUnits_cpu, ← hfcyc]
    refine exists_cost ?charged ?uncharged
    case charged =>
      rintro ⟨-, hcfg, b1, b2, f', r, hr, hf', hea⟩
      obtain ⟨rfl, rfl⟩ := Fetched.instr.inj (hf.symm.trans hf')
      exact writeForms_cost_charged hr he (by rwa [fetch_instr_cfg hf]) hea
    case uncharged =>
      intro hnot
      obtain ⟨b1, b2, hi⟩ | hfew := writes_or_costsFewCycles i
      · obtain ⟨r, hr, rfl⟩ := List.mem_map.1 hi
        refine writeForms_cost_uncharged hr he fun ⟨hea, hcfg⟩ => hnot ?_
        rw [interruptTaken_eq] at hline
        exact ⟨hline, by rwa [fetch_instr_cfg hf] at hcfg, b1, b2, f, r, hr, hf, hea⟩
      · exact hfew f u he

end Sys2Proof.Machine
end

