-- ==== Sys2Proof/Proofs/VideoUnit.lean ====
section
/-! PROOFS. Statements of `62_video_unit.md`: the registers on the bus, the memory map, the events of the tick, and the pixel. A
register access is the effect of its register on the unit; video memory is one map from addresses to cells, and reading and
writing an address are reading and writing its cell; the pixel is compared with the rules part by part. -/

namespace Sys2Proof.Machine

open Sys2Proof.Claims

/-! ## The registers on the bus (R321) -/

theorem busWrite_videoReg {a : Word} (h : region a = .video) (v : Byte) (s : State) :
    busWrite a v s =
      { s with
        bus := { s.bus with latch := v }
        video := videoRegWrite s.cart s.video (a.toNat % 8) v } := by
  simp only [busWrite, regionWrite, h]
  rfl

theorem busRead_videoReg {a : Word} (h : region a = .video) (s : State) :
    busRead a s =
      { value := (videoRegRead (a.toNat % 8) s).value
        state := (videoRegRead (a.toNat % 8) s).state.setLatch (videoRegRead (a.toNat % 8) s).value } := by
  simp only [busRead, regionRead, h]

/-- Settles O36: each register's effect by definition; the byte OAMDATA stores is read back from its cell alone. -/
theorem controlAndSpriteRegisters : Obligations.ControlAndSpriteRegisters := by
  unfold Obligations.ControlAndSpriteRegisters
  intro a v s hlo hhi
  have hvideo := region_video hlo hhi
  rw [busWrite_videoReg hvideo, busRead_videoReg hvideo]
  refine ⟨?ctrl, ?mask, ?status, ?oamAddr, ?oamData⟩ <;> intro hr <;> rw [hr]
  case ctrl => rfl
  case mask => rfl
  case status => rfl
  case oamAddr => rfl
  case oamData =>
    refine ⟨rfl, _, rfl, fun k => ?_⟩
    rw [readCell_writeCell]
    exact ite_congr rfl (fun hk => by rw [hk]) fun _ => rfl

/-- `VSTATUS` as a number (R327). -/
theorem vstatus_eq_ofNat (u : Video) (latch : Byte) :
    vstatus u latch =
      BitVec.ofNat 8 (128 * u.vbl.toNat + 64 * u.s0.toNat + 32 * u.ovf.toNat + latch.toNat % 32) := by
  have hvbl := Bool.toNat_le u.vbl
  have hs0 := Bool.toNat_le u.s0
  have hovf := Bool.toNat_le u.ovf
  refine BitVec.eq_of_toNat_eq ?_
  simp only [vstatus, toNat_append_eq_add, BitVec.toNat_ofBool, BitVec.extractLsb'_toNat, BitVec.toNat_ofNat,
    Nat.shiftRight_zero]
  omega

/-- Settles O37: the read of register 2 by definition, and its value as a number. -/
theorem statusReadClearsThreeBits : Obligations.StatusReadClearsThreeBits := by
  unfold Obligations.StatusReadClearsThreeBits
  intro a s hlo hhi hr
  rw [busRead_videoReg (region_video hlo hhi), hr]
  exact ⟨vstatus_eq_ofNat s.video s.bus.latch, rfl⟩

/-- The address after the first write of VADDR (R329). -/
theorem addrHigh_eq_ofNat (t : BitVec 14) (v : Byte) :
    v.extractLsb' 0 6 ++ t.extractLsb' 0 8 = BitVec.ofNat 14 (v.toNat % 64 * 256 + t.toNat % 256) := by
  refine BitVec.eq_of_toNat_eq ?_
  simp only [toNat_append_eq_add, BitVec.extractLsb'_toNat, BitVec.toNat_ofNat, Nat.shiftRight_zero]
  omega

/-- The address after the second write of VADDR (R329). -/
theorem addrLow_eq_ofNat (t : BitVec 14) (v : Byte) :
    t.extractLsb' 8 6 ++ v = BitVec.ofNat 14 (t.toNat / 256 * 256 + v.toNat) := by
  refine BitVec.eq_of_toNat_eq ?_
  simp only [toNat_append_eq_add, BitVec.extractLsb'_toNat, BitVec.toNat_ofNat, Nat.shiftRight_eq_div_pow]
  omega

/-- Settles O38: the toggle chooses the write, and the parts of the address as numbers. -/
theorem twoWriteRegistersShareTheToggle : Obligations.TwoWriteRegistersShareTheToggle := by
  unfold Obligations.TwoWriteRegistersShareTheToggle
  intro a v s hlo hhi
  rw [busWrite_videoReg (region_video hlo hhi)]
  refine ⟨fun hr => ?scroll, fun hr => ?addr⟩ <;> rw [hr]
  case scroll => rfl
  case addr =>
    rw [← addrHigh_eq_ofNat, ← addrLow_eq_ofNat]
    rfl

/-! ## The data port (R330, R331) -/

theorem advanceV_eq (u : Video) :
    advanceV u =
      { u with v := BitVec.ofNat 14 ((u.v.toNat + if u.ctrl.getLsbD 2 then 32 else 1) % 16384) } := by
  have hv : u.v + (if u.ctrl.getLsbD 2 then 32 else 1) =
      BitVec.ofNat 14 ((u.v.toNat + if u.ctrl.getLsbD 2 then 32 else 1) % 16384) := by
    refine BitVec.eq_of_toNat_eq ?_
    rw [BitVec.toNat_add, BitVec.toNat_ofNat]
    split <;> simp
  rw [advanceV, hv]

theorem videoMemWrite_v_ctrl (cart : Cart) (u : Video) (addr : Nat) (val : Byte) :
    (videoMemWrite cart u addr val).v = u.v ∧ (videoMemWrite cart u addr val).ctrl = u.ctrl := by
  unfold videoMemWrite
  simp only
  split_ifs <;> exact ⟨rfl, rfl⟩

/-- Over the palette an address reads its palette entry (R332). -/
theorem videoMemRead_palette (cart : Cart) (u : Video) {v : BitVec 14} (h : 0x3F00 ≤ v.toNat) :
    videoMemRead cart u v.toNat = palByte u (palIndex v.toNat) := by
  have hmod : v.toNat % 16384 = v.toNat := Nat.mod_eq_of_lt v.isLt
  simp only [videoMemRead, hmod]
  rw [if_neg (by omega), if_neg (by omega)]

/-- Settles O39: the value and the buffer by the side of 0x3F00 that `v` is on, and the step of `v` as a number. -/
theorem dataPortBuffersReads : Obligations.DataPortBuffersReads := by
  unfold Obligations.DataPortBuffersReads
  rintro a val s _ hlo hhi hr rfl
  have hvideo := region_video hlo hhi
  refine ⟨fun hbelow => ?below, ?palette, ?write⟩
  case below =>
    rw [busRead_videoReg hvideo, hr]
    simp only [videoRegRead, dataReadValue, dataRead, if_pos hbelow, advanceV_eq]
    rfl
  case palette =>
    rintro hpal e rfl
    have hsub : (s.video.v - 0x1000).toNat = s.video.v.toNat - 0x1000 :=
      BitVec.toNat_sub_of_le (show (0x1000 : BitVec 14).toNat ≤ _ by simp; omega)
    rw [busRead_videoReg hvideo, hr, videoMemRead_palette s.cart s.video hpal]
    simp only [videoRegRead, dataReadValue, dataRead, if_neg (Nat.not_lt.2 hpal), hsub, advanceV_eq]
    rfl
  case write =>
    obtain ⟨hv, hctrl⟩ := videoMemWrite_v_ctrl s.cart s.video s.video.v.toNat val
    rw [busWrite_videoReg hvideo, hr]
    simp only [videoRegWrite, dataWrite, advanceV_eq, hv, hctrl]

/-! ## Video memory (R332 to R334) -/

/-- The index of a name-table byte: the physical table its logical table is in, and the offset (R333). -/
theorem ntIndex_eq (m : Mirroring) (a : Nat) :
    ntIndex m a =
      a % 1024 + match m with
        | .horizontal => if a % 4096 < 2048 then 0 else 1024
        | .vertical => if a % 2048 < 1024 then 0 else 1024 := by
  unfold ntIndex
  cases m <;> dsimp only <;> split_ifs <;> omega

/-- The index of a palette entry: the entries 0, 4, 8 and 12 have two addresses (R334). -/
theorem palIndex_eq (a : Nat) : palIndex a = if a % 4 = 0 then a % 16 else a % 32 := by
  unfold palIndex
  dsimp only
  split_ifs <;> omega

/-- The cell behind an address is at the model's index, in the memory its range says (R332). -/
theorem videoCell_eq (m : Mirroring) (a : Nat) :
    videoCell m a =
      if a % 16384 < 0x2000 then (.chrRam, a % 16384)
      else if a % 16384 < 0x3F00 then (.nameTable, ntIndex m (a % 16384))
      else (.palette, palIndex (a % 16384)) := by
  rw [ntIndex_eq, palIndex_eq]
  rfl

/-- The byte of a cell of video memory. -/
def videoCellByte (cart : Cart) (u : Video) (c : Space × Nat) : Byte :=
  match c with
  | (.chrRam, k) => chrByte cart u k
  | (.nameTable, k) => readCell .nameTable u.nt k
  | (_, k) => palByte u k

theorem videoMemRead_eq_cell (cart : Cart) (u : Video) (a : Nat) :
    videoMemRead cart u a = videoCellByte cart u (videoCell cart.mirroring a) := by
  rw [videoCell_eq]
  unfold videoMemRead
  dsimp only
  split_ifs <;> rfl

theorem videoCell_cases (m : Mirroring) (a : Nat) :
    ∃ k, videoCell m a = (.chrRam, k) ∨ videoCell m a = (.nameTable, k) ∨ videoCell m a = (.palette, k) := by
  rw [videoCell_eq]
  split_ifs
  · exact ⟨_, .inl rfl⟩
  · exact ⟨_, .inr (.inl rfl)⟩
  · exact ⟨_, .inr (.inr rfl)⟩

/-- READ AFTER WRITE IN VIDEO MEMORY: a byte written to an address is read at every address of the same cell, and every
other cell is as it was. -/
theorem videoMemRead_videoMemWrite (cart : Cart) (u : Video) (a b : Nat) (v : Byte) :
    videoMemRead cart (videoMemWrite cart u a v) b =
      if videoCell cart.mirroring a = videoCell cart.mirroring b ∧ (cart.chrWritable = true ∨ 0x2000 ≤ a % 16384) then
        (if 0x3F00 ≤ a % 16384 then v &&& 0x3F else v)
      else videoMemRead cart u b := by
  rw [videoMemRead_eq_cell, videoMemRead_eq_cell, videoCell_eq cart.mirroring a]
  obtain ⟨k, hk⟩ := videoCell_cases cart.mirroring b
  by_cases hchr : a % 16384 < 0x2000
  · have hpal : ¬0x3F00 ≤ a % 16384 := by omega
    rw [if_pos hchr, if_neg hpal]
    by_cases hw : cart.chrWritable = true
    · simp only [videoMemWrite, if_pos hchr, hw, if_true, true_or, and_true]
      obtain hk | hk | hk := hk <;> rw [hk] <;> simp [videoCellByte, chrByte, palByte, readCell_writeCell, eq_comm]
    · simp [videoMemWrite, hchr, hw, Nat.not_le.2 hchr]
  by_cases hnt : a % 16384 < 0x3F00
  · rw [if_neg hchr, if_pos hnt, if_neg (Nat.not_le.2 hnt)]
    simp only [videoMemWrite, if_neg hchr, if_pos hnt, Nat.not_lt.1 hchr, or_true, and_true]
    obtain hk | hk | hk := hk <;> rw [hk] <;> simp [videoCellByte, chrByte, palByte, readCell_writeCell, eq_comm]
  · rw [if_neg hchr, if_neg hnt, if_pos (Nat.not_lt.1 hnt)]
    simp only [videoMemWrite, if_neg hchr, if_neg hnt, Nat.not_lt.1 hchr, or_true, and_true]
    obtain hk | hk | hk := hk <;> rw [hk] <;> simp [videoCellByte, chrByte, palByte, readCell_writeCell, eq_comm]

/-- Settles O40: an address is read and written at its cell, and a write stores in one of the three memories. -/
theorem videoMemoryMirrors : Obligations.VideoMemoryMirrors := by
  unfold Obligations.VideoMemoryMirrors
  rintro cart u _ a b v rfl
  refine ⟨fun k => ?cell, videoMemRead_videoMemWrite cart u a b v, ?frame⟩
  case cell =>
    rw [videoMemRead_eq_cell]
    refine ⟨?_, ?_, ?_⟩ <;> intro hk <;> rw [hk] <;> rfl
  case frame =>
    unfold videoMemWrite
    dsimp only
    split_ifs <;> rfl

/-! ## The events of the tick (R340 to R344, R357) -/

theorem advanceDot_eq_movedOn (u : Video) : advanceDot u = movedOn u := by
  simp only [advanceDot, movedOn, Config.dotsPerLine, Config.linesPerFrame, Nat.reduceEqDiff]

/-- A tick is its event and then the move to the next position (R340). -/
theorem videoTick_eq_movedOn (cfg : Cfg) (cart : Cart) (t : TickState) :
    videoTick cfg cart t = { unit := movedOn (tickEvent cfg cart t).unit, line := (tickEvent cfg cart t).line } := by
  rw [← advanceDot_eq_movedOn]
  rfl

/-- The sprites of a line as the rule says them: from one line below the Y byte, 8 or 16 rows (R350, R351). -/
theorem spritesOnLine_eq (u : Video) (y : Nat) :
    spritesOnLine u y =
      (List.range 64).filter fun i =>
        decide ((oamByte u (4 * i)).toNat < y ∧ y ≤ (oamByte u (4 * i)).toNat + if u.ctrl.getLsbD 5 then 16 else 8) := by
  refine List.filter_congr fun i _ => ?_
  rw [← Bool.decide_and, decide_eq_decide, spriteHeight]
  split <;> omega

theorem length_spritesOnLine (u : Video) (y : Nat) : (spritesOnLine u y).length = spriteCount u y := by
  rw [spritesOnLine_eq, spriteCount]

section
variable {cfg : Cfg} (cart : Cart) {u : Video} (line : Bool)

theorem tickEvent_handoff (hs : u.scanline = 240) (hd : u.dot = 0) :
    tickEvent cfg cart { unit := u, line := line } =
      { unit := { u with frameOut := some u.fb, frameCount := u.frameCount + 1 }, line := line } := by
  simp [tickEvent, Config.postLine, hs, hd]

theorem tickEvent_blank (hs : u.scanline = 241) (hd : u.dot = cfg.vblDot) :
    tickEvent cfg cart { unit := u, line := line } =
      { unit := { u with vbl := true }, line := if u.ctrl.getLsbD 7 then true else line } := by
  cases hctrl : u.ctrl.getLsbD 7 <;>
    simp only [tickEvent, Config.postLine, Config.vblLine, hs, hd, hctrl] <;> simp

theorem tickEvent_clear (hs : u.scanline = 261) (hd : u.dot = cfg.vblDot) :
    tickEvent cfg cart { unit := u, line := line } =
      { unit := { u with vbl := false, s0 := false, ovf := false }, line := line } := by
  simp [tickEvent, Config.postLine, Config.vblLine, Config.preLine, hs, hd]

theorem tickEvent_pixel (hs : u.scanline < 240) (hlo : 1 ≤ u.dot) (hhi : u.dot ≤ 256) :
    tickEvent cfg cart { unit := u, line := line } =
      { unit := renderPixel cart u (u.dot - 1) u.scanline, line := line } := by
  simp [tickEvent, Config.postLine, hs, hlo, hhi]

theorem tickEvent_overflow (hs : u.scanline < 240) (hd : u.dot = 257) :
    tickEvent cfg cart { unit := u, line := line } =
      { unit := { u with
          ovf := if (u.mask.getLsbD 3 || u.mask.getLsbD 4) && decide (8 < spriteCount u u.scanline) then true
            else u.ovf }
        line := line } := by
  have hrender : rendering u = (u.mask.getLsbD 3 || u.mask.getLsbD 4) := rfl
  have hpixel : ¬(1 ≤ u.dot ∧ u.dot ≤ 256) := by omega
  simp only [tickEvent, Config.postLine, if_pos hs, if_neg hpixel, and_iff_right hd, ← hrender, ← length_spritesOnLine]
  cases rendering u
  · rfl
  · rw [if_pos rfl, spriteOverflowCheck]
    cases u.ovf <;> cases decide (8 < (spritesOnLine u u.scanline).length) <;> rfl

/-- At every other position nothing happens but the move. -/
theorem tickEvent_quiet
    (h : (u.scanline ≤ 239 ∧ (u.dot = 0 ∨ 258 ≤ u.dot)) ∨ (u.scanline = 240 ∧ u.dot ≠ 0) ∨
      (241 ≤ u.scanline ∧ u.scanline ≤ 260 ∧ ¬(u.scanline = 241 ∧ u.dot = cfg.vblDot)) ∨
      (u.scanline = 261 ∧ u.dot ≠ cfg.vblDot)) :
    tickEvent cfg cart { unit := u, line := line } = { unit := u, line := line } := by
  obtain ⟨hs, hd⟩ | ⟨hs, hd⟩ | ⟨hlo, hhi, hne⟩ | ⟨hs, hd⟩ := h
  · have hpixel : ¬(1 ≤ u.dot ∧ u.dot ≤ 256) := by omega
    have hoverflow : ¬(u.dot = 257 ∧ rendering u = true) := by omega
    simp only [tickEvent, Config.postLine, if_pos (Nat.lt_succ_of_le hs), if_neg hpixel, if_neg hoverflow]
  · simp [tickEvent, Config.postLine, hs, hd]
  · have hvisible : ¬u.scanline < 240 := by omega
    have hpost : ¬u.scanline = 240 := by omega
    have hpre : ¬u.scanline = 261 := by omega
    simp [tickEvent, Config.postLine, Config.vblLine, Config.preLine, hvisible, hpost, hne, hpre]
  · simp [tickEvent, Config.postLine, Config.vblLine, Config.preLine, hs, hd]

end

/-- Settles O44: the event of each position, then the move. -/
theorem eventsOfTheTick : Obligations.EventsOfTheTick := by
  unfold Obligations.EventsOfTheTick
  intro cfg cart u line _ _
  simp only [videoTick_eq_movedOn]
  refine ⟨fun hs hd => ?_, fun hs hd => ?_, fun hs hd => ?_, fun hs hd => ?_, fun hquiet => ?_⟩
  · rw [tickEvent_handoff cart line hs hd]
  · rw [tickEvent_blank cart line hs hd]
  · rw [tickEvent_clear cart line hs hd]
  · rw [tickEvent_overflow cart line (by omega) hd]
  · rw [tickEvent_quiet cart line hquiet]

/-! ## The background (R347 to R349) -/

theorem mul_bitOf (c : Nat) (b : Byte) (k : Nat) : c * bitOf b k = if b.getLsbD k then c else 0 := by
  unfold bitOf
  cases b.getLsbD k <;> simp

theorem bitOf_eq (b : Byte) (k : Nat) : bitOf b k = b.toNat / 2 ^ k % 2 := Nat.toNat_testBit b.toNat k

theorem patternBit_eq (cart : Cart) (u : Video) (base fx : Nat) :
    patternBit cart u base fx = planeBits (chrByte cart u) base fx := by
  rw [patternBit, planeBits, bitOf_eq, bitOf_eq]

/-- The attribute byte's two bits of a tile, by its quadrant (R348). -/
theorem quadrant_eq (attr : Byte) (row col : Nat) :
    attr.toNat / 2 ^ (4 * (row / 2 % 2) + 2 * (col / 2 % 2)) % 4 = quadrant attr row col := by
  have hattr : attr.toNat < 256 := attr.isLt
  unfold quadrant
  obtain hr | hr := Nat.mod_two_eq_zero_or_one (row / 2) <;> obtain hc | hc := Nat.mod_two_eq_zero_or_one (col / 2) <;>
    rw [hr, hc]
  · simp
  · simp
  · simp
  · simp
    omega

theorem bgPixel_eq (cart : Cart) (u : Video) (x y : Nat) :
    bgPixel cart u x y =
      if u.mask.getLsbD 3 = false ∨ (x < 8 ∧ u.mask.getLsbD 1 = false) then { value := 0, palette := 0 }
      else planePixel cart u (((if u.ctrl.getLsbD 0 then 256 else 0) + u.scrollX.toNat + x) % 512)
        (((if u.ctrl.getLsbD 1 then 240 else 0) + u.scrollY.toNat + y) % 480) := by
  unfold bgPixel
  simp only [mul_bitOf, patternBit_eq, quadrant_eq, Bool.or_eq_true, Bool.and_eq_true, Bool.not_eq_true', decide_eq_true_eq]
  generalize ((if u.ctrl.getLsbD 0 then 256 else 0) + u.scrollX.toNat + x) % 512 = px
  generalize ((if u.ctrl.getLsbD 1 then 240 else 0) + u.scrollY.toNat + y) % 480 = py
  have hattrs : 0x23C0 + 1024 * (px / 256 + 2 * (py / 240)) = 0x2000 + 1024 * (px / 256 + 2 * (py / 240)) + 0x3C0 := by
    omega
  rw [planePixel, hattrs]

/-! ## The sprites (R350 to R352) -/

theorem spriteHeight_eq (u : Video) : spriteHeight u = if u.ctrl.getLsbD 5 then 16 else 8 := rfl

/-- The tile row's address (R352): `row` is below 16, so the second half of the pair is at `row / 8`. -/
theorem spriteRow_eq (u : Video) (tile : Nat) {row : Nat} (h : row < spriteHeight u) :
    spriteRow u tile row =
      if spriteHeight u = 8 then 4096 * bitOf u.ctrl 3 + 16 * tile + row
      else 4096 * (tile % 2) + 16 * (tile / 2 * 2 + (if 8 ≤ row then 1 else 0)) + row % 8 := by
  rw [mul_bitOf]
  unfold spriteRow
  rw [spriteHeight_eq] at h ⊢
  cases h5 : u.ctrl.getLsbD 5
  · rfl
  · rw [h5] at h
    simp at h ⊢
    split_ifs <;> omega

theorem spritePixel_eq (cart : Cart) (u : Video) (i x y : Nat) :
    spritePixel cart u i x y =
      spriteBits cart u i ((y : Int) - ((oamByte u (4 * i)).toNat + 1)) ((x : Int) - (oamByte u (4 * i + 3)).toNat) := by
  have hheight : ((spriteHeight u : Nat) : Int) = if u.ctrl.getLsbD 5 then 16 else 8 := by
    rw [spriteHeight_eq]
    split <;> rfl
  unfold spritePixel spriteBits
  dsimp only
  rw [← hheight]
  generalize (oamByte u (4 * i)).toNat = top
  generalize (oamByte u (4 * i + 3)).toNat = left
  have hcover : (top + 1 ≤ y ∧ y < top + 1 + spriteHeight u ∧ left ≤ x ∧ x < left + 8) ↔
      ((0 : Int) ≤ y - (top + 1) ∧ (y : Int) - (top + 1) < spriteHeight u ∧ (0 : Int) ≤ x - left ∧ (x : Int) - left < 8) := by
    omega
  by_cases h : top + 1 ≤ y ∧ y < top + 1 + spriteHeight u ∧ left ≤ x ∧ x < left + 8
  · have hrow : (if (oamByte u (4 * i + 2)).getLsbD 7 then spriteHeight u - 1 - (y - (top + 1)) else y - (top + 1)) =
        (if (oamByte u (4 * i + 2)).getLsbD 7 then (spriteHeight u : Int) - 1 - (y - (top + 1)) else y - (top + 1)).toNat := by
      split <;> omega
    have hcol : (if (oamByte u (4 * i + 2)).getLsbD 6 then 7 - (x - left) else x - left) =
        (if (oamByte u (4 * i + 2)).getLsbD 6 then 7 - ((x : Int) - left) else x - left).toNat := by
      split <;> omega
    have hlt : (if (oamByte u (4 * i + 2)).getLsbD 7 then spriteHeight u - 1 - (y - (top + 1)) else y - (top + 1)) <
        spriteHeight u := by
      split <;> omega
    rw [if_pos h, if_pos (hcover.1 h), ← hrow, ← hcol, spriteRow_eq u _ hlt, patternBit_eq]
  · rw [if_neg h, if_neg (mt hcover.2 h)]

/-! ## The pixel (R346, R353 to R356) -/

theorem drawnSprites_eq (u : Video) (x y : Nat) : drawnSprites u x y = shownSprites u x y := by
  unfold drawnSprites shownSprites
  refine if_congr ?_ rfl rfl
  cases u.mask.getLsbD 2 <;> simp

/-- The masked colour of a pixel (R355). -/
def greyed (u : Video) (c : Byte) : Byte := if u.mask.getLsbD 0 then c &&& 0x30 else c

/-- With no shown sprite that has a pixel, the background's colour. -/
theorem pixelColour_of_no_sprite {cart : Cart} {u : Video} {x y : Nat}
    (h : ∀ i ∈ shownSprites u x y, spritePixel cart u i x y = 0) :
    pixelColour cart u x y = backgroundColour u (bgPixel cart u x y) := by
  have hnone : winningSprite cart u x y = none := by
    rw [winningSprite, drawnSprites_eq, List.find?_eq_none]
    intro i hi
    simp [h i hi]
  unfold pixelColour
  rw [hnone]
  rfl

/-- The first shown sprite with a pixel wins, and shows over a transparent background or in front of any. -/
theorem pixelColour_of_first_sprite {cart : Cart} {u : Video} {x y i : Nat} {before after : List Nat}
    (hshown : shownSprites u x y = before ++ i :: after) (hbefore : ∀ j ∈ before, spritePixel cart u j x y = 0)
    (hi : spritePixel cart u i x y ≠ 0) :
    pixelColour cart u x y =
      if (bgPixel cart u x y).value = 0 ∨ (oamByte u (4 * i + 2)).getLsbD 5 = false then
        palByte u (0x10 + 4 * ((oamByte u (4 * i + 2)).toNat % 4) + spritePixel cart u i x y)
      else backgroundColour u (bgPixel cart u x y) := by
  have hwins : winningSprite cart u x y = some i := by
    rw [winningSprite, drawnSprites_eq, List.find?_eq_some_iff_append]
    exact ⟨by simpa using hi, before, after, hshown, fun j hj => by simp [hbefore j hj]⟩
  unfold pixelColour
  rw [hwins]
  dsimp only
  split_ifs with hfront
  · rfl
  · rw [backgroundColour, if_neg (not_or.1 hfront).1]

theorem spriteZeroHit_iff (cart : Cart) (u : Video) (x y : Nat) :
    spriteZeroHit cart u x y = true ↔
      0 ∈ shownSprites u x y ∧ spritePixel cart u 0 x y ≠ 0 ∧ (bgPixel cart u x y).value ≠ 0 ∧ x ≠ 255 := by
  rw [spriteZeroHit, drawnSprites_eq, List.any_eq_true]
  simp only [Bool.and_eq_true, beq_iff_eq, bne_iff_ne]
  constructor
  · rintro ⟨i, hi, ⟨⟨rfl, hsprite⟩, hbg⟩, hx⟩
    exact ⟨hi, hsprite, hbg, hx⟩
  · rintro ⟨hi, hsprite, hbg, hx⟩
    exact ⟨0, hi, ⟨⟨rfl, hsprite⟩, hbg⟩, hx⟩

/-- The move to the next position changes `scanline` and `dot` alone. -/
theorem movedOn_fields (u : Video) :
    (movedOn u).fb = u.fb ∧ (movedOn u).s0 = u.s0 ∧ (movedOn u).ovf = u.ovf := by
  unfold movedOn
  split <;> exact ⟨rfl, rfl, rfl⟩

/-- The tick at a pixel: its colour into the frame, and sprite-zero hit (R346, R355, R356). -/
theorem videoTick_pixel (cfg : Cfg) (cart : Cart) {u : Video} (line : Bool) {x y : Nat} (hs : u.scanline = y) (hy : y ≤ 239)
    (hd : u.dot = x + 1) (hx : x ≤ 255) :
    (videoTick cfg cart { unit := u, line := line }).unit =
      movedOn { u with
        fb := writePixel u.fb x y (greyed u (pixelColour cart u x y))
        s0 := u.s0 || spriteZeroHit cart u x y } := by
  subst hs
  have hdot : u.dot - 1 = x := by omega
  rw [videoTick_eq_movedOn, tickEvent_pixel cart line (by omega) (by omega) (by omega), hdot]
  rfl

/-- Settles O45: the renderer's parts are the rules' words, and the pixel's colour is that of the sprite that wins. -/
theorem pixelOfTheTick : Obligations.PixelOfTheTick := by
  unfold Obligations.PixelOfTheTick
  refine ⟨fun cart u x y i => ⟨bgPixel_eq cart u x y, spritePixel_eq cart u i x y, spritesOnLine_eq u y⟩, ?_⟩
  rintro cfg cart u v line x y _ _ hs hy hd hx rfl rfl hv
  rw [videoTick_pixel cfg cart line hs hy hd hx] at hv
  obtain ⟨hfb, hs0, -⟩ := movedOn_fields { u with
    fb := writePixel u.fb x y (greyed u (pixelColour cart u x y))
    s0 := u.s0 || spriteZeroHit cart u x y }
  rw [← hv] at hfb hs0
  refine ⟨?frame, ?others, ?background, ?sprite, ?hit⟩
  case frame => rw [hfb, hs0]; exact hv
  case others =>
    intro x' y' hne
    rw [hfb, readPixel_writePixel, if_neg hne]
  case background =>
    intro hnone
    rw [hfb, readPixel_writePixel, if_pos ⟨rfl, rfl⟩, pixelColour_of_no_sprite hnone]
    rfl
  case sprite =>
    intro before after i hshown hbefore hi
    rw [hfb, readPixel_writePixel, if_pos ⟨rfl, rfl⟩, pixelColour_of_first_sprite hshown hbefore hi]
    rfl
  case hit => rw [hs0, Bool.or_eq_true, spriteZeroHit_iff]

/-! ## Rendering disabled (R345) -/

theorem shownSprites_of_hidden {u : Video} (h : u.mask.getLsbD 4 = false) (x y : Nat) : shownSprites u x y = [] :=
  if_neg fun hshown => absurd (h.symm.trans hshown.1) (by decide)

theorem bgPixel_of_hidden (cart : Cart) {u : Video} (h : u.mask.getLsbD 3 = false) (x y : Nat) :
    bgPixel cart u x y = { value := 0, palette := 0 } := by
  rw [bgPixel_eq, if_pos (.inl h)]

/-- A tick with background and sprites off sets neither sprite-zero hit nor overflow. -/
theorem tickEvent_disabled (cfg : Cfg) (cart : Cart) {t : TickState} (h3 : t.unit.mask.getLsbD 3 = false)
    (h4 : t.unit.mask.getLsbD 4 = false) :
    ((tickEvent cfg cart t).unit.s0 = true → t.unit.s0 = true) ∧
      ((tickEvent cfg cart t).unit.ovf = true → t.unit.ovf = true) := by
  have hhit : ∀ x y, spriteZeroHit cart t.unit x y = false := by
    intro x y
    rw [spriteZeroHit, drawnSprites_eq, shownSprites_of_hidden h4]
    rfl
  have hrender : rendering t.unit = false := by rw [rendering, h3, h4]; rfl
  have hnoCheck : ¬(t.unit.dot = 257 ∧ rendering t.unit = true) := fun h => Bool.false_ne_true (hrender.symm.trans h.2)
  unfold tickEvent
  simp only [if_neg hnoCheck]
  split_ifs <;> simp [renderPixel, hhit]

/-- Settles O46: no sprite is shown and the background is transparent, so the pixel is the backdrop. -/
theorem renderingDisabledGivesTheBackdrop : Obligations.RenderingDisabledGivesTheBackdrop := by
  unfold Obligations.RenderingDisabledGivesTheBackdrop
  rintro cfg cart u v line h3 h4 hv
  refine ⟨fun hs hlo hhi => ?pixel, ?flags⟩
  case pixel =>
    have hnone : ∀ i ∈ shownSprites u (u.dot - 1) u.scanline, spritePixel cart u i (u.dot - 1) u.scanline = 0 := by
      simp [shownSprites_of_hidden h4]
    rw [videoTick_pixel cfg cart line rfl hs (x := u.dot - 1) (by omega) (by omega)] at hv
    rw [hv, (movedOn_fields _).1, readPixel_writePixel, if_pos ⟨rfl, rfl⟩, pixelColour_of_no_sprite hnone,
      bgPixel_of_hidden cart h3]
    rfl
  case flags =>
    obtain ⟨-, hs0, hovf⟩ := movedOn_fields (tickEvent cfg cart { unit := u, line := line }).unit
    rw [hv, videoTick_eq_movedOn, hs0, hovf]
    exact tickEvent_disabled cfg cart h3 h4

end Sys2Proof.Machine
end

