-- ==== Sys2Proof/Proofs/AudioUnit.lean ====
section
/-! PROOFS. Statements of `63_audio_unit.md`: the registers on the bus, the frame sequencer, one tick, the sample stream, and the
length counters over the sequencer's first cycle. -/

namespace Sys2Proof.Machine

open Sys2Proof.Claims

/-! ## Parts of a written byte -/

theorem lowBits_eq_ofNat (v : Byte) (len : Nat) : v.extractLsb' 0 len = BitVec.ofNat len (v.toNat % 2 ^ len) := by
  refine BitVec.eq_of_toNat_eq ?_
  rw [BitVec.extractLsb'_toNat, BitVec.toNat_ofNat, Nat.mod_mod, Nat.shiftRight_zero]

theorem duty_eq_ofNat (v : Byte) : v.extractLsb' 6 2 = BitVec.ofNat 2 (v.toNat / 64) := by
  refine BitVec.eq_of_toNat_eq ?_
  rw [BitVec.extractLsb'_toNat, BitVec.toNat_ofNat, Nat.shiftRight_eq_div_pow]

theorem periodLow_eq_ofNat (p : BitVec 11) (v : Byte) :
    periodLow p v = BitVec.ofNat 11 (p.toNat / 256 * 256 + v.toNat) := by
  refine BitVec.eq_of_toNat_eq ?_
  simp only [periodLow, toNat_append_eq_add, BitVec.extractLsb'_toNat, BitVec.toNat_ofNat, Nat.shiftRight_eq_div_pow]
  omega

theorem periodHigh_eq_ofNat (p : BitVec 11) (v : Byte) :
    periodHigh p v = BitVec.ofNat 11 (v.toNat % 8 * 256 + p.toNat % 256) := by
  refine BitVec.eq_of_toNat_eq ?_
  simp only [periodHigh, toNat_append_eq_add, BitVec.extractLsb'_toNat, BitVec.toNat_ofNat, Nat.shiftRight_zero]
  omega

/-- The two length tables list the same numbers (R384). -/
theorem loadLength_eq_loadedLength (enabled : Bool) (old v : Byte) :
    loadLength enabled old v = loadedLength enabled old v := by
  have htable : Machine.lengthTable = Claims.lengthTable.map (BitVec.ofNat 8) := rfl
  rw [loadLength, loadedLength, lengthOf, htable]
  exact congrArg (fun b => if enabled then b else old) (List.getD_map _ (d := 0) _)

/-! ## The registers on the bus (R382, R385 to R390) -/

/-- A write of the audio register `k` (R382). -/
theorem busWrite_audioReg (k : Nat) (v : Byte) (s : State) (hk : k < 24 := by decide) (hdma : k ≠ 20 := by decide)
    (hport : k ≠ 22 := by decide) :
    busWrite (BitVec.ofNat 16 (0x4000 + k)) v s =
      { s with bus := { s.bus with latch := v }, audio := audioWrite s.audio k v } := by
  have htoNat : (BitVec.ofNat 16 (0x4000 + k)).toNat = 0x4000 + k := by
    rw [BitVec.toNat_ofNat]
    omega
  have hne : ∀ w : Word, 0x4000 + k ≠ w.toNat → BitVec.ofNat 16 (0x4000 + k) ≠ w := fun w hw h => hw (h ▸ htoNat.symm)
  have hindex : (BitVec.ofNat 16 (0x4000 + k) - 0x4000).toNat = k := by
    rw [BitVec.toNat_sub_of_le (by rw [BitVec.le_def, htoNat]; exact Nat.le_add_right _ _), htoNat]
    exact Nat.add_sub_cancel_left _ _
  simp only [busWrite, regionWrite, region_io (a := BitVec.ofNat 16 (0x4000 + k)) (by omega) (by omega), ioWrite]
  rw [if_neg (hne 0x4014 (Nat.add_left_cancel.mt hdma)), if_neg (hne 0x4016 (Nat.add_left_cancel.mt hport)), hindex]
  rfl

theorem busWrite_audioReg_audio (k : Nat) {v : Byte} {s : State} {b : Audio} (hb : audioWrite s.audio k v = b)
    (hk : k < 24 := by decide) (hdma : k ≠ 20 := by decide) (hport : k ≠ 22 := by decide) :
    (busWrite (BitVec.ofNat 16 (0x4000 + k)) v s).audio = b := by
  rw [busWrite_audioReg k v s hk hdma hport, ← hb]

/-- The four registers of a pulse channel, from where its writes go (R385). -/
theorem pulseRule_of_writes {base : Nat} {get : Audio → Pulse} {set : Audio → Pulse → Audio}
    (h : ∀ r < 4, ∀ v s, busWrite (BitVec.ofNat 16 (base + r)) v s =
      { s with bus := { s.bus with latch := v }, audio := set s.audio ((get s.audio).write r v) }) :
    PulseRule base get set := by
  intro v s
  refine ⟨(h 0 (by decide) v s).trans ?control, h 1 (by decide) v s, ?low, ?high⟩
  case control => simp only [Pulse.write, duty_eq_ofNat, lowBits_eq_ofNat, Nat.reducePow]
  case low => rw [h 2 (by decide) v s, Pulse.write, periodLow_eq_ofNat]
  case high => rw [h 3 (by decide) v s, Pulse.write, periodHigh_eq_ofNat, loadLength_eq_loadedLength]

theorem bne_zero_toNat (x : Byte) : (x != 0).toNat = if 0 < x.toNat then 1 else 0 := by
  by_cases h : x = 0
  · rw [h]; rfl
  · have hpos : 0 < x.toNat := Nat.pos_of_ne_zero fun hz => h (BitVec.eq_of_toNat_eq hz)
    rw [if_pos hpos, bne_iff_ne.2 h]
    rfl

/-- `ASTATUS` as a number (R389). -/
theorem audioStatus_eq_ofNat (a : Audio) (latch : Byte) :
    audioStatus a latch =
      BitVec.ofNat 8 ((if 0 < a.pulse0.length.toNat then 1 else 0) + (if 0 < a.pulse1.length.toNat then 2 else 0) +
        (if 0 < a.tri.length.toNat then 4 else 0) + (if 0 < a.noise.length.toNat then 8 else 0) +
        if latch.getLsbD 5 then 32 else 0) := by
  refine BitVec.eq_of_toNat_eq ?_
  simp only [audioStatus, toNat_append_eq_add, BitVec.toNat_ofBool, BitVec.toNat_ofNat, bne_zero_toNat]
  cases latch.getLsbD 5 <;> simp only [Bool.toNat_true, Bool.toNat_false, if_true, Bool.false_eq_true, if_false] <;>
    split_ifs <;> rfl

/-- The triangle's three registers, their fields as parts of the byte (R386). -/
theorem Triangle.write_eq (t : Triangle) (v : Byte) :
    t.write 0 v = { t with halt := v.getLsbD 7, linReg := BitVec.ofNat 7 (v.toNat % 128) } ∧
      t.write 2 v = { t with period := BitVec.ofNat 11 (t.period.toNat / 256 * 256 + v.toNat) } ∧
      t.write 3 v = { t with
        period := BitVec.ofNat 11 (v.toNat % 8 * 256 + t.period.toNat % 256)
        length := loadedLength t.enabled t.length v } := by
  simp only [Triangle.write, lowBits_eq_ofNat, periodLow_eq_ofNat, periodHigh_eq_ofNat, loadLength_eq_loadedLength,
    Nat.reducePow, and_self]

/-- The noise channel's three registers, their fields as parts of the byte (R387). -/
theorem Noise.write_eq (n : Noise) (v : Byte) :
    n.write 0 v =
        { n with halt := v.getLsbD 5, constVol := v.getLsbD 4, vol := BitVec.ofNat 4 (v.toNat % 16) } ∧
      n.write 2 v = { n with mode := v.getLsbD 7, idx := BitVec.ofNat 4 (v.toNat % 16) } ∧
      n.write 3 v = { n with length := loadedLength n.enabled n.length v, start := true } := by
  simp only [Noise.write, lowBits_eq_ofNat, loadLength_eq_loadedLength, Nat.reducePow, and_self]

theorem SampleChannel.write_level (c : SampleChannel) (v : Byte) :
    c.write 1 v = { c with reg1 := v, level := BitVec.ofNat 7 (v.toNat % 128) } := by
  simp only [SampleChannel.write, lowBits_eq_ofNat, Nat.reducePow]

/-- Settles O47: the write of each register by definition, its fields as parts of the byte, and the status as a number. -/
theorem audioRegistersOnTheBus : Obligations.AudioRegistersOnTheBus := by
  unfold Obligations.AudioRegistersOnTheBus
  refine ⟨pulseRule_of_writes fun r hr v s => ?pulse0, pulseRule_of_writes fun r hr v s => ?pulse1, fun v s => ?rest⟩
  case pulse0 =>
    rw [busWrite_audioReg r v s (by omega) (by omega) (by omega), audioWrite, if_pos hr]
  case pulse1 =>
    rw [show 0x4004 + r = 0x4000 + (4 + r) by omega, busWrite_audioReg (4 + r) v s (by omega) (by omega) (by omega),
      audioWrite, if_neg (by omega), if_pos (by omega), Nat.add_sub_cancel_left]
  case rest =>
    obtain ⟨tri0, tri2, tri3⟩ := s.audio.tri.write_eq v
    obtain ⟨noise0, noise2, noise3⟩ := s.audio.noise.write_eq v
    rw [← tri0, ← tri2, ← tri3, ← noise0, ← noise2, ← noise3, ← SampleChannel.write_level]
    refine ⟨busWrite_audioReg_audio 8 rfl, busWrite_audioReg_audio 9 rfl, busWrite_audioReg_audio 10 rfl,
      busWrite_audioReg_audio 11 rfl, busWrite_audioReg_audio 12 rfl, busWrite_audioReg_audio 13 rfl,
      busWrite_audioReg_audio 14 rfl, busWrite_audioReg_audio 15 rfl, busWrite_audioReg_audio 16 rfl,
      busWrite_audioReg_audio 17 rfl, busWrite_audioReg_audio 18 rfl, busWrite_audioReg_audio 19 rfl,
      busWrite_audioReg_audio 21 rfl, ?sequencer, audioStatus_eq_ofNat s.audio s.bus.latch, rfl⟩
    rintro b rfl
    exact busWrite_audioReg_audio 23 rfl

/-! ## The frame sequencer (R404 to R406) -/

/-- One envelope clock in numbers (R405). -/
theorem envelopeClock_eq_envelopeAfter (e : Envelope) (vol : BitVec 4) (halt : Bool) :
    ((envelopeClock e vol halt).start, (envelopeClock e vol halt).div.toNat, (envelopeClock e vol halt).decay.toNat) =
      envelopeAfter e.start e.div.toNat e.decay.toNat vol.toNat halt := by
  have hne : ∀ {b : BitVec 4}, b ≠ 0 → b.toNat ≠ 0 := fun h hz => h (BitVec.eq_of_toNat_eq hz)
  have hpred : ∀ {b : BitVec 4}, b ≠ 0 → (b - 1).toNat = b.toNat - 1 := fun h =>
    BitVec.toNat_sub_of_le (Nat.one_le_iff_ne_zero.2 (hne h))
  unfold envelopeClock envelopeAfter
  cases e.start
  case true => rfl
  case false =>
    by_cases hdiv : e.div = 0
    · by_cases hdecay : e.decay = 0
      · cases halt <;> simp [hdiv, hdecay]
      · have hdiv0 : (0 : BitVec 4).toNat = 0 := rfl
        simp only [hdiv, hdiv0, if_neg hdecay, hpred hdecay, if_pos (Nat.pos_of_ne_zero (hne hdecay)), if_true,
          Bool.false_eq_true, if_false]
    · simp only [if_neg hdiv, if_neg (hne hdiv), hpred hdiv, Bool.false_eq_true, if_false]

theorem lengthClock_toNat (halt : Bool) (length : Byte) :
    (lengthClock halt length).toNat = length.toNat - if halt then 0 else 1 := by
  unfold lengthClock
  by_cases hzero : length = 0
  · simp [hzero]
  · have hpos : 1 ≤ length.toNat := Nat.one_le_iff_ne_zero.2 fun h => hzero (BitVec.eq_of_toNat_eq h)
    rw [beq_eq_false_iff_ne.2 hzero]
    cases halt
    · exact BitVec.toNat_sub_of_le (x := length) (y := 1) hpos
    · rfl

theorem halfAt_iff (fsMode : Bool) (n : Nat) :
    halfAt fsMode n = true ↔ n = 14913 ∨ (fsMode = false ∧ n = 29829) ∨ (fsMode = true ∧ n = 37281) := by
  simp [halfAt, or_assoc]

/-- Every half frame is a quarter frame too, and there are two more (R404). -/
theorem quarterAt_iff (fsMode : Bool) (n : Nat) :
    quarterAt fsMode n = true ↔ (n = 7457 ∨ n = 22371) ∨ halfAt fsMode n = true := by
  simp only [quarterAt, halfAt, Bool.or_eq_true, beq_iff_eq]
  tauto

theorem wrapAt_iff (fsMode : Bool) (n : Nat) :
    wrapAt fsMode n = true ↔ (fsMode = false ∧ n = 29830) ∨ (fsMode = true ∧ n = 37282) := by
  simp [wrapAt]

/-- The sequencer's step: a quarter frame alone at two of its counts, both clocks at three, and the count (R404). -/
theorem frameSequencer_eq (a : Audio) :
    frameSequencer a =
      { (if a.fsCount + 1 = 7457 ∨ a.fsCount + 1 = 22371 then quarterFrame a
          else if halfAt a.fsMode (a.fsCount + 1) then halfFrame (quarterFrame a)
          else a) with
        fsCount := if wrapAt a.fsMode (a.fsCount + 1) then 0 else a.fsCount + 1 } := by
  unfold frameSequencer
  dsimp only
  generalize a.fsCount + 1 = n
  by_cases hquarter : n = 7457 ∨ n = 22371
  · have hhalf : ¬halfAt a.fsMode n = true := by
      rw [halfAt_iff]
      omega
    rw [if_pos hquarter, if_pos ((quarterAt_iff _ _).2 (.inl hquarter)), if_neg hhalf]
  · by_cases hhalf : halfAt a.fsMode n = true
    · rw [if_neg hquarter, if_pos hhalf, if_pos hhalf, if_pos ((quarterAt_iff _ _).2 (.inr hhalf))]
    · rw [if_neg hquarter, if_neg hhalf, if_neg hhalf,
        if_neg fun h => ((quarterAt_iff _ _).1 h).elim hquarter hhalf]

/-- Settles O49: the sequencer's step, and each clock of a channel in numbers. -/
theorem sequencerClocksEnvelopesAndLengths : Obligations.SequencerClocksEnvelopesAndLengths := by
  unfold Obligations.SequencerClocksEnvelopesAndLengths
  rintro a _ _ _ rfl rfl rfl
  refine ⟨?step, rfl, ?pulses, rfl, envelopeClock_eq_envelopeAfter _ _ _, rfl, lengthClock_toNat _ _, lengthClock_toNat _ _,
    lengthClock_toNat _ _, lengthClock_toNat _ _⟩
  case step =>
    simp only [frameSequencer_eq, halfAt_iff, wrapAt_iff]
  case pulses =>
    intro get hget
    fin_cases hget
    · exact ⟨rfl, envelopeClock_eq_envelopeAfter _ _ _⟩
    · exact ⟨rfl, envelopeClock_eq_envelopeAfter _ _ _⟩

/-! ## One tick (R400 to R403) -/

theorem Triangle.clock_eq (t : Triangle) :
    t.clock = { t with
      timer := if t.timer = 0 then t.period else t.timer - 1
      pos := if t.timer = 0 ∧ t.length ≠ 0 then t.pos + 1 else t.pos } := by
  unfold Triangle.clock
  by_cases htimer : t.timer = 0
  · by_cases hlength : t.length = 0 <;> simp [htimer, hlength]
  · simp only [htimer, if_false, false_and]

theorem Pulse.clock_eq (p : Pulse) :
    p.clock = { p with
      timer := if p.timer = 0 then p.period else p.timer - 1
      pos := if p.timer = 0 then p.pos + 1 else p.pos } := by
  unfold Pulse.clock
  by_cases htimer : p.timer = 0 <;> simp only [htimer, if_true, if_false]

/-- The noise timer moves the shift register where it reloads, and changes nothing else (R402). -/
theorem Noise.clock_eq (n : Noise) :
    n.clock = { n with
      timer := if n.timer = 0 then BitVec.ofNat 12 (noisePeriod n.idx - 1) else n.timer - 1
      lfsr := if n.timer = 0 then lfsrNext n.lfsr n.mode else n.lfsr } := by
  unfold Noise.clock
  by_cases htimer : n.timer = 0 <;> simp only [htimer, if_true, if_false]

theorem lfsrNext_toNat (l : BitVec 15) (mode : Bool) :
    (lfsrNext l mode).toNat = l.toNat / 2 + 16384 * (l.getLsbD 0 ^^ l.getLsbD (if mode then 6 else 1)).toNat := by
  rw [lfsrNext, toNat_append_eq_add, BitVec.toNat_ofBool, BitVec.extractLsb'_toNat, ← apply_ite l.getLsbD,
    Nat.shiftRight_eq_div_pow]
  omega

/-- The noise timer reloads at the period less one, which fits its 12 bits (R392). -/
theorem noiseReload_toNat : ∀ idx : BitVec 4, (BitVec.ofNat 12 (noisePeriod idx - 1)).toNat + 1 = noisePeriod idx := by
  decide

/-- A pulse timer counts on odd cycles only (R400). -/
def pulseMoved (cycle : Nat) (p : Pulse) : Pulse := if cycle % 2 = 1 then p.clock else p

theorem pulseMoved_eq (cycle : Nat) (p : Pulse) :
    pulseMoved cycle p = { p with timer := (pulseMoved cycle p).timer, pos := (pulseMoved cycle p).pos } := by
  unfold pulseMoved
  split
  · rw [Pulse.clock_eq]
  · rfl

/-- The rule of a pulse timer (R400, R403). -/
theorem pulseMoved_rule (cycle : Nat) (p : Pulse) :
    (cycle % 2 = 0 → (pulseMoved cycle p).timer = p.timer ∧ (pulseMoved cycle p).pos = p.pos) ∧
      (cycle % 2 = 1 →
        (pulseMoved cycle p).timer = (if p.timer = 0 then p.period else p.timer - 1) ∧
          (pulseMoved cycle p).pos = if p.timer = 0 then p.pos + 1 else p.pos) := by
  unfold pulseMoved
  refine ⟨fun heven => ?_, fun hodd => ?_⟩
  · rw [if_neg (by omega)]
    exact ⟨rfl, rfl⟩
  · rw [if_pos hodd, Pulse.clock_eq]
    exact ⟨rfl, rfl⟩

/-- The channels with their timers moved, the pulse timers on odd cycles only (R400). -/
def timersMoved (a : Audio) : Audio :=
  { a with
    tri := a.tri.clock
    noise := a.noise.clock
    pulse0 := pulseMoved a.apuCycle a.pulse0
    pulse1 := pulseMoved a.apuCycle a.pulse1 }

/-- Of the channels the timers move their own count, the position and the shift register alone. -/
theorem timersMoved_eq (a : Audio) :
    timersMoved a =
      { a with
        tri := { a.tri with timer := a.tri.clock.timer, pos := a.tri.clock.pos }
        noise := { a.noise with timer := a.noise.clock.timer, lfsr := a.noise.clock.lfsr }
        pulse0 := { a.pulse0 with
          timer := (pulseMoved a.apuCycle a.pulse0).timer, pos := (pulseMoved a.apuCycle a.pulse0).pos }
        pulse1 := { a.pulse1 with
          timer := (pulseMoved a.apuCycle a.pulse1).timer, pos := (pulseMoved a.apuCycle a.pulse1).pos } } := by
  rw [← pulseMoved_eq, ← pulseMoved_eq, Triangle.clock_eq, Noise.clock_eq, timersMoved, Triangle.clock_eq, Noise.clock_eq]

/-- A tick: the timers, the sequencer's step, the cycle count, and the sample where one is due (R400, R421). -/
theorem audioTick_eq (cfg : Cfg) (a : Audio) :
    audioTick cfg a =
      { frameSequencer (timersMoved a) with
        apuCycle := a.apuCycle + 1
        samplesRev := if (a.apuCycle + 1) % cfg.sampleDiv = 0 then
            appendSample cfg.sampleCap a.samplesRev (sampleValue cfg.mixer (audioTick cfg a))
          else a.samplesRev } := by
  have hcycle : (channelTick a).apuCycle = a.apuCycle := frameSequencer_apuCycle _
  obtain ⟨-, -, -, -, -, -, -, -, hsamples⟩ := frameSequencer_timers (timersMoved a)
  have hsamples : (channelTick a).samplesRev = a.samplesRev := hsamples
  conv_lhs => unfold audioTick
  dsimp only
  rw [hcycle, hsamples]
  rfl

/-- What a tick does to the timers, positions and the shift register: the sequencer's step leaves them as the timers do. -/
theorem audioTick_timers (cfg : Cfg) (a : Audio) :
    (audioTick cfg a).tri.timer = a.tri.clock.timer ∧ (audioTick cfg a).tri.pos = a.tri.clock.pos ∧
      (audioTick cfg a).noise.lfsr = a.noise.clock.lfsr ∧ (audioTick cfg a).noise.timer = a.noise.clock.timer ∧
      (audioTick cfg a).pulse0.timer = (pulseMoved a.apuCycle a.pulse0).timer ∧
      (audioTick cfg a).pulse0.pos = (pulseMoved a.apuCycle a.pulse0).pos ∧
      (audioTick cfg a).pulse1.timer = (pulseMoved a.apuCycle a.pulse1).timer ∧
      (audioTick cfg a).pulse1.pos = (pulseMoved a.apuCycle a.pulse1).pos := by
  obtain ⟨h1, h2, h3, h4, h5, h6, h7, h8, -⟩ := frameSequencer_timers (timersMoved a)
  exact ⟨h1, h2, h3, h4, h5, h6, h7, h8⟩

/-- Settles O48: the timers' laws, seen through the sequencer's step, which leaves what they move alone. -/
theorem oneAudioTick : Obligations.OneAudioTick := by
  unfold Obligations.OneAudioTick
  rintro cfg a _ rfl
  obtain ⟨triTimer, triPos, lfsr, noiseTimer, timer0, pos0, timer1, pos1⟩ := audioTick_timers cfg a
  have htick := audioTick_eq cfg a
  refine ⟨audioTick_apuCycle cfg a, ?triTimer, ?triPos, ?reload, ?count, ?pulses, ?unbounded, ?notDue, ?whole⟩
  case triTimer => rw [triTimer, Triangle.clock_eq]
  case triPos => rw [triPos, Triangle.clock_eq]
  case reload =>
    intro htimer
    rw [lfsr, noiseTimer, Noise.clock_eq, if_pos htimer, if_pos htimer]
    exact ⟨lfsrNext_toNat _ _, noiseReload_toNat _⟩
  case count =>
    intro htimer
    rw [lfsr, noiseTimer, Noise.clock_eq, if_neg htimer, if_neg htimer]
    exact ⟨rfl, rfl⟩
  case pulses =>
    intro get hget
    fin_cases hget
    · rw [timer0, pos0]
      exact pulseMoved_rule _ _
    · rw [timer1, pos1]
      exact pulseMoved_rule _ _
  case unbounded =>
    intro hcap
    rw [congrArg Audio.samplesRev htick, hcap]
    rfl
  case notDue =>
    intro hdue
    rw [congrArg Audio.samplesRev htick, if_neg hdue]
  case whole =>
    rw [triTimer, triPos, lfsr, noiseTimer, timer0, pos0, timer1, pos1, ← timersMoved_eq,
      congrArg Audio.samplesRev htick]
    exact htick

/-! ## Samples (R307, R391, R393, R410, R420, R421) -/

/-- The duty table as bits (R391). -/
theorem dutyHigh_iff :
    ∀ (duty : BitVec 2) (pos : BitVec 3),
      dutyHigh duty pos = true ↔ (dutyRows.getD duty.toNat []).getD pos.toNat 0 = 1 := by
  decide

theorem ne_zero_iff_pos (b : Byte) : b ≠ 0 ↔ 0 < b.toNat := by
  rw [Nat.pos_iff_ne_zero, ne_eq, ne_eq, not_iff_not, ← BitVec.toNat_inj]
  rfl

theorem pulse_out_eq (p : Pulse) : p.out = pulseLevel p :=
  if_congr (and_congr (ne_zero_iff_pos _) (dutyHigh_iff _ _)) rfl rfl

theorem triangle_out_eq (t : Triangle) : t.out = triangleLevel t :=
  (by decide : ∀ pos : BitVec 5, triSeq pos = if pos.toNat < 16 then 15 - pos.toNat else pos.toNat - 16) t.pos

theorem noise_out_eq (n : Noise) : n.out = noiseLevel n := by
  have hbit : n.lfsr.getLsbD 0 = false ↔ n.lfsr.toNat % 2 = 0 := by
    rw [← Bool.toNat_eq_zero, BitVec.getLsbD, Nat.toNat_testBit, pow_zero, Nat.div_one]
  exact if_congr (and_congr (ne_zero_iff_pos _) hbit) rfl rfl

/-- The reference formula over the rationals (R420): the model tests its inputs for 0, the rule the sum it divides by. -/
theorem mixReference_eq (p0 p1 t n d : Nat) : mixReference p0 p1 t n d = referenceMix p0 p1 t n d := by
  have hpulse : ((p0 : Rat) + p1 = 0) ↔ p0 + p1 = 0 := by
    exact_mod_cast Iff.rfl
  have hsum : (t : Rat) / 8227 + n / 12241 + d / 22638 = 0 ↔ t + n + d = 0 := by
    have ht : (0 : Rat) ≤ t / 8227 := by positivity
    have hn : (0 : Rat) ≤ n / 12241 := by positivity
    have hd : (0 : Rat) ≤ d / 22638 := by positivity
    rw [add_eq_zero_iff_of_nonneg (add_nonneg ht hn) hd, add_eq_zero_iff_of_nonneg ht hn]
    simp [and_assoc]
  unfold mixReference referenceMix
  simp only [hpulse, hsum, Nat.cast_add]
  norm_num

/-- Any mixing formula is 0 on five zeros (R420). -/
theorem mix_zero (m : Mixer) : mix m 0 0 0 0 0 = 0 := by
  cases m
  · simp [mix, mixReference]
  · rfl

theorem sampleValue_eq (m : Mixer) (a : Audio) :
    sampleValue m a =
      mix m (pulseLevel a.pulse0) (pulseLevel a.pulse1) (triangleLevel a.tri) (noiseLevel a.noise) a.sample.level.toNat := by
  rw [sampleValue, pulse_out_eq, pulse_out_eq, triangle_out_eq, noise_out_eq]

/-- A due sample goes where the stream's capacity lets it (R307, R421). -/
theorem audioTick_samplesRev {cfg : Cfg} {a : Audio} (hdue : (a.apuCycle + 1) % cfg.sampleDiv = 0) :
    (audioTick cfg a).samplesRev =
      appendSample cfg.sampleCap a.samplesRev (sampleValue cfg.mixer (audioTick cfg a)) := by
  rw [congrArg Audio.samplesRev (audioTick_eq cfg a)]
  exact if_pos hdue

theorem appendSample_of_room {cap : Option Nat} {l : List Rat} (v : Rat)
    (h : cap = none ∨ ∃ n, cap = some n ∧ l.length < n) : appendSample cap l v = v :: l := by
  obtain rfl | ⟨n, rfl, hroom⟩ := h
  · rfl
  · exact if_pos hroom

/-- The host takes the oldest samples: the last ones of the stream kept newest first. -/
theorem take_eq_reverse_drop (l : List Rat) (n : Nat) : l.take (l.length - n) = (l.reverse.drop n).reverse := by
  rw [List.reverse_drop, List.reverse_reverse, List.length_reverse]

/-- Settles O50: the outputs in the rules' words, the two formulas, and the stream's capacity. -/
theorem samplesAreTheMixedOutputs : Obligations.SamplesAreTheMixedOutputs := by
  unfold Obligations.SamplesAreTheMixedOutputs
  refine ⟨?ticks, fun n s => ?host⟩
  case ticks =>
    rintro cfg a _ rfl hdue
    rw [audioTick_samplesRev hdue, sampleValue_eq]
    refine ⟨fun hroom => ?room, ?full, mix_zero cfg.mixer⟩
    case room =>
      rw [appendSample_of_room _ hroom]
      refine ⟨rfl, fun href => ?_⟩
      rw [href, ← mixReference_eq]
      rfl
    case full =>
      intro cap hcap hfull
      rw [hcap]
      exact if_neg (Nat.not_lt.2 hfull)
  case host =>
    rw [← take_eq_reverse_drop]
    rfl

/-! ## The length counters (R404, R406, R407) -/

/-- Each channel's halt flag and length counter: the two pulses, the triangle, the noise channel. -/
def Audio.counters (a : Audio) : List (Bool × Byte) :=
  [(a.pulse0.halt, a.pulse0.length), (a.pulse1.halt, a.pulse1.length), (a.tri.halt, a.tri.length),
    (a.noise.halt, a.noise.length)]

/-- `k` half-frame clocks of a channel's counter. -/
def countedDown (k : Nat) (c : Bool × Byte) : Bool × Byte := (c.1, (lengthClock c.1)^[k] c.2)

theorem countedDown_add (j k : Nat) (c : Bool × Byte) : countedDown j (countedDown k c) = countedDown (j + k) c := by
  simp only [countedDown, Function.iterate_add_apply]

/-- The counter after `k` clocks: `k` lower, to 0 at least, where it is not halted. -/
theorem countedDown_toNat (k : Nat) (c : Bool × Byte) :
    (countedDown k c).2.toNat = if c.1 then c.2.toNat else c.2.toNat - k := by
  induction k with
  | zero => simp [countedDown]
  | succ k ih =>
    rw [countedDown] at ih ⊢
    dsimp only at ih ⊢
    rw [Function.iterate_succ_apply', lengthClock_toNat, ih]
    cases c.1
    · exact Nat.sub_sub _ _ _
    · rfl

/-- The sequencer's step clocks the counters where its count says so, and moves that count (R404). -/
theorem frameSequencer_counters (a : Audio) :
    (frameSequencer a).fsMode = a.fsMode ∧
      (frameSequencer a).fsCount = (if wrapAt a.fsMode (a.fsCount + 1) then 0 else a.fsCount + 1) ∧
      (frameSequencer a).counters =
        a.counters.map (countedDown (if halfAt a.fsMode (a.fsCount + 1) then 1 else 0)) := by
  unfold frameSequencer
  dsimp only
  cases halfAt a.fsMode (a.fsCount + 1) <;> cases quarterAt a.fsMode (a.fsCount + 1) <;> exact ⟨rfl, rfl, rfl⟩

theorem audioTick_counters (cfg : Cfg) (a : Audio) :
    (audioTick cfg a).fsMode = a.fsMode ∧
      (audioTick cfg a).fsCount = (if wrapAt a.fsMode (a.fsCount + 1) then 0 else a.fsCount + 1) ∧
      (audioTick cfg a).counters =
        a.counters.map (countedDown (if halfAt a.fsMode (a.fsCount + 1) then 1 else 0)) := by
  have hmoved : (timersMoved a).counters = a.counters := by
    rw [timersMoved_eq]
    rfl
  obtain ⟨hmode, hcount, hcounters⟩ := frameSequencer_counters (timersMoved a)
  rw [hmoved] at hcounters
  exact ⟨hmode, hcount, hcounters⟩

/-- The length of the sequencer's cycle (R404). -/
def sequencerCycle (fsMode : Bool) : Nat := if fsMode then 37282 else 29830

theorem wrapAt_iff_cycle (fsMode : Bool) (n : Nat) : wrapAt fsMode n = true ↔ n = sequencerCycle fsMode := by
  rw [wrapAt_iff, sequencerCycle]
  cases fsMode <;> simp

/-- Within the first cycle one more half-frame clock is given at each count that calls for one. -/
theorem halfClocks_succ {fsMode : Bool} {n : Nat} (h : n < sequencerCycle fsMode) :
    halfClocks fsMode (n + 1) = (if halfAt fsMode (n + 1) then 1 else 0) + halfClocks fsMode n := by
  unfold sequencerCycle at h
  simp only [halfClocks, halfAt_iff]
  cases fsMode <;> simp at h ⊢ <;> split_ifs <;> omega

/-- `n` ticks into the sequencer's first cycle: its count, and every counter clocked as often as half frames were given. -/
theorem audioTicks_counters (cfg : Cfg) {a : Audio} (ha : a.fsCount = 0) {n : Nat} (hn : n ≤ sequencerCycle a.fsMode) :
    (audioTicks cfg n a).fsMode = a.fsMode ∧
      (audioTicks cfg n a).fsCount = n % sequencerCycle a.fsMode ∧
      (audioTicks cfg n a).counters = a.counters.map (countedDown (halfClocks a.fsMode n)) := by
  induction n with
  | zero => exact ⟨rfl, ha.trans (Nat.zero_mod _).symm, rfl⟩
  | succ n ih =>
    obtain ⟨ihmode, ihcount, ihcounters⟩ := ih (Nat.le_of_succ_le hn)
    rw [Nat.mod_eq_of_lt hn] at ihcount
    obtain ⟨hmode, hcount, hcounters⟩ := audioTick_counters cfg (audioTicks cfg n a)
    rw [← audioTicks_succ, ihmode] at hmode
    rw [← audioTicks_succ, ihmode, ihcount] at hcount hcounters
    refine ⟨hmode, ?_, ?_⟩
    · rw [hcount]
      obtain hlt | heq := Nat.lt_or_eq_of_le hn
      · rw [if_neg fun hwrap => Nat.ne_of_lt hlt ((wrapAt_iff_cycle _ _).1 hwrap), Nat.mod_eq_of_lt hlt]
      · rw [if_pos ((wrapAt_iff_cycle _ _).2 heq), heq, Nat.mod_self]
    · rw [hcounters, ihcounters, List.map_map, halfClocks_succ hn]
      exact List.map_congr_left fun c _ => countedDown_add _ _ c

/-- Settles O51: by induction on the ticks, each counter is clocked at the half frames given by then. -/
theorem lengthCountersRunOut : Obligations.LengthCountersRunOut := by
  unfold Obligations.LengthCountersRunOut
  rintro cfg a _ n ha hn rfl
  obtain ⟨-, hcount, hcounters⟩ := audioTicks_counters cfg ha hn
  obtain ⟨h0, h1, h2, h3⟩ : _ ∧ _ ∧ _ ∧ _ := by simpa only [Audio.counters, List.map_cons, List.map_nil, List.cons.injEq, and_true] using hcounters
  exact ⟨hcount, by rw [← countedDown_toNat _ (a.pulse0.halt, a.pulse0.length), ← h0],
    by rw [← countedDown_toNat _ (a.pulse1.halt, a.pulse1.length), ← h1],
    by rw [← countedDown_toNat _ (a.tri.halt, a.tri.length), ← h2],
    by rw [← countedDown_toNat _ (a.noise.halt, a.noise.length), ← h3]⟩

end Sys2Proof.Machine
end

