-- ==== Sys2Proof/Proofs/MapperIo.lean ====
section
/-! PROOFS. Statements of `64_mapper_io.md`: cartridge space, the sprite-table transfer, and the controller ports. -/

namespace Sys2Proof.Machine

open Sys2Proof.Claims

/-! ## Cartridge space (R441 to R443) -/

theorem busWrite_cartridge {a : Word} (h : 0x4020 ≤ a.toNat) (v : Byte) (s : State) :
    busWrite a v s = mapperWrite a v (s.setLatch v) := by
  simp only [busWrite, regionWrite, region_cartridge h]

/-- A 16 KB bank shows twice: its addresses differ by its length (R441). -/
theorem prgByte_mirror {a : Word} {s : State} (hprg : 0x8000 ≤ a.toNat) (hbank : a.toNat < 0xC000)
    (hsize : s.cart.prgSize = .k16) : prgByte s (a + 0x4000) = prgByte s a := by
  have hsum : (a + 0x4000).toNat = a.toNat + 0x4000 := by
    rw [BitVec.toNat_add]
    exact Nat.mod_eq_of_lt (by simp; omega)
  have hoffset : a.toNat + 0x4000 - 0x8000 = a.toNat - 0x8000 + 16384 := by omega
  rw [prgByte, prgByte, hsum, hsize, hoffset, Nat.add_mod_right]

/-- Settles O34: what is stored behind an address is read and, below 0x8000, written; elsewhere the latch answers. -/
theorem cartridgeSpaceReadsAndWrites : Obligations.CartridgeSpaceReadsAndWrites := by
  unfold Obligations.CartridgeSpaceReadsAndWrites
  intro a v s ha
  rw [busWrite_cartridge ha]
  have not_mapped : a.toNat < 0x6000 ∨ (a.toNat < 0x8000 ∧ s.cfg.prgRam = false) →
      ¬0x8000 ≤ a.toNat ∧ ¬(0x6000 ≤ a.toNat ∧ s.cfg.prgRam = true) := by
    rintro (hlo | ⟨hlo, hram⟩)
    · omega
    · exact ⟨by omega, fun h => absurd (hram.symm.trans h.2) (by decide)⟩
  refine ⟨fun hprg => ⟨?prgRead, ?prgWrite, fun hsize hbank => prgByte_mirror hprg hbank hsize⟩,
    fun hlo hhi hram => ⟨?ramRead, ?ramWrite⟩, fun hopen => ⟨?openRead, ?openWrite⟩⟩
  case prgRead =>
    rw [busRead_storage (storageCell_prg hprg), ← prgByte_eq_readCell s hprg]
    rfl
  case prgWrite =>
    rw [mapperWrite, if_pos hprg]
    rfl
  case ramRead =>
    have hcell : storageCell s a = some a.toNat := by
      simp [storageCell, region_cartridge ha, cartCell, Nat.not_le.2 hhi, hlo, hram]
    rw [busRead_storage hcell]
    rfl
  case ramWrite =>
    rw [mapperWrite, if_neg (Nat.not_le.2 hhi), if_pos ⟨hlo, hram⟩]
    rfl
  case openRead =>
    obtain ⟨hprg, hram⟩ := not_mapped hopen
    have hcell : storageCell s a = none := by
      simp only [storageCell, region_cartridge ha, cartCell, if_neg hprg, if_neg hram]
    exact busRead_of_open (regionRead_of_no_storage (by simp [region_cartridge ha]) (by simp [region_cartridge ha]) hcell)
  case openWrite =>
    obtain ⟨hprg, hram⟩ := not_mapped hopen
    rw [mapperWrite, if_neg hprg]
    exact if_neg hram

/-! ## The sprite-table transfer (R446) -/

/-- The addresses of a page, from its first (R446). -/
theorem mkWord_zero_add (p : Byte) {k : Nat} (hk : k < 256) :
    mkWord p 0 + BitVec.ofNat 16 k = mkWord p (BitVec.ofNat 8 k) := by
  have hp : p.toNat < 256 := p.isLt
  refine BitVec.eq_of_toNat_eq ?_
  rw [BitVec.toNat_add, mkWord, mkWord, toNat_append_eq_add, toNat_append_eq_add, BitVec.toNat_ofNat, BitVec.toNat_ofNat]
  simp
  omega

/-- The first `n` bytes of a transfer are the model's loop. -/
theorem transferred_eq_oamCopy (p : Byte) {n : Nat} (hn : n ≤ 256) (s : State) :
    transferred p n s = oamCopy n (mkWord p 0) s := by
  induction n with
  | zero => rfl
  | succ n ih =>
    rw [transferred, ih (Nat.le_of_succ_le hn), ← mkWord_zero_add p hn, oamCopy_add]
    rfl

/-- A transfer stores nothing behind the CPU address space. -/
theorem storedByte_transferred (p : Byte) {n : Nat} (hn : n ≤ 256) (s : State) (a : Word) :
    storedByte (transferred p n s) a = storedByte s a := by
  rw [transferred_eq_oamCopy p hn]
  exact storedByte_congr (oamCopy_mem _ _ _) (oamCopy_cart _ _ _) (oamCopy_cfg _ _ _) a

/-- The latch after a transfer holds the last byte it read (R72). -/
theorem transferred_latch (p : Byte) (n : Nat) (s : State) :
    (transferred p (n + 1) s).bus.latch = (busRead (mkWord p (BitVec.ofNat 8 n)) (transferred p n s)).value :=
  busRead_latch _ _

theorem busWrite_dma_eq_transferred (p : Byte) (s : State) :
    busWrite 0x4014 p s = transferred p 256 { s with bus := { s.bus with latch := p } } := by
  rw [busWrite_dma, transferred_eq_oamCopy p (Nat.le_refl _)]
  rfl

/-- Each byte stored moves the index on by one (R326). -/
theorem transferred_oamAddr (p : Byte) (n : Nat) (s : State) :
    (transferred p n s).video.oamAddr = s.video.oamAddr + BitVec.ofNat 8 n := by
  induction n with
  | zero => exact (BitVec.add_zero _).symm
  | succ n ih =>
    show (busRead _ (transferred p n s)).state.video.oamAddr + 1 = _
    rw [busRead_oamAddr, ih, BitVec.add_assoc, BitVec.ofNat_add]
    rfl

/-- The sprite table after the first `n` bytes of a page, stored from an index on (R326, R446). -/
def copiedTable (page : Nat → Byte) (index : Nat) (m : Memory) : Nat → Memory
  | 0 => m
  | n + 1 =>
    writeCell .oam (copiedTable page index m n) ((index + n) % 256)
      (if (index + n) % 4 = 2 then page n &&& 0xE3 else page n)

/-- 256 bytes go to 256 different cells, so each is still there at the end. -/
theorem readCell_copiedTable (page : Nat → Byte) (index : Nat) (m : Memory) {n k : Nat} (hn : n ≤ 256) (hk : k < n) :
    readCell .oam (copiedTable page index m n) ((index + k) % 256) =
      if (index + k) % 4 = 2 then page k &&& 0xE3 else page k := by
  induction n with
  | zero => omega
  | succ n ih =>
    rw [copiedTable, readCell_writeCell]
    obtain hlt | rfl := Nat.lt_succ_iff_lt_or_eq.1 hk
    · rw [if_neg (by omega), ih (by omega) hlt]
    · rw [if_pos rfl]

/-- A transfer of a page in storage changes the table, the index and the latch alone. -/
theorem transferred_of_stored {p : Byte} {s : State} {page : Nat → Byte}
    (hpage : ∀ k, k < 256 → storedByte s (mkWord p (BitVec.ofNat 8 k)) = some (page k)) {n : Nat} (hn : n ≤ 256) :
    ∃ latch, transferred p n s =
      { s with
        bus := { s.bus with latch := latch }
        video := { s.video with
          oam := copiedTable page s.video.oamAddr.toNat s.video.oam n
          oamAddr := s.video.oamAddr + BitVec.ofNat 8 n } } := by
  induction n with
  | zero => exact ⟨s.bus.latch, by rw [BitVec.add_zero]; rfl⟩
  | succ n ih =>
    obtain ⟨latch, ih⟩ := ih (Nat.le_of_succ_le hn)
    have hbyte := (storedByte_transferred p (Nat.le_of_succ_le hn) s _).trans (hpage n hn)
    have hindex : (s.video.oamAddr + BitVec.ofNat 8 n).toNat = (s.video.oamAddr.toNat + n) % 256 := by
      rw [BitVec.toNat_add, BitVec.toNat_ofNat, Nat.add_mod_mod]
    have hmod : (s.video.oamAddr.toNat + n) % 256 % 4 = (s.video.oamAddr.toNat + n) % 4 := by omega
    refine ⟨page n, ?_⟩
    rw [transferred, busRead_stored hbyte, ih]
    simp only [oamStored, State.setLatch, hindex, hmod, copiedTable, BitVec.ofNat_add, BitVec.add_assoc]
    rfl

/-- Settles O41: the transfer is its loop; its last access is the read of the last address; and in storage each read is the
stored byte. -/
theorem oamDmaCopiesThePage : Obligations.OamDmaCopiesThePage := by
  unfold Obligations.OamDmaCopiesThePage
  refine ⟨fun p s => ⟨busWrite_dma_eq_transferred p s, ?latch, ?index⟩, fun p s page hpage => ?stored⟩
  case latch =>
    rw [busWrite_dma_eq_transferred]
    exact transferred_latch _ _ _
  case index =>
    rw [busWrite_dma_eq_transferred, transferred_oamAddr]
    exact BitVec.add_zero _
  case stored =>
    obtain ⟨latch, hcopy⟩ := transferred_of_stored (s := s.setLatch p) hpage (Nat.le_refl 256)
    have hlast : latch = page 255 := by
      have hread := transferred_latch p 255 (s.setLatch p)
      have hstored := (storedByte_transferred p (n := 255) (by decide) (s.setLatch p) (mkWord p 255)).trans
        (hpage 255 (by decide))
      rw [show BitVec.ofNat 8 255 = 255 from rfl, busRead_stored hstored] at hread
      exact (congrArg (fun t : State => t.bus.latch) hcopy).symm.trans hread
    refine ⟨_, ?_, fun k hk => readCell_copiedTable page s.video.oamAddr.toNat s.video.oam (Nat.le_refl 256) hk⟩
    rw [busWrite_dma_eq_transferred, ← hlast]
    have hindex : (s.setLatch p).video.oamAddr + BitVec.ofNat 8 256 = s.video.oamAddr :=
      BitVec.add_zero _
    rw [hindex] at hcopy
    exact hcopy

/-! ## The controller ports (R450 to R452) -/

/-- The value of a port's read in numbers: one bit under the latch's bits 7..5 (R451). -/
theorem portValue_eq_ofNat (latch b : Byte) :
    (latch &&& 0xE0) ||| (b &&& 1) = BitVec.ofNat 8 (latch.toNat / 32 * 32 + b.toNat % 2) := by
  have hparts : (latch &&& 0xE0) ||| (b &&& 1) = latch.extractLsb' 5 3 ++ (0#4 ++ b.extractLsb' 0 1) := by
    refine BitVec.eq_of_getLsbD_eq fun k hk => ?_
    simp only [BitVec.getLsbD_or, BitVec.getLsbD_and, BitVec.getLsbD_append, BitVec.getLsbD_extractLsb']
    interval_cases k <;> simp
  rw [hparts]
  refine BitVec.eq_of_toNat_eq ?_
  simp only [toNat_append_eq_add, BitVec.extractLsb'_toNat, BitVec.toNat_ofNat, Nat.shiftRight_eq_div_pow]
  omega

/-- A port shifted once, 1 coming in at the top (R451). -/
theorem shifted_eq_ofNat (b : Byte) : 1#1 ++ b.extractLsb' 1 7 = BitVec.ofNat 8 (b.toNat / 2 + 128) := by
  refine BitVec.eq_of_toNat_eq ?_
  simp only [toNat_append_eq_add, BitVec.extractLsb'_toNat, BitVec.toNat_ofNat, Nat.shiftRight_eq_div_pow]
  omega

/-- What a port's read gives, in the words of its rule. -/
theorem padRead_eq (latch : Byte) (strobe : Bool) (pad shift : Byte) :
    (latch &&& 0xE0) ||| (padRead strobe pad shift).1 =
        BitVec.ofNat 8 (latch.toNat / 32 * 32 + (if strobe then pad else shift).toNat % 2) ∧
      (padRead strobe pad shift).2 = if strobe then shift else BitVec.ofNat 8 (shift.toNat / 2 + 128) := by
  cases strobe
  · exact ⟨portValue_eq_ofNat latch shift, shifted_eq_ofNat shift⟩
  · exact ⟨portValue_eq_ofNat latch pad, rfl⟩

/-- The rule of a port, from the read of it that shifts its register. -/
theorem portRule_of_read {a : Word} {pad shift : Input → Byte} {set : Input → Byte → Input}
    (hread : ∀ s, busRead a s =
      { value := (s.bus.latch &&& 0xE0) ||| (padRead s.input.strobe (pad s.input) (shift s.input)).1
        state := { s with
          bus := { s.bus with
            latch := (s.bus.latch &&& 0xE0) ||| (padRead s.input.strobe (pad s.input) (shift s.input)).1 }
          input := set s.input (padRead s.input.strobe (pad s.input) (shift s.input)).2 } })
    (hset : ∀ p, set p (shift p) = p) : PortRule a pad shift set := by
  rintro s _ rfl
  obtain ⟨hvalue, hshift⟩ := padRead_eq s.bus.latch s.input.strobe (pad s.input) (shift s.input)
  rw [hread, hvalue, hshift, apply_ite (set s.input), hset]

theorem port0_rule : PortRule 0x4016 Input.pad0 Input.shift0 fun p b => { p with shift0 := b } :=
  portRule_of_read (fun _ => rfl) fun _ => rfl

theorem port1_rule : PortRule 0x4017 Input.pad1 Input.shift1 fun p b => { p with shift1 := b } :=
  portRule_of_read (fun _ => rfl) fun _ => rfl

/-- The bits a shift register gives, one by one: its own from bit 0 on, then 1 for ever (R451). -/
def shiftedOut (b : Byte) (k : Nat) : Bool := b.getLsbD k || decide (8 ≤ k)

theorem shiftedOut_shifted (b : Byte) (k : Nat) :
    shiftedOut (BitVec.ofNat 8 (b.toNat / 2 + 128)) k = shiftedOut b (k + 1) := by
  rw [← shifted_eq_ofNat, shiftedOut, shiftedOut, BitVec.getLsbD_append, BitVec.getLsbD_extractLsb']
  obtain hk | rfl | hk := Nat.lt_trichotomy k 7
  · have h8 : ¬8 ≤ k := by omega
    have h7 : ¬7 ≤ k := by omega
    simp [hk, h8, h7, Nat.add_comm]
  · simp
  · have h8 : 8 ≤ k := hk
    have h7 : 8 ≤ k + 1 := by omega
    simp [h8, h7]

/-- Eight reads give the register's bits, and every later one 1. -/
theorem map_shiftedOut (b : Byte) (n : Nat) :
    (List.range (8 + n)).map (shiftedOut b) = (List.range 8).map b.getLsbD ++ List.replicate n true := by
  rw [List.range_add, List.map_append, List.map_map]
  refine congrArg₂ _ (List.map_congr_left fun k hk => ?_) ?_
  · have h8 : ¬8 ≤ k := Nat.not_le.2 (List.mem_range.1 hk)
    simp [shiftedOut, h8]
  · refine List.eq_replicate_iff.2 ⟨by simp, fun x hx => ?_⟩
    obtain ⟨k, -, rfl⟩ := List.mem_map.1 hx
    simp [shiftedOut]

section
variable {a : Word} {pad shift : Input → Byte} {set : Input → Byte → Input} (rule : PortRule a pad shift set)
include rule

theorem busRead_bit_of_portRule (s : State) :
    (busRead a s).value.getLsbD 0 = (if s.input.strobe then pad s.input else shift s.input).getLsbD 0 := by
  rw [rule s _ rfl]
  generalize (if s.input.strobe then pad s.input else shift s.input) = b
  rw [← portValue_eq_ofNat, BitVec.getLsbD_or, BitVec.getLsbD_and, BitVec.getLsbD_and]
  simp

theorem busRead_input_of_portRule (s : State) :
    (busRead a s).state.input =
      if s.input.strobe then s.input else set s.input (BitVec.ofNat 8 ((shift s.input).toNat / 2 + 128)) := by
  rw [rule s _ rfl]

/-- With the strobe high every read gives button A and changes nothing of the ports (R451). -/
theorem portBits_of_strobe (n : Nat) {s : State} (h : s.input.strobe = true) :
    portBits n a s = List.replicate n ((pad s.input).getLsbD 0) := by
  induction n generalizing s with
  | zero => rfl
  | succ n ih =>
    have hinput : (busRead a s).state.input = s.input := by rw [busRead_input_of_portRule rule, if_pos h]
    rw [portBits, busRead_bit_of_portRule rule, if_pos h, ih (by rw [hinput]; exact h), hinput]
    rfl

/-- With the strobe low the reads shift the port's register out (R451). -/
theorem portBits_of_shift (hset : ∀ p b, shift (set p b) = b ∧ (set p b).strobe = p.strobe) (n : Nat) {s : State}
    (h : s.input.strobe = false) : portBits n a s = (List.range n).map (shiftedOut (shift s.input)) := by
  induction n generalizing s with
  | zero => rfl
  | succ n ih =>
    have hlow : ¬s.input.strobe = true := by simp [h]
    have hinput := busRead_input_of_portRule rule s
    rw [if_neg hlow] at hinput
    obtain ⟨hshift, hstrobe⟩ := hset s.input (BitVec.ofNat 8 ((shift s.input).toNat / 2 + 128))
    rw [← hinput] at hshift hstrobe
    rw [portBits, busRead_bit_of_portRule rule, if_neg hlow, ih (hstrobe.trans h), hshift, List.range_succ_eq_map, List.map_cons,
      List.map_map]
    exact congrArg₂ _ (by simp [shiftedOut]) (List.map_congr_left fun k _ => shiftedOut_shifted _ k)

end

/-- A write of the strobe (R450). -/
theorem busWrite_strobe (v : Byte) (s : State) :
    busWrite 0x4016 v s =
      { s with bus := { s.bus with latch := v }, input := strobeWrite s.input v } := rfl

/-- Settles O52: the strobe and the host's calls by definition, the ports by their one rule. -/
theorem controllerReadsShiftOut : Obligations.ControllerReadsShiftOut := by
  unfold Obligations.ControllerReadsShiftOut
  refine ⟨fun _ _ => rfl, port0_rule, port1_rule, ?reads, fun _ _ => ⟨rfl, rfl⟩, fun s => ⟨takeHostCalls_none, ?calls⟩⟩
  case reads =>
    rintro s _ _ v0 v1 n h1 h0 rfl rfl
    have high : (busWrite 0x4016 v1 s).input =
        { s.input with strobe := true, shift0 := s.input.pad0, shift1 := s.input.pad1 } := if_pos h1
    have low : (busWrite 0x4016 v0 (busWrite 0x4016 v1 s)).input =
        { s.input with strobe := false, shift0 := s.input.pad0, shift1 := s.input.pad1 } := by
      rw [busWrite_strobe v0, strobeWrite, if_neg (ne_true_of_eq_false h0), high]
    have hhigh : (busWrite 0x4016 v1 s).input.strobe = true := by rw [high]
    have hlow : (busWrite 0x4016 v0 (busWrite 0x4016 v1 s)).input.strobe = false := by rw [low]
    refine ⟨?_, ?_, ?_, ?_, ?_, ?_⟩
    · rw [portBits_of_shift port0_rule (fun _ _ => ⟨rfl, rfl⟩) _ hlow, map_shiftedOut, low]
    · rw [portBits_of_shift port1_rule (fun _ _ => ⟨rfl, rfl⟩) _ hlow, map_shiftedOut, low]
    · rw [portBits_of_strobe port0_rule n hhigh, high]
    · rw [portBits_of_strobe port1_rule n hhigh, high]
    · rw [busRead_input_of_portRule port0_rule, if_pos hhigh]
    · rw [busRead_input_of_portRule port1_rule, if_pos hhigh]
  case calls =>
    intro calls rest hcalls
    rw [takeHostCalls, hcalls]
    exact hostCallsOf_foldl calls _

end Sys2Proof.Machine
end
